-- ==== Sys2Proof/Word.lean ====
section
/-! DEFINITION. The words of the block: bytes, the 16-bit checksum value, line levels, pulses, and the small
closed vocabularies (statuses, direction modes, command classes) that its registers and operands are made of. -/

namespace Sys2Proof

/-- A character or buffer element (R30): 8 bits, of which bit 7 is never on the wire (R41). -/
abbrev Byte := BitVec 8

/-- The value of the Checksum Unit (R24, R130): 16 bits, unsigned. -/
abbrev Word16 := BitVec 16

/-- A line level (R7): spacing is the level bit 1 (`S`), marking is the level bit 0 (`M`). -/
inductive Level where
  | spacing
  | marking
  deriving DecidableEq, Repr, Inhabited

/-- A pulse (R7, R66): a level held for `dur` pulse ticks (PT).  A duration of 0 is legal. -/
structure Pulse where
  level : Level
  dur : Nat
  deriving DecidableEq, Repr, Inhabited

/-- The direction mode (R12, R187).  The 2-bit code 3 is never held, so it has no constructor. -/
inductive Dir where
  | idle
  | transmit
  | receive
  deriving DecidableEq, Repr, Inhabited

/-- `dec_state` (R15): `BIT_1` to `BIT_7` are `bit 0` to `bit 6`. -/
inductive DecState where
  | waitStart
  | bit (k : Fin 7)
  | parity
  | stop
  deriving DecidableEq, Repr, Inhabited

/-- The ten statuses (R220), in the order of their codes 0 to 9. -/
inductive Status where
  | ok
  | invalidArg
  | timeout
  | notFinished
  | invalidResponse
  | invalidSize
  | invalidChecksum
  | notFound
  | noMem
  | fail
  deriving DecidableEq, Repr, Inhabited

/-- The command classes (R71). -/
inductive CmdClass where
  | meas
  | data
  | other
  deriving DecidableEq, Repr, Inhabited

/-- What `Env.Capture` answers (R190): a waveform with the time it took in TT, nothing within the budget,
or a driver-level failure. -/
inductive Capture where
  | captured (pulses : List Pulse) (elapsed : Nat)
  | timeout
  | fail
  deriving DecidableEq, Repr, Inhabited

end Sys2Proof
end

