-- ==== Sys2Proof/Config.lean ====
section
/-! DEFINITION. What an implementation fixes: the constants the spec gives, the OPEN parameters as a record that
State carries (R33: a model quantifies over all of them), and the free values, opaque constants with no body. -/

namespace Sys2Proof

/-- `BIT_WIDTH` (R5): the duration of one frame unit in PT, the hard-wired register `tp.bit_width` (R11). -/
def Config.bitWidth : Nat := 833

/-- `BREAK_DEFAULT` (R5, R181): the break used when 0 is supplied at creation, in PT. -/
def Config.breakDefault : Nat := 12200

/-- `TIMEOUT_DEFAULT` (R5): the response timeout a host uses when it has no other value, in TT. -/
def Config.timeoutDefault : Nat := 1000

/-- `RSP_CAP_MIN` (R5): the advisory minimum response capacity; the block does not enforce it. -/
def Config.rspCapMin : Nat := 85

/-- The parameters the spec leaves OPEN (R5; the closing paragraph of 92_eei_decisions.md), with two points of the
host verbs that it leaves open (N19, N20).  `N_REQ` is the number of requester ports that State holds. -/
structure Params where
  /-- `MARK_DEFAULT` (R5, D4): the post-break marking used when 0 is supplied, in PT. -/
  markDefault : Nat
  /-- `CMD_MAX` (R5, D12): the largest accepted command length. -/
  cmdMax : Nat
  /-- `SRQ_CAP` (R5, D16): the capacity of the service-request buffer. -/
  srqCap : Nat
  /-- `HV_SET` (R5, D13): the second characters that select the high-volume variant. -/
  hvSet : List Byte
  /-- `C_WAITS` (R5, R171, D14): whether a concurrent measurement takes the deferred wait. -/
  cWaits : Bool
  /-- N19: whether the measurement verbs write index 0 as a digit. -/
  idxZeroDigit : Bool
  /-- N20: whether the payload that the read verbs return holds the address byte. -/
  payloadWithAddr : Bool
  deriving DecidableEq, Repr, Inhabited

/-- The constraints the spec puts on the parameters (R5). -/
abbrev Params.Legal (p : Params) : Prop :=
  8300 ≤ p.markDefault ∧ p.markDefault ≤ 9000 ∧ 2 ≤ p.cmdMax ∧ 3 ≤ p.srqCap

/-- The instantiation under which the spec's vectors were computed (the last lines of 92_eei_decisions.md). -/
def Params.vectors : Params :=
  { markDefault := 8400, cmdMax := 16, srqCap := 8, hvSet := [0x48#8], cWaits := false,
    idxZeroDigit := true, payloadWithAddr := false }

/-! Free values.  Each is applied to a plain counter of State, or to the bytes it depends on; nothing says what
it is, so a claim that holds does so for every value. -/

/-- The mode `dir_mode` holds after a direction request that failed (R12, R186, U4). -/
opaque Config.freeDir : Nat → Dir

/-- `tx_idx` once ENCODE is over (R14: it does not survive the call). -/
opaque Config.freeTxIdx : Nat → Nat

/-- `tx_unit` once ENCODE or FRAME is over (R14). -/
opaque Config.freeTxUnit : Nat → Fin 10

/-- `tx_par` once ENCODE is over (R14). -/
opaque Config.freeTxPar : Nat → Bool

/-- `rx_pulse_idx` once DECODE is over (R18: live only inside one call). -/
opaque Config.freeRxPulseIdx : Nat → Nat

/-- `rx_units_left` once DECODE is over (R18). -/
opaque Config.freeRxUnitsLeft : Nat → Fin 10

/-- `rx_level` once DECODE is over (R18). -/
opaque Config.freeRxLevel : Nat → Level

/-- The block's registers and buffers that are unspecified while no Bus exists (R11, R34): all but `bus_valid`, the free
lock, `Q_IDLE` and `dir_mode`, which DESTROY leaves as it stands (R182). -/
structure Leftover where
  lineId : Nat
  breakDur : Nat
  markDur : Nat
  lockOwner : Nat
  txIdx : Nat
  txUnit : Fin 10
  txPar : Bool
  decState : DecState
  acc : BitVec 7
  rxPar : Bool
  rxPulseIdx : Nat
  rxUnitsLeft : Fin 10
  rxLevel : Level
  reqId : Nat
  cmdLen : Nat
  requireCrc : Bool
  timeout : Nat
  rspCap : Nat
  status : Status
  rspLen : Nat
  srqLen : Nat
  tRem : Nat
  seconds : Nat
  crc : Word16
  cmd : List Byte
  rsp : List Byte
  srq : List Byte
  txq : List Pulse
  rxq : List Pulse
  deriving DecidableEq, Repr, Inhabited

/-- What those registers and buffers hold after a DESTROY: "nothing survives a DESTROY" (R253). -/
opaque Config.freeLeftover : Nat → Leftover

/-- The byte a read finds at an index where a buffer holds no valid one (R31 lets no operation read it) or has no element
(R40), by the draw and the index. -/
opaque Config.freeByte : Nat → Nat → Byte

/-- The character a second phase's line is compared with where `CMD` holds no first one (R160). -/
opaque Config.freeFirst : Nat → Byte

/-- The pulse DECODE finds at an index past the pulses of `RXQ` (R105 gives `P[0..n-1]`), by the draw and the index. -/
opaque Config.freePulse : Nat → Nat → Pulse

/-- Whether the environment acknowledges a direction request the script does not answer (R191). -/
opaque Config.freeSetDirOk : Nat → Bool

/-- Whether the environment acknowledges an emission the script does not answer (R189). -/
opaque Config.freeEmitOk : Nat → Bool

/-- What the environment answers to a capture the script does not answer (R190, U12). -/
opaque Config.freeCapture : Nat → Capture

/-- Which of the waiting requesters is granted the free lock (R184, U3), as an index into the waiters. -/
opaque Config.freeGrant : Nat → Nat

/-- Whether the host's allocation of a session succeeds (R202, R228). -/
opaque Config.freeAllocOk : Nat → Bool

/-- The value count a verb returns for a count field that is no decimal number (R208 states none). -/
opaque Config.freeCount : List Byte → Nat

/-- The ready-seconds a concurrent measurement returns for a field that is not three digits (R209 states none). -/
opaque Config.freeSeconds : List Byte → Nat

end Sys2Proof
end

