-- ==== Sys2Proof/Syntax.lean ====
section
/-! DEFINITION. The operations: one constructor of `Instr` per row of spec/opcode_table.json, in the table's order, with
the operands the row and its rule give. -/

namespace Sys2Proof

/-- A requester's request (R20, R183): the command bytes (whose number is `cmd_len`), `require_crc`, `timeout` in TT
and the capacity of the caller's response buffer. -/
structure Request where
  cmd : List Byte
  requireCrc : Bool
  timeout : Nat
  rspCap : Nat
  deriving DecidableEq, Repr, Inhabited

/-- `cmd_len` of a request: the length is the caller's, not found by scanning (R76). -/
abbrev Request.cmdLen (q : Request) : Nat := q.cmd.length

/-- The byte buffers (R30). -/
inductive Buf where
  | cmd
  | rsp
  | srq
  deriving DecidableEq, Repr, Inhabited

/-- The byte buffers DECODE can be given (R31, R105). -/
inductive Dst where
  | rsp
  | srq
  deriving DecidableEq, Repr, Inhabited

/-- What a verb of the host needs beside its own operands to issue its SEND (R200): the requester port the task owns,
the timeout it chose (`none` takes `TIMEOUT_DEFAULT`, R5) and the capacity of the buffer it supplies. -/
structure Via where
  requester : Nat
  timeout : Option Nat
  rspCap : Nat
  deriving DecidableEq, Repr, Inhabited

/-- The operations of the block (OP, FRAME, CRC3 and CMD rows) and the pseudo-operations of its host (HOST rows). -/
inductive Instr where
  /-- SEND (R145, R168): requester `r` asks for one transaction. -/
  | send (r : Nat) (req : Request)
  /-- VALID (R146). -/
  | valid (req : Request)
  /-- READLINE (R151) into `dst` of capacity `cap` under `budget` TT. -/
  | readline (dst : Dst) (cap budget : Nat)
  /-- CLASS (R71): the class of the command in `CMD`. -/
  | classify
  /-- ENCODE (R90): `CMD`, `cmd_len` and the timing profile into `TXQ`. -/
  | encode
  /-- PREAMBLE (R91). -/
  | preamble
  /-- FRAME (R92) of one byte. -/
  | frame (c : Byte)
  /-- DECODE (R105) of the first `n` pulses of `RXQ` into `dst` of capacity `cap`. -/
  | decode (n : Nat) (dst : Dst) (cap : Nat)
  /-- UNITS (R106) of a duration in PT. -/
  | units (d : Nat)
  /-- CRC16 (R130) of the first `m` bytes of a buffer. -/
  | crc16 (b : Buf) (m : Nat)
  /-- CRCENC (R133). -/
  | crcenc (v : Word16)
  /-- CRC3.k0 (R70): the first checksum character, `f` = `crc[15:12]`. -/
  | crc3k0 (f : BitVec 4)
  /-- CRC3.k1 (R70): the second checksum character, `f` = `crc[11:6]`. -/
  | crc3k1 (f : BitVec 6)
  /-- CRC3.k2 (R70): the third checksum character, `f` = `crc[5:0]`. -/
  | crc3k2 (f : BitVec 6)
  /-- VERIFY (R134) of `RSP` and `rsp_len`. -/
  | verify
  /-- CREATE (R180). -/
  | create (line brk mark : Nat)
  /-- DESTROY (R182). -/
  | destroy
  /-- LOCK (R184). -/
  | lock (r : Nat)
  /-- UNLOCK (R185). -/
  | unlock (r : Nat)
  /-- SETDIR (R186). -/
  | setdir (m : Dir)
  /-- ENV.EMIT (R189): `TXQ` on the line `line_id`. -/
  | envEmit
  /-- ENV.CAPTURE (R190) on the line `line_id` within `budget` TT. -/
  | envCapture (budget : Nat)
  /-- ENV.SETDIR (R191) on the line `line_id`. -/
  | envSetdir (m : Dir)
  /-- CMD.M (R72): start measurement. -/
  | cmdM
  /-- CMD.V (R72): start verification. -/
  | cmdV
  /-- CMD.H (R72): the high-volume variant; the row is present only if `'H'` is in `HV_SET`. -/
  | cmdH
  /-- CMD.C (R72): start concurrent measurement; the row is present only if `C_WAITS`. -/
  | cmdC
  /-- CMD.D (R72): read data. -/
  | cmdD
  /-- CMD.R (R72): read continuous. -/
  | cmdR
  /-- CMD.default (R72): any other second character. -/
  | cmdDefault (v : Byte)
  /-- NEWSESSION (R202). -/
  | newSession (via : Via) (addr : Byte)
  /-- ACK_ACTIVE (R203) on session `h`. -/
  | ackActive (via : Via) (h : Nat)
  /-- ADDRESS_QUERY (R204). -/
  | addressQuery (via : Via)
  /-- CHANGE_ADDRESS (R205): the new address is `b`. -/
  | changeAddress (via : Via) (h : Nat) (b : Byte)
  /-- READ_IDENTIFICATION (R207). -/
  | readIdentification (via : Via) (h : Nat)
  /-- START_MEASUREMENT (R208, R206): `crc` asks for the letter `C`, `idx` for an index. -/
  | startMeasurement (via : Via) (h : Nat) (crc : Bool) (idx : Option Nat)
  /-- START_CONCURRENT (R209, R206). -/
  | startConcurrent (via : Via) (h : Nat) (crc : Bool) (idx : Option Nat)
  /-- READ_DATA (R210): `check` asks for checksum verification. -/
  | readData (via : Via) (h : Nat) (idx : Nat) (check : Bool)
  /-- READ_CONTINUOUS (R210). -/
  | readContinuous (via : Via) (h : Nat) (idx : Nat) (check : Bool)
  /-- START_VERIFICATION (R211). -/
  | startVerification (via : Via) (h : Nat)
  /-- IDENTIFY_EXTENDED (R212): `cmd` is the vendor string. -/
  | identifyExtended (via : Via) (h : Nat) (cmd : List Byte)
  /-- RAW_EXTENDED (R212): `cmd` is the vendor string, `check` the `require_crc` the caller passes. -/
  | rawExtended (via : Via) (h : Nat) (cmd : List Byte) (check : Bool)
  deriving DecidableEq, Repr, Inhabited

end Sys2Proof
end

