-- ==== Sys2Proof/WellFormed.lean ====
section
/-! DEFINITION. What makes an operation well formed: the two restrictions the spec puts on operands that the operand types
do not already carry. -/

namespace Sys2Proof

/-- Why an operation is ill formed. -/
inductive IllFormed where
  /-- The default row does not match a second character that an earlier CMD row matches (R80). -/
  | verbOfAnotherRow
  /-- A capture is asked for with a budget of at least 1 TT (R190). -/
  | captureWithoutBudget
  deriving DecidableEq, Repr, Inhabited

/-- The second characters that have a CMD row of their own (R72, R80): `M`, `V`, `H`, `C`, `D`, `R`. -/
def verbsWithRow : List Byte := [0x4D#8, 0x56#8, 0x48#8, 0x43#8, 0x44#8, 0x52#8]

/-- The check an operation fails, if any. -/
def Instr.illFormed? (i : Instr) : Option IllFormed :=
  match i with
  | .cmdDefault v => if v ∈ verbsWithRow then some .verbOfAnotherRow else none
  | .envCapture budget => if budget = 0 then some .captureWithoutBudget else none
  | _ => none

/-- An operation is well formed when it fails no check. -/
abbrev Instr.WellFormed (i : Instr) : Prop := i.illFormed? = none

end Sys2Proof
end

