-- ==== Sys2Proof/Decode.lean ====
section
/-! DEFINITION. From the packets of the block's interface to operations, and back.

The spec gives bit patterns to the FRAME row (ten unit levels), to the three CRC3 rows and to the CMD rows (one
character each); the OP and HOST rows "have no bit pattern" (R80) and are presented at a transaction-level interface
(R183, D25).  A packet is the list of the natural-number fields of one such transaction, and its first field says how
the rest is read:

* `[0, nbits, w]`: a word of the table as a number, read without knowing where it stands;
* `1 :: row :: operands`: the operation of that row of the table (rows count from 0), operands in the row's order;
* `[2, k, b]`: character `k` of the three checksum characters (R70);
* `[3, b]`: the second character of a command (R71).

The fields of the second form are the model's own (notes/assumptions/2.md). -/

namespace Sys2Proof

/-- One transaction at the interface, field by field. -/
abbrev Packet := List Nat

/-- Why a packet is no operation. -/
inductive DecodeError where
  /-- The packet has no field, or its first field is none of the four forms. -/
  | unknownForm
  /-- The table gives no row this many bits. -/
  | unknownWidth
  /-- The word has bits above the row's width, or the field is no 8-bit character. -/
  | outOfRange
  /-- Unit 0 of a frame is not spacing, or unit 9 is not marking (R62). -/
  | badFraming
  /-- Unit 8 of a frame is not the parity of its data units (R64). -/
  | badParity
  /-- The character is not one the checksum position admits (R70). -/
  | badChecksumCharacter
  /-- There is no such row, or the row is not presented in this form. -/
  | unknownOperation
  /-- The operands are not the ones the row has. -/
  | badOperands
  deriving DecidableEq, Repr, Inhabited

/-! ## Fields -/

/-- A field that holds one bit. -/
def boolField (n : Nat) : Option Bool :=
  match n with
  | 0 => some false
  | 1 => some true
  | _ => none

/-- A field that holds one character. -/
def byteField (n : Nat) : Option Byte :=
  if n < 256 then some (BitVec.ofNat 8 n) else none

/-- Fields that hold a string of characters. -/
def bytesField : List Nat → Option (List Byte)
  | [] => some []
  | n :: ns =>
    match byteField n, bytesField ns with
    | some b, some bs => some (b :: bs)
    | _, _ => none

/-- A field that holds a natural number or nothing: 0 is nothing, `n + 1` is `n`. -/
def optionField (n : Nat) : Option Nat :=
  match n with
  | 0 => none
  | n + 1 => some n

/-- A field that holds a direction mode, by its code (R12). -/
def dirField (n : Nat) : Option Dir :=
  match n with
  | 0 => some .idle
  | 1 => some .transmit
  | 2 => some .receive
  | _ => none

/-- A field that names a byte buffer. -/
def bufField (n : Nat) : Option Buf :=
  match n with
  | 0 => some .cmd
  | 1 => some .rsp
  | 2 => some .srq
  | _ => none

/-- A field that names a destination of DECODE. -/
def dstField (n : Nat) : Option Dst :=
  match n with
  | 1 => some .rsp
  | 2 => some .srq
  | _ => none

/-! ## The rows with a bit pattern -/

/-- The row a character belongs to as the second character of a command (R71, R80): the exact rows in file order, then
the default row.  Whether the rows of `H` and `C` are present is decided when they run (`execCmdH`, `execCmdC`). -/
def decodeVerb (b : Byte) : Instr :=
  if b = 0x4D#8 then .cmdM
  else if b = 0x56#8 then .cmdV
  else if b = 0x48#8 then .cmdH
  else if b = 0x43#8 then .cmdC
  else if b = 0x44#8 then .cmdD
  else if b = 0x52#8 then .cmdR
  else .cmdDefault b

/-- The checksum character at position `k` (R70): `0100abcd` first, then `01abcdef` twice. -/
def decodeChecksumChar (k : Nat) (b : Byte) : Except DecodeError Instr :=
  match k with
  | 0 => if b.extractLsb' 4 4 = 0b0100#4 then .ok (.crc3k0 (b.extractLsb' 0 4)) else .error .badChecksumCharacter
  | 1 => if b.extractLsb' 6 2 = 0b01#2 then .ok (.crc3k1 (b.extractLsb' 0 6)) else .error .badChecksumCharacter
  | 2 => if b.extractLsb' 6 2 = 0b01#2 then .ok (.crc3k2 (b.extractLsb' 0 6)) else .error .badChecksumCharacter
  | _ => .error .unknownOperation

/-- The ten unit levels of a frame as a number (R62, R80): unit 0 is bit 9, unit 9 is bit 0, spacing is 1. -/
def frameWord (c : Byte) : BitVec 10 :=
  let d : BitVec 7 := ~~~(c.setWidth 7)
  let p := d.getLsbD 0 ^^ d.getLsbD 1 ^^ d.getLsbD 2 ^^ d.getLsbD 3 ^^ d.getLsbD 4 ^^ d.getLsbD 5 ^^ d.getLsbD 6
  1#1 ++ BitVec.ofBool (d.getLsbD 0) ++ BitVec.ofBool (d.getLsbD 1) ++ BitVec.ofBool (d.getLsbD 2)
    ++ BitVec.ofBool (d.getLsbD 3) ++ BitVec.ofBool (d.getLsbD 4) ++ BitVec.ofBool (d.getLsbD 5)
    ++ BitVec.ofBool (d.getLsbD 6) ++ BitVec.ofBool p ++ 0#1

/-- The character of the data units of a frame word (R62, R63): data bit `k` is the complement of unit `k + 1`. -/
def frameChar (w : BitVec 10) : Byte :=
  0#1 ++ BitVec.ofBool (!w.getLsbD 2) ++ BitVec.ofBool (!w.getLsbD 3) ++ BitVec.ofBool (!w.getLsbD 4)
    ++ BitVec.ofBool (!w.getLsbD 5) ++ BitVec.ofBool (!w.getLsbD 6) ++ BitVec.ofBool (!w.getLsbD 7)
    ++ BitVec.ofBool (!w.getLsbD 8)

/-- A frame from its ten unit levels: start spacing, stop marking, parity as R64 has it. -/
def decodeFrameWord (w : Nat) : Except DecodeError Instr :=
  if w < 1024 then
    let v := BitVec.ofNat 10 w
    if v.getLsbD 9 && !v.getLsbD 0 then
      if frameWord (frameChar v) = v then .ok (.frame (frameChar v)) else .error .badParity
    else .error .badFraming
  else .error .outOfRange

/-- A character read without knowing where it stands: a CMD row that matches it exactly, else the checksum character
it can be (`k0` before `k1`; `k2` has `k1`'s pattern), else the default CMD row (notes/assumptions/3.md). -/
def decodeLoneChar (b : Byte) : Instr :=
  if b ∈ verbsWithRow then decodeVerb b
  else if b.extractLsb' 4 4 = 0b0100#4 then .crc3k0 (b.extractLsb' 0 4)
  else if b.extractLsb' 6 2 = 0b01#2 then .crc3k1 (b.extractLsb' 0 6)
  else .cmdDefault b

/-- A word of the table with `nbits` bits: 8 for a character, 10 (or the 2 whole bytes that hold them) for a frame. -/
def decodeWord (nbits w : Nat) : Except DecodeError Instr :=
  match nbits with
  | 8 => if w < 256 then .ok (decodeLoneChar (BitVec.ofNat 8 w)) else .error .outOfRange
  | 10 => decodeFrameWord w
  | 16 => decodeFrameWord w
  | _ => .error .unknownWidth

/-! ## The rows without a bit pattern -/

/-- The operands of a SEND or a VALID after the requester: `require_crc`, `timeout`, `rsp_cap`, the command bytes. -/
def requestFields (fs : List Nat) : Option Request :=
  match fs with
  | crc :: timeout :: cap :: cmd =>
    match boolField crc, bytesField cmd with
    | some crc, some cmd => some { cmd := cmd, requireCrc := crc, timeout := timeout, rspCap := cap }
    | _, _ => none
  | _ => none

/-- The operation of a row of the table from its operands. -/
def operationFields (row : Nat) (fs : List Nat) : Option Instr :=
  match row with
  | 0 =>
    match fs with
    | r :: req => (requestFields req).map (.send r)
    | _ => none
  | 1 => (requestFields fs).map .valid
  | 2 =>
    match fs with
    | [d, cap, budget] => (dstField d).map (fun d => .readline d cap budget)
    | _ => none
  | 3 => if fs = [] then some .classify else none
  | 4 => if fs = [] then some .encode else none
  | 5 => if fs = [] then some .preamble else none
  | 6 =>
    match fs with
    | [c] => (byteField c).map .frame
    | _ => none
  | 7 =>
    match fs with
    | [n, d, cap] => (dstField d).map (fun d => .decode n d cap)
    | _ => none
  | 8 =>
    match fs with
    | [d] => some (.units d)
    | _ => none
  | 9 =>
    match fs with
    | [b, m] => (bufField b).map (fun b => .crc16 b m)
    | _ => none
  | 10 =>
    match fs with
    | [v] => if v < 65536 then some (.crcenc (BitVec.ofNat 16 v)) else none
    | _ => none
  | 14 => if fs = [] then some .verify else none
  | 15 =>
    match fs with
    | [line, brk, mark] => some (.create line brk mark)
    | _ => none
  | 16 => if fs = [] then some .destroy else none
  | 17 =>
    match fs with
    | [r] => some (.lock r)
    | _ => none
  | 18 =>
    match fs with
    | [r] => some (.unlock r)
    | _ => none
  | 19 =>
    match fs with
    | [m] => (dirField m).map .setdir
    | _ => none
  | 20 => if fs = [] then some .envEmit else none
  | 21 =>
    match fs with
    | [budget] => some (.envCapture budget)
    | _ => none
  | 22 =>
    match fs with
    | [m] => (dirField m).map .envSetdir
    | _ => none
  | _ => none

/-- The pseudo-operation of a HOST row from its operands after the three of `Via`. -/
def verbFields (row : Nat) (via : Via) (fs : List Nat) : Option Instr :=
  match row, fs with
  | 30, [a] => (byteField a).map (.newSession via)
  | 31, [h] => some (.ackActive via h)
  | 32, [] => some (.addressQuery via)
  | 33, [h, b] => (byteField b).map (.changeAddress via h)
  | 34, [h] => some (.readIdentification via h)
  | 35, [h, c, x] => (boolField c).map (fun c => .startMeasurement via h c (optionField x))
  | 36, [h, c, x] => (boolField c).map (fun c => .startConcurrent via h c (optionField x))
  | 37, [h, x, c] => (boolField c).map (.readData via h x)
  | 38, [h, x, c] => (boolField c).map (.readContinuous via h x)
  | 39, [h] => some (.startVerification via h)
  | 40, h :: cmd => (bytesField cmd).map (.identifyExtended via h)
  | 41, h :: c :: cmd =>
    match boolField c, bytesField cmd with
    | some c, some cmd => some (.rawExtended via h cmd c)
    | _, _ => none
  | _, _ => none

/-- The operation of a row of the table: rows 0 to 22 are the block's, rows 30 to 41 the host's. -/
def decodeOperation (row : Nat) (fs : List Nat) : Except DecodeError Instr :=
  if row < 30 then
    match operationFields row fs with
    | some i => .ok i
    | none => .error .badOperands
  else if row < 42 then
    match fs with
    | r :: t :: cap :: fs =>
      match verbFields row { requester := r, timeout := optionField t, rspCap := cap } fs with
      | some i => .ok i
      | none => .error .badOperands
    | _ => .error .badOperands
  else .error .unknownOperation

/-! ## The decoder and the encoder -/

/-- The operation a packet presents, or the reason it presents none.  Total on every packet. -/
def decode (p : Packet) : Except DecodeError Instr :=
  match p with
  | [0, nbits, w] => decodeWord nbits w
  | 1 :: row :: fs => decodeOperation row fs
  | [2, k, b] =>
    match byteField b with
    | some b => decodeChecksumChar k b
    | none => .error .outOfRange
  | [3, b] =>
    match byteField b with
    | some b => .ok (decodeVerb b)
    | none => .error .outOfRange
  | _ => .error .unknownForm

/-- The instruction the decoder reads from a word of the table, the word being given as a number. -/
def decodeTableWord (nbits w : Nat) : Option Instr :=
  match decode [0, nbits, w] with
  | .ok i => some i
  | .error _ => none

/-- The code of a direction mode (R12). -/
def Dir.code (m : Dir) : Nat :=
  match m with
  | .idle => 0
  | .transmit => 1
  | .receive => 2

/-- The field of a byte buffer. -/
def Buf.code (b : Buf) : Nat :=
  match b with
  | .cmd => 0
  | .rsp => 1
  | .srq => 2

/-- The field of a destination of DECODE. -/
def Dst.code (d : Dst) : Nat :=
  match d with
  | .rsp => 1
  | .srq => 2

/-- The field of a natural number or nothing. -/
def optionCode (o : Option Nat) : Nat :=
  match o with
  | none => 0
  | some n => n + 1

/-- The fields of a string of characters. -/
def bytesCode (bs : List Byte) : List Nat := bs.map BitVec.toNat

/-- The fields of a request. -/
def Request.code (q : Request) : List Nat :=
  q.requireCrc.toNat :: q.timeout :: q.rspCap :: bytesCode q.cmd

/-- A HOST row's packet. -/
def verbPacket (row : Nat) (via : Via) (fs : List Nat) : Packet :=
  1 :: row :: via.requester :: optionCode via.timeout :: via.rspCap :: fs

/-- The packet of an operation: the bit pattern of its row where the table gives one (with the place it stands in,
where that decides the row), its row and operands otherwise.  A frame of a byte with bit 7 set is presented by its
row, since the ten units hold seven bits. -/
def encode (i : Instr) : Packet :=
  match i with
  | .send r q => 1 :: 0 :: r :: q.code
  | .valid q => 1 :: 1 :: q.code
  | .readline d cap budget => [1, 2, d.code, cap, budget]
  | .classify => [1, 3]
  | .encode => [1, 4]
  | .preamble => [1, 5]
  | .frame c => if c.msb then [1, 6, c.toNat] else [0, 10, (frameWord c).toNat]
  | .decode n d cap => [1, 7, n, d.code, cap]
  | .units d => [1, 8, d]
  | .crc16 b m => [1, 9, b.code, m]
  | .crcenc v => [1, 10, v.toNat]
  | .crc3k0 f => [2, 0, (0b0100#4 ++ f).toNat]
  | .crc3k1 f => [2, 1, (0b01#2 ++ f).toNat]
  | .crc3k2 f => [2, 2, (0b01#2 ++ f).toNat]
  | .verify => [1, 14]
  | .create line brk mark => [1, 15, line, brk, mark]
  | .destroy => [1, 16]
  | .lock r => [1, 17, r]
  | .unlock r => [1, 18, r]
  | .setdir m => [1, 19, m.code]
  | .envEmit => [1, 20]
  | .envCapture budget => [1, 21, budget]
  | .envSetdir m => [1, 22, m.code]
  | .cmdM => [3, 0x4D]
  | .cmdV => [3, 0x56]
  | .cmdH => [3, 0x48]
  | .cmdC => [3, 0x43]
  | .cmdD => [3, 0x44]
  | .cmdR => [3, 0x52]
  | .cmdDefault v => [3, v.toNat]
  | .newSession via a => verbPacket 30 via [a.toNat]
  | .ackActive via h => verbPacket 31 via [h]
  | .addressQuery via => verbPacket 32 via []
  | .changeAddress via h b => verbPacket 33 via [h, b.toNat]
  | .readIdentification via h => verbPacket 34 via [h]
  | .startMeasurement via h c x => verbPacket 35 via [h, c.toNat, optionCode x]
  | .startConcurrent via h c x => verbPacket 36 via [h, c.toNat, optionCode x]
  | .readData via h x c => verbPacket 37 via [h, x, c.toNat]
  | .readContinuous via h x c => verbPacket 38 via [h, x, c.toNat]
  | .startVerification via h => verbPacket 39 via [h]
  | .identifyExtended via h cmd => verbPacket 40 via (h :: bytesCode cmd)
  | .rawExtended via h cmd c => verbPacket 41 via (h :: c.toNat :: bytesCode cmd)

end Sys2Proof
end

