-- ==== Sys2Proof/Machine/State.lean ====
section
/-! DEFINITION. The state of the block and of its host: every register and buffer of 10_state.md, the requester ports, the
host's sessions (R35, R200), and, marked as the model's own, the interface's pending moves, the environment's scripted
answers, a counter for free values, the value the last operation returned and the record of requests to the
environment.  All of it is plain data. -/

namespace Sys2Proof.Machine

/-- Why the machine stops: it never does.  "The block has no fault that halts it: every error is a returned code, after
which the block is ready for the next SEND" (R231). -/
inductive Fault where
  deriving DecidableEq, Repr

/-- Why a move is given no meaning.  Every one is safe: the model stops where the spec gives the move none. -/
inductive Refusal where
  /-- Raised by `exec` alone, for an operation that has no meaning yet.  Safe. -/
  | notModelled (mnemonic : String)
  /-- Raised by `step`: the packet presents no operation.  Safe. -/
  | undecodable (e : DecodeError)
  /-- Raised by `step`: the operation fails a check of `Instr.illFormed?`.  Safe. -/
  | illFormed (e : IllFormed)
  /-- Raised by SEND, LOCK, UNLOCK and the host's verbs: the block has no such requester port (R183: it has `N_REQ`).
  Safe. -/
  | noSuchRequester
  /-- Raised by SEND, LOCK and the host's verbs: the requester has a call outstanding ("A requester has at most one
  SEND outstanding", R183; "A requester cannot issue a SEND from inside its own SEND", R238).  Safe. -/
  | requesterBusy
  /-- Raised by the operations that only the sequencer invokes, when they are invoked from outside while it runs a
  transaction ("no action of one transaction lies between two actions of another", R52).  Safe. -/
  | unitsInUse
  /-- Raised by SETDIR, the three requests to the environment, and the operations that capture, when the lock is free
  ("mutated only while the lock is held", R186; "only the lock owner's transaction may touch the line", R247).  Safe. -/
  | lockNotHeld
  /-- Raised by UNLOCK: the requester does not own the lock, or its transaction has not ended ("Only the owner unlocks,
  only at the end of its transaction", R185).  Safe. -/
  | notLockOwner
  /-- Raised by UNLOCK of a bare holder that has not returned the line to `IDLE` ("On every path that took the lock [...]
  the sequencer performs `SETDIR(IDLE)` before unlocking", R163; R36 (3)).  Safe. -/
  | lineNotRestored
  /-- Raised by ENV.EMIT outside `TRANSMIT` (R189) and by ENV.CAPTURE, and the operations that capture, outside
  `RECEIVE` (R190): "The block issues it only in" that mode.  Safe. -/
  | wrongDirection
  /-- Raised by DESTROY while the lock is held or a requester waits: "A model refuses such a DESTROY (gives it no
  meaning)" (R182, U7).  Safe. -/
  | busInUse
  /-- Raised by the host's verbs, and by the destruction of a session, on a handle that no creation returned ("no
  partially-initialized session is ever returned", R202) or whose session was destroyed.  Safe. -/
  | noSuchSession
  /-- Raised by the host's verbs on a session another task is using ("refuse if the host is modelled", U16), and by its
  destruction while a verb on it is outstanding.  Safe. -/
  | sessionInUse
  deriving DecidableEq, Repr, Inhabited

/-- A byte buffer's contents (R30, R40): its elements by index, rising, none listed that reads as an unlisted one
does. -/
abbrev Memory := List Host.Cell

/-- The timing profile (R11), less `tp.bit_width`, which is hard-wired (`Config.bitWidth`). -/
structure Timing where
  breakDur : Nat
  markDur : Nat
  deriving DecidableEq, Repr, Inhabited

/-- `seq_state` (R19): `Q_IDLE`, `Q_DIR_TX`, `Q_EMIT`, `Q_DIR_RX`, `Q_RX1`, `Q_RX2`, `Q_RESTORE`. -/
inductive SeqState where
  | idle
  | dirTx
  | emit
  | dirRx
  | rx1
  | rx2
  | restore
  deriving DecidableEq, Repr, Inhabited

/-- The SDI-12 version in a cached identification (R207); `none` before any identification was read. -/
inductive SdiVersion where
  | none
  | v13
  | v14
  | unknown
  deriving DecidableEq, Repr, Inhabited

/-- A session's cached identification (R35, R207). -/
structure Ident where
  version : SdiVersion
  vendor : List Byte
  model : List Byte
  modelVersion : List Byte
  optionalField : List Byte
  deriving DecidableEq, Repr, Inhabited

/-- A cached identification that is "initially empty" (R35). -/
def Ident.empty : Ident :=
  { version := .none, vendor := [], model := [], modelVersion := [], optionalField := [] }

/-- A Device Session (R35, R200); its reference to the Bus is the one block of the model. -/
structure Session where
  addr : Byte
  ident : Ident
  deriving DecidableEq, Repr, Inhabited

/-- The host's verb that waits for the SEND it issued (R200); `h` is a session's handle. -/
inductive Verb where
  | creation (query : Bool) (addr : Byte)
  | acknowledge (h : Nat)
  | addressQuery
  | changeAddress (h : Nat) (b : Byte)
  | identification (h : Nat)
  | measurement (h : Nat)
  | concurrent (h : Nat)
  | payload (h : Nat)
  | passthrough (h : Nat)
  deriving DecidableEq, Repr, Inhabited

/-- What a verb returns beside its status. -/
inductive VerbValue where
  | nothing
  | session (h : Nat)
  | address (a : Byte)
  | count (n : Nat)
  | countAfter (n seconds : Nat)
  | bytes (bs : List Byte)
  deriving DecidableEq, Repr, Inhabited

/-- What a requester is doing (R13, R183): nothing, a SEND that waits for or holds the lock, or a bare LOCK that waits
for it or holds it. -/
inductive Activity where
  | free
  | sending
  | locking
  | holding
  deriving DecidableEq, Repr, Inhabited

/-- A requester's port (R183): its activity, its request record `req[r]` (R20), its response buffer, the result last
delivered to it, the verb that waits for the SEND and the verb's own result. -/
structure Port where
  act : Activity
  req : Request
  rsp : Memory
  result : Option (Status × Nat)
  verb : Option Verb
  verbResult : Option (Status × VerbValue)
  deriving DecidableEq, Repr, Inhabited

/-- A port before any call. -/
def Port.reset : Port :=
  { act := .free, req := { cmd := [], requireCrc := false, timeout := 0, rspCap := 0 }, rsp := [], result := none,
    verb := none, verbResult := none }

/-- The model's own: which agent moves next (R10).  `call p`: a task, or the host, presents the packet `p`; `turn`: the
sequencer takes a step; `endSession h`: the host destroys session `h` ("destroy device session", R183, R202), for which
the operation table has no row (notes/assumptions/41.md). -/
inductive Input where
  | call (p : Packet)
  | turn
  | endSession (h : Nat)
  deriving DecidableEq, Repr, Inhabited

/-- The model's own: what the environment and the other open choices will answer, in order (R33).  A request for which
nothing is left is answered by a free value. -/
structure Script where
  setDirs : List Bool
  emits : List Bool
  captures : List Capture
  grants : List Nat
  allocs : List Bool
  deriving DecidableEq, Repr, Inhabited

/-- The model's own: one request to the environment and its answer (R189 to R191). -/
inductive EnvEvent where
  | setDir (line : Nat) (m : Dir) (ok : Bool)
  | emit (line : Nat) (pulses : List Pulse) (ok : Bool)
  | capture (line : Nat) (budget : Nat) (answer : Capture)
  deriving DecidableEq, Repr, Inhabited

/-- The model's own: the value the operation last called returned (R8: codec, checksum and classification are
functions). -/
inductive Ret where
  | nothing
  | status (st : Status)
  | bool (b : Bool)
  | cls (c : CmdClass)
  | nat (n : Nat)
  | word (v : Word16)
  | chars (cs : List Byte)
  | pulses (ps : List Pulse)
  | line (st : Status) (len : Nat)
  | ack (ok : Bool)
  | capture (c : Capture)
  deriving DecidableEq, Repr, Inhabited

/-- The state (R10 to R36). -/
structure State where
  /-- The parameters (R5, R33); no step changes them. -/
  cfg : Params
  /-- `bus_valid` (R11). -/
  busValid : Bool
  /-- `line_id` (R11). -/
  lineId : Nat
  /-- `tp` (R11). -/
  tp : Timing
  /-- `dir_mode` (R12). -/
  dirMode : Dir
  /-- The model's own: the mode the last SETDIR asked for, if it failed and left `dir_mode` unknown (R12, R36 (3)). -/
  dirFailed : Option Dir
  /-- `lock_held` (R13). -/
  lockHeld : Bool
  /-- `lock_owner` (R13), meaningful only while the lock is held. -/
  lockOwner : Nat
  /-- `lock_waiters` (R13): a set, listed rising. -/
  lockWaiters : List Nat
  /-- `tx_idx` (R14). -/
  txIdx : Nat
  /-- `tx_unit` (R14). -/
  txUnit : Fin 10
  /-- `tx_par` (R14). -/
  txPar : Bool
  /-- `dec_state` (R15). -/
  decState : DecState
  /-- `acc` (R16). -/
  acc : BitVec 7
  /-- `rx_par` (R17). -/
  rxPar : Bool
  /-- `rx_pulse_idx` (R18). -/
  rxPulseIdx : Nat
  /-- `rx_units_left` (R18). -/
  rxUnitsLeft : Fin 10
  /-- `rx_level` (R18). -/
  rxLevel : Level
  /-- `seq_state` (R19). -/
  seqState : SeqState
  /-- `req_id` (R20). -/
  reqId : Nat
  /-- `cmd_len` (R20). -/
  cmdLen : Nat
  /-- `require_crc` (R20). -/
  requireCrc : Bool
  /-- `timeout` (R20), in TT. -/
  timeout : Nat
  /-- `rsp_cap` (R20). -/
  rspCap : Nat
  /-- `status` (R21). -/
  status : Status
  /-- `rsp_len` (R22). -/
  rspLen : Nat
  /-- `srq_len` (R22). -/
  srqLen : Nat
  /-- `t_rem` (R23), in TT. -/
  tRem : Nat
  /-- `seconds` (R23). -/
  seconds : Nat
  /-- `crc` (R24). -/
  crc : Word16
  /-- `CMD` (R30). -/
  cmd : Memory
  /-- `RSP` (R30) of the transaction in progress: the caller's buffer while its SEND holds the lock. -/
  rsp : Memory
  /-- `SRQ` (R30). -/
  srq : Memory
  /-- `TXQ` (R30). -/
  txq : List Pulse
  /-- `RXQ` (R30). -/
  rxq : List Pulse
  /-- The `N_REQ` requester ports (R183); port `r` is entry `r`. -/
  ports : List Port
  /-- The host's sessions (R200), by handle; `none` where the session was destroyed. -/
  sessions : List (Option Session)
  /-- The model's own: the moves still to come. -/
  inputs : List Input
  /-- The model's own: the answers still to come. -/
  script : Script
  /-- The model's own: how many free values have been drawn. -/
  draws : Nat
  /-- The model's own: what the last operation called returned. -/
  ret : Ret
  /-- The model's own: the requests made to the environment, the latest first. -/
  envLog : List EnvEvent
  deriving DecidableEq, Repr, Inhabited

/-- The machine after power-on (R34, R250): no Bus, the lock free, the sequencer in `Q_IDLE`.  Every register for which
the spec says "unspecified" holds the value notes/assumptions/1.md names, and the parameters are those under which the
spec's vectors were computed (notes/assumptions/4.md). -/
def State.reset : State :=
  { cfg := Params.vectors, busValid := false, lineId := 0, tp := { breakDur := 0, markDur := 0 }, dirMode := .idle,
    dirFailed := none, lockHeld := false, lockOwner := 0, lockWaiters := [], txIdx := 0, txUnit := 0, txPar := false,
    decState := .waitStart, acc := 0#7, rxPar := false, rxPulseIdx := 0, rxUnitsLeft := 0, rxLevel := .marking,
    seqState := .idle, reqId := 0, cmdLen := 0, requireCrc := false, timeout := 0, rspCap := 0, status := .ok,
    rspLen := 0, srqLen := 0, tRem := 0, seconds := 0, crc := 0#16, cmd := [], rsp := [], srq := [], txq := [],
    rxq := [], ports := [Port.reset, Port.reset], sessions := [], inputs := [],
    script := { setDirs := [], emits := [], captures := [], grants := [], allocs := [] }, draws := 0, ret := .nothing,
    envLog := [] }

end Sys2Proof.Machine
end

