-- ==== Sys2Proof/Machine/Flags.lean ====
section
/-! DEFINITION. Levels as bits and the two running parity flags (R25): `tx_par` of the encoder and `rx_par` of the decoder. -/

namespace Sys2Proof.Machine

/-- The level bit (R7): `S` = 1, `M` = 0. -/
def levelBit (l : Level) : Bool :=
  match l with
  | .spacing => true
  | .marking => false

/-- The level a flag is sent at (R64, D1): true at spacing, false at marking. -/
def flagLevel (b : Bool) : Level := if b then .spacing else .marking

/-- The level of a data unit (R63): a data bit 1 is marking, a data bit 0 is spacing. -/
def dataLevel (bit : Bool) : Level := if bit then .marking else .spacing

/-- One data unit's effect on `tx_par` (R92): a data bit 0 complements it. -/
def txParStep (par bit : Bool) : Bool := if bit then par else !par

/-- `tx_par` when the parity unit of `c` is emitted (R64, R92): from false, over the seven data bits, lowest first. -/
def txParity (c : Byte) : Bool := (List.range 7).foldl (fun par k => txParStep par (c.getLsbD k)) false

/-- One data unit's effect on `rx_par` (R111): a spacing unit complements it. -/
def rxParStep (par : Bool) (l : Level) : Bool :=
  match l with
  | .spacing => !par
  | .marking => par

end Sys2Proof.Machine
end

