-- ==== Sys2Proof/Machine/Operands.lean ====
section
/-! DEFINITION. The characters, fields and command notation of 30_encoding.md: what the block reads from a command and from a
line, and what the host's verbs write into a command. -/

namespace Sys2Proof.Machine

/-! ## Characters (R7) -/

/-- `NUL`, the terminator (R114). -/
def chNul : Byte := 0x00#8
/-- `LF`. -/
def chLf : Byte := 0x0A#8
/-- `CR`. -/
def chCr : Byte := 0x0D#8
/-- `'!'`, the command terminator (R61). -/
def chBang : Byte := 0x21#8
/-- `'0'`. -/
def chZero : Byte := 0x30#8
/-- `'?'`, the query address (R61). -/
def chQuery : Byte := 0x3F#8
/-- `'A'`. -/
def chA : Byte := 0x41#8
/-- `'C'`. -/
def chC : Byte := 0x43#8
/-- `'D'`. -/
def chD : Byte := 0x44#8
/-- `'I'`. -/
def chI : Byte := 0x49#8
/-- `'M'`. -/
def chM : Byte := 0x4D#8
/-- `'R'`. -/
def chR : Byte := 0x52#8
/-- `'V'`. -/
def chV : Byte := 0x56#8

/-- A decimal digit. -/
def isDigit (b : Byte) : Bool := decide (0x30 ≤ b.toNat ∧ b.toNat ≤ 0x39)

/-- The value of a decimal digit. -/
def digitValue (b : Byte) : Nat := b.toNat - 0x30

/-- The `addr` set (R61): a digit, a letter or `'?'`. -/
def isAddress (b : Byte) : Bool :=
  isDigit b || decide (0x41 ≤ b.toNat ∧ b.toNat ≤ 0x5A) || decide (0x61 ≤ b.toNat ∧ b.toNat ≤ 0x7A)
    || decide (b = chQuery)

/-! ## What the block reads from a command -/

/-- VALID (R146), all five conjuncts: a Bus, a buffer, the length bounds, the first and the last character. -/
def validRequest (busValid : Bool) (cfg : Params) (q : Request) : Bool :=
  busValid && decide (1 ≤ q.rspCap) && decide (2 ≤ q.cmdLen ∧ q.cmdLen ≤ cfg.cmdMax)
    && isAddress (q.cmd.getD 0 chNul) && decide (q.cmd.getD (q.cmdLen - 1) chNul = chBang)

/-- Class (R71) of the second character of a command. -/
def classOf (cfg : Params) (v : Byte) : CmdClass :=
  if v = chM ∨ v = chV ∨ v ∈ cfg.hvSet then .meas
  else if cfg.cWaits = true ∧ v = chC then .meas
  else if v = chD ∨ v = chR then .data
  else .other

/-! ## What is read from a line -/

/-- The seconds of three characters (R69), if each is a decimal digit. -/
def secondsOf (a b c : Byte) : Option Nat :=
  if isDigit a && isDigit b && isDigit c then some (100 * digitValue a + 10 * digitValue b + digitValue c) else none

/-- A decimal number, most significant digit first (R42), if the characters are one or more digits. -/
def decimalOf (bs : List Byte) : Option Nat :=
  if bs ≠ [] ∧ bs.all isDigit then some (bs.foldl (fun n b => 10 * n + digitValue b) 0) else none

/-- The value count (R208): the decimal number from index 4 on.  The spec states no count for a field that is no
decimal number, so there it is a free value (notes/assumptions/12.md). -/
def countOf (line : List Byte) : Nat :=
  (decimalOf (line.drop 4)).getD (Config.freeCount (line.drop 4))

/-- The ready-seconds the concurrent verb returns (R209), from indices 1 to 3; a free value where they are not three
digits (notes/assumptions/12.md). -/
def readySecondsOf (line : List Byte) : Nat :=
  match line with
  | _ :: a :: b :: c :: _ => (secondsOf a b c).getD (Config.freeSeconds [a, b, c])
  | _ => Config.freeSeconds (line.drop 1)

/-- The version two digits stand for (R207): 13 is v1.3, 14 is v1.4, anything else is unknown. -/
def versionOf (digits : List Byte) : SdiVersion :=
  if digits = [0x31#8, 0x33#8] then .v13
  else if digits = [0x31#8, 0x34#8] then .v14
  else .unknown

/-- The identification of a response line (R207), if the line holds the fixed fields (indices 0 to 19). -/
def identOf (line : List Byte) : Option Ident :=
  if line.length < 20 then none
  else some { version := versionOf ((line.drop 1).take 2), vendor := (line.drop 3).take 8,
              model := (line.drop 11).take 6, modelVersion := (line.drop 17).take 3,
              optionalField := line.drop 20 }

/-! ## The command notation (R77) -/

/-- The digit of an index. -/
def indexDigit (x : Nat) : Byte := BitVec.ofNat 8 (0x30 + x)

/-- `[x]` (R206): nothing, or the digit.  N19 leaves open whether index 0 is written (notes/assumptions/13.md). -/
def indexText (cfg : Params) (idx : Option Nat) : List Byte :=
  match idx with
  | none => []
  | some 0 => if cfg.idxZeroDigit then [chZero] else []
  | some x => [indexDigit x]

/-- `[C]` (R206): the letter if a checksum is requested. -/
def crcText (crc : Bool) : List Byte := if crc then [chC] else []

/-- `aM[C][x]!`, `aC[C][x]!` and `aV!` (R206, R208, R209, R211): the letter, the optional parts, `!`. -/
def measureText (cfg : Params) (letter : Byte) (crc : Bool) (idx : Option Nat) (a : Byte) : List Byte :=
  a :: letter :: (crcText crc ++ indexText cfg idx ++ [chBang])

/-- `aDx!` and `aRx!` (R210): the digit is always present (R206). -/
def readText (letter : Byte) (idx : Nat) (a : Byte) : List Byte := [a, letter, indexDigit idx, chBang]

/-- `a!` (R203) and `?!` (R204). -/
def ackText (a : Byte) : List Byte := [a, chBang]

/-- `aAb!` (R205). -/
def changeText (b a : Byte) : List Byte := [a, chA, b, chBang]

/-- `aI!` (R207). -/
def identText (a : Byte) : List Byte := [a, chI, chBang]

/-- `aI<cmd>!` (R212). -/
def identExtText (cmd : List Byte) (a : Byte) : List Byte := a :: chI :: (cmd ++ [chBang])

/-- `a<cmd>!` (R212). -/
def rawText (cmd : List Byte) (a : Byte) : List Byte := a :: (cmd ++ [chBang])

end Sys2Proof.Machine
end

