-- ==== Sys2Proof/Machine/Ops.lean ====
section
/-! DEFINITION. The named operations: reading and writing a byte buffer, the requests to the environment, direction control,
the lock, the error exit of a transaction (the block's "trap entry", R236) and its end (R163, R164). -/

namespace Sys2Proof.Machine

/-! ## Byte buffers (R30, R40) -/

/-- What an element nothing has written reads as (notes/assumptions/5.md). -/
def Memory.unlisted : Byte := 0x00#8

/-- `MemRead(B + i, 1)` (R7). -/
def Memory.read : Memory → Nat → Byte
  | [], _ => Memory.unlisted
  | (a, b) :: m, i => if a = i then b else Memory.read m i

/-- A cell put in its place among rising indices. -/
def Memory.insert (i : Nat) (v : Byte) : Memory → Memory
  | [] => [(i, v)]
  | (a, b) :: m => if i < a then (i, v) :: (a, b) :: m else (a, b) :: Memory.insert i v m

/-- The buffer with nothing listed at an index. -/
def Memory.erase (m : Memory) (i : Nat) : Memory := m.filter (fun c => c.1 ≠ i)

/-- `MemWrite(B + i, 1, v)` (R7).  Writing what an unlisted element reads as unlists the element. -/
def Memory.write (m : Memory) (i : Nat) (v : Byte) : Memory :=
  if v = Memory.unlisted then Memory.erase m i else Memory.insert i v (Memory.erase m i)

/-- A string written from an index on. -/
def Memory.writeFrom (m : Memory) (i : Nat) : List Byte → Memory
  | [] => m
  | v :: vs => Memory.writeFrom (Memory.write m i v) (i + 1) vs

/-- The `n` elements from index `i` on. -/
def Memory.slice (m : Memory) (i n : Nat) : List Byte := (List.range n).map (fun k => Memory.read m (i + k))

/-- The canonical form: indices strictly rising, no element listed that reads as an unlisted one. -/
abbrev Memory.wf (m : Memory) : Prop :=
  m.Pairwise (fun a b => a.1 < b.1) ∧ ∀ c ∈ m, c.2 ≠ Memory.unlisted

/-- A byte buffer of the state. -/
def State.buf (s : State) (b : Buf) : Memory :=
  match b with
  | .cmd => s.cmd
  | .rsp => s.rsp
  | .srq => s.srq

/-- The buffer DECODE is given. -/
def dstBuf (d : Dst) : Buf :=
  match d with
  | .rsp => .rsp
  | .srq => .srq

/-- The state with the buffer DECODE is given and its length register written. -/
def State.setDst (s : State) (d : Dst) (m : Memory) (len : Nat) : State :=
  match d with
  | .rsp => { s with rsp := m, rspLen := len }
  | .srq => { s with srq := m, srqLen := len }

/-- The length register of a destination (R22): `rsp_len` or `srq_len`. -/
def State.len (s : State) (d : Dst) : Nat :=
  match d with
  | .rsp => s.rspLen
  | .srq => s.srqLen

/-- The state with a length register written. -/
def State.setLen (s : State) (d : Dst) (len : Nat) : State :=
  match d with
  | .rsp => { s with rspLen := len }
  | .srq => { s with srqLen := len }

/-- How many bytes of a buffer an operation may use (R20, R22, R31): its length register's, none past the capacity of `CMD`
or `SRQ` (R40), and none of those two without the lock, since "`SRQ`, `CMD`, `TXQ`, `RXQ` are shared by all transactions but
are used only under the lock" (R56). -/
def State.valid (s : State) (b : Buf) : Nat :=
  match b with
  | .cmd => if s.lockHeld then min s.cmdLen s.cfg.cmdMax else 0
  | .rsp => s.rspLen
  | .srq => if s.lockHeld then min s.srqLen s.cfg.srqCap else 0

/-- The byte an operation finds at an index: the buffer's where it holds a valid one, a free value where it does not, since
"No operation reads a byte at or beyond the valid length of a buffer" (R31; notes/assumptions/27.md). -/
def State.byteAt (s : State) (b : Buf) (i : Nat) : Byte :=
  if i < s.valid b then Memory.read (s.buf b) i else Config.freeByte s.draws i

/-- The first `n` bytes an operation finds in a buffer. -/
def State.bytes (s : State) (b : Buf) (n : Nat) : List Byte := (List.range n).map (s.byteAt b)

/-- The pulses of `RXQ` an operation may use: all under the lock, none without it (R56). -/
def State.heard (s : State) : List Pulse := if s.lockHeld then s.rxq else []

/-- The first `n` pulses DECODE finds in `RXQ` (R105): past those there, free ones (notes/assumptions/27.md). -/
def State.pulses (s : State) (n : Nat) : List Pulse :=
  (List.range n).map (fun i => s.heard[i]?.getD (Config.freePulse s.draws i))

/-- How many elements a destination of DECODE has (R30): `SRQ_CAP` for `SRQ`, what the caller supplies for `RSP`. -/
def State.room (s : State) (d : Dst) (cap : Nat) : Nat :=
  match d with
  | .rsp => cap
  | .srq => s.cfg.srqCap

/-- What an operation that is a function of its operands (R8) leaves, `t` being its effect on a Bus.  Without a Bus "the
only operation with an effect is CREATE" (R250): it answers its value and writes nothing (notes/assumptions/8.md). -/
def State.onBus (s t : State) : State := if s.busValid then t else { s with draws := t.draws, ret := t.ret }

/-- What an operation that uses the shared buffers leaves, `t` being its effect under the lock.  "`SRQ`, `CMD`, `TXQ`, `RXQ`
are shared by all transactions but are used only under the lock" (R56): without it the operation answers its value and
writes nothing, the model's choice (notes/assumptions/27.md). -/
def State.underLock (s t : State) : State :=
  s.onBus (if s.lockHeld then t else { s with draws := t.draws, ret := t.ret })

/-! ## Requests to the environment (R188 to R191)

An answer is the script's where it has one left, a free value where it has none; every request is recorded. -/

/-- The answer to the next direction request. -/
def State.setDirAnswer (s : State) : Bool := s.script.setDirs.headD (Config.freeSetDirOk s.draws)

/-- `Env.SetDir(line_id, m)` (R191). -/
def State.envSetDir (m : Dir) (s : State) : State :=
  { s with script := { s.script with setDirs := s.script.setDirs.tail }, draws := s.draws + 1,
           envLog := .setDir s.lineId m s.setDirAnswer :: s.envLog }

/-- The answer to the next emission. -/
def State.emitAnswer (s : State) : Bool := s.script.emits.headD (Config.freeEmitOk s.draws)

/-- `Env.Emit(line_id, TXQ)` (R189). -/
def State.envEmit (s : State) : State :=
  { s with script := { s.script with emits := s.script.emits.tail }, draws := s.draws + 1,
           envLog := .emit s.lineId s.txq s.emitAnswer :: s.envLog }

/-- A free answer to a capture, held to the contract `1 ≤ elapsed ≤ budget` (R190 (3)). -/
def boundElapsed (budget : Nat) (c : Capture) : Capture :=
  match c with
  | .captured ps e => .captured ps (1 + e % budget)
  | .timeout => .timeout
  | .fail => .fail

/-- The answer to the next capture.  A scripted one is taken as it stands, the contract kept or not (R138 (4)). -/
def State.captureAnswer (budget : Nat) (s : State) : Capture :=
  s.script.captures.headD (boundElapsed budget (Config.freeCapture s.draws))

/-- The pulses a capture delivers into `RXQ`; the other answers deliver none. -/
def capturedInto (rxq : List Pulse) (c : Capture) : List Pulse :=
  match c with
  | .captured ps _ => ps
  | .timeout => rxq
  | .fail => rxq

/-- `Env.Capture(line_id, budget)` (R190): a read that consumes the waveform (R47). -/
def State.envCapture (budget : Nat) (s : State) : State :=
  { s with script := { s.script with captures := s.script.captures.tail }, draws := s.draws + 1,
           rxq := capturedInto s.rxq (s.captureAnswer budget),
           envLog := .capture s.lineId budget (s.captureAnswer budget) :: s.envLog }

/-! ## Direction control (R186) -/

/-- SETDIR: the mode asked for if the environment acknowledges, any of the three if it does not. -/
def State.setDir (m : Dir) (s : State) : State :=
  let t := s.envSetDir m
  { t with dirMode := if s.setDirAnswer then m else Config.freeDir t.draws,
           dirFailed := if s.setDirAnswer then none else some m, draws := t.draws + 1 }

/-- The line has been returned to `IDLE`, or the switch to `IDLE` was the last asked for and failed (R36 (3), R163). -/
abbrev State.restored (s : State) : Prop := s.dirFailed = some .idle ∨ (s.dirFailed = none ∧ s.dirMode = .idle)

/-! ## The lock (R13, R184, R185) -/

/-- A requester put among the waiters, a set listed rising. -/
def insertWaiter (r : Nat) : List Nat → List Nat
  | [] => [r]
  | w :: ws => if r < w then r :: w :: ws else if r = w then w :: ws else w :: insertWaiter r ws

/-- The request record loaded into `CMD` and the request registers at the grant (R20, R147), with the caller's
response buffer; the sequencer leaves `Q_IDLE` (R166, first row). -/
def State.loadRequest (r : Nat) (p : Port) (s : State) : State :=
  { s with cmd := Memory.writeFrom s.cmd 0 p.req.cmd, cmdLen := p.req.cmdLen, requireCrc := p.req.requireCrc,
           timeout := p.req.timeout, rspCap := p.req.rspCap, reqId := r, rsp := p.rsp, rspLen := 0,
           status := .ok, seqState := .dirTx }

/-- The lock granted to a waiter (R184, last line): a SEND's transaction begins, a bare LOCK returns. -/
def State.grantTo (r : Nat) (s : State) : State :=
  let t := { s with lockWaiters := s.lockWaiters.filter (· ≠ r), lockHeld := true, lockOwner := r }
  match s.ports[r]? with
  | none => t
  | some p =>
    match p.act with
    | .sending => t.loadRequest r p
    | _ => { t with ports := t.ports.modify r (fun p => { p with act := .holding }) }

/-- Which waiter is chosen when several wait: any of them (R184, U3). -/
def State.grantIndex (s : State) : Nat :=
  s.script.grants.headD (Config.freeGrant s.draws) % s.lockWaiters.length

/-- The choice consumed. -/
def State.dropGrant (s : State) : State :=
  { s with script := { s.script with grants := s.script.grants.tail }, draws := s.draws + 1 }

/-- LOCK's wait ends (R184): if the lock is free, the chosen waiter is granted it. -/
def State.tryGrant (s : State) : State :=
  if s.lockHeld then s
  else
    match s.lockWaiters with
    | [] => s
    | [r] => s.grantTo r
    | r :: _ :: _ => s.dropGrant.grantTo (s.lockWaiters.getD s.grantIndex r)

/-- LOCK (R184): requester `r` joins the waiters, as what it does there, and is granted the lock if that can be now. -/
def State.lockBy (r : Nat) (act : Activity) (s : State) : State :=
  State.tryGrant
    { s with lockWaiters := insertWaiter r s.lockWaiters, ports := s.ports.modify r (fun p => { p with act := act }) }

/-- UNLOCK (R185). -/
def State.unlock (s : State) : State := { s with lockHeld := false }

/-! ## The error exit and the end of a transaction -/

/-- The error exit (R236, "trap entry"): the code is recorded if it is the first (R169), and every remaining step is
skipped up to the restore. -/
def State.raise (st : Status) (s : State) : State :=
  { s with status := if s.status = .ok then st else s.status, seqState := .restore }

/-- Control goes to the restore step with the status as it stands. -/
def State.toRestore (s : State) : State := { s with seqState := .restore }

/-- A result delivered to a requester (R164, R183); its SEND is over. -/
def State.deliver (r : Nat) (st : Status) (len : Nat) (s : State) : State :=
  { s with ports := s.ports.modify r (fun p => { p with act := .free, result := some (st, len) }) }

/-- The end of a transaction (R163, R164): the line to `IDLE`, a failure of that reported only where the status was
`OK`, `Q_IDLE`, UNLOCK, and the result and the response buffer to requester `req_id`.  The transaction's registers and the
shared buffers keep what they hold, `t_rem` and `seconds`, live only inside it (R23), among them: the model's choice
(notes/assumptions/48.md). -/
def State.release (s : State) : State :=
  let t := s.setDir .idle
  let t := { t with status := if s.setDirAnswer = false ∧ t.status = Status.ok then Status.fail else t.status,
                    seqState := .idle }
  let t := t.unlock
  State.deliver t.reqId t.status t.rspLen
    { t with ports := t.ports.modify t.reqId (fun p => { p with rsp := t.rsp }) }

end Sys2Proof.Machine
end

