-- ==== Sys2Proof/Machine/Codec.lean ====
section
/-! DEFINITION. The Pulse Codec (40_codec_encode.md, 41_codec_decode.md): PREAMBLE, FRAME, ENCODE, UNITS and DECODE as functions,
and the meanings of their rows. -/

namespace Sys2Proof.Machine

/-! ## The transmit side -/

/-- PREAMBLE (R91): the break at spacing, the post-break marking. -/
def preamblePulses (tp : Timing) : List Pulse := [⟨.spacing, tp.breakDur⟩, ⟨.marking, tp.markDur⟩]

/-- The ten unit levels of a character (R62, R92): start, seven data units lowest bit first, parity, stop. -/
def frameLevels (c : Byte) : List Level :=
  .spacing :: ((List.range 7).map (fun k => dataLevel (c.getLsbD k)) ++ [flagLevel (txParity c), .marking])

/-- FRAME (R92): each unit lasts `tp.bit_width`. -/
def framePulses (c : Byte) : List Pulse := (frameLevels c).map (fun l => ⟨l, Config.bitWidth⟩)

/-- ENCODE (R90): the preamble once, then the characters' frames in order with no gap (R94). -/
def encodePulses (tp : Timing) (cs : List Byte) : List Pulse := preamblePulses tp ++ cs.flatMap framePulses

/-- The duration of a pulse sequence in PT (R94). -/
def pulsesDur (ps : List Pulse) : Nat := (ps.map Pulse.dur).sum

/-- A pulse put in front of a list, joined with the first one where their levels are equal (R95). -/
def joinPulse (p : Pulse) (ps : List Pulse) : List Pulse :=
  match ps with
  | [] => [p]
  | q :: qs => if p.level = q.level then ⟨p.level, p.dur + q.dur⟩ :: qs else p :: q :: qs

/-- The waveform of a pulse sequence (R95): zero durations dropped, adjacent equal levels merged.  R95 does not order the
two; that a pulse of no duration does not keep its neighbours apart is the model's choice (notes/assumptions/46.md). -/
def waveform (ps : List Pulse) : List Pulse := (ps.filter (fun p => p.dur ≠ 0)).foldr joinPulse []

/-- The encoder's registers once a call is over: none of them survives it (R14), so each is a free value. -/
def State.endEncode (s : State) : State :=
  { s with txIdx := Config.freeTxIdx s.draws, txUnit := Config.freeTxUnit s.draws, txPar := Config.freeTxPar s.draws,
           draws := s.draws + 1 }

/-- ENCODE of the command in `CMD` (R90): of `cmd_len` characters.  Where `cmd_len` is past `CMD_MAX` (it is unspecified
after a DESTROY and a CREATE) those past it are free values, and so are all where the lock is free (R56): the model's choice
(notes/assumptions/27.md). -/
def State.encoded (s : State) : List Pulse := encodePulses s.tp (s.bytes .cmd s.cmdLen)

/-- ENCODE of the command in `CMD` into `TXQ` (R90, R149). -/
def State.encodeCommand (s : State) : State := State.endEncode { s with txq := s.encoded }

/-! ## The receive side -/

/-- UNITS (R106): a duration in bit widths, rounded to the nearest, a half up (R7). -/
def unitCount (d : Nat) : Nat := (2 * d + Config.bitWidth) / (2 * Config.bitWidth)

/-- The window (R107): a pulse of 1 to 9 units is meaningful, any other is ignored. -/
def inWindow (u : Nat) : Bool := decide (1 ≤ u ∧ u ≤ 9)

/-- The units a pulse presents to the state machine (R107, R108). -/
def pulseUnits (p : Pulse) : List Level :=
  if inWindow (unitCount p.dur) then List.replicate (unitCount p.dur) p.level else []

/-- The units of a pulse sequence in time order: the state machine does not see pulse boundaries (R108). -/
def unitsOf (ps : List Pulse) : List Level := ps.flatMap pulseUnits

/-- The decoder's registers (R15 to R17), the count of characters appended, the destination buffer with the number of
elements it has, and the draw of the free values that stand for an element it does not have. -/
structure Decoder where
  st : DecState
  acc : BitVec 7
  par : Bool
  cnt : Nat
  buf : Memory
  room : Nat
  draw : Nat
  deriving DecidableEq, Repr, Inhabited

/-- The state after `BIT_k` (R111). -/
def nextBit (k : Fin 7) : DecState := if h : k.val + 1 < 7 then .bit ⟨k.val + 1, h⟩ else .parity

/-- The accumulator with bit `k` set (R111). -/
def setAcc (acc : BitVec 7) (k : Fin 7) : BitVec 7 := acc ||| (1#7 <<< k.val)

/-- `MemRead(B + i, 1)` of the destination.  Where `B` has no element `i`, which no rule asks for (R40), what is read is a
free value: the model's choice (notes/assumptions/27.md). -/
def Decoder.elem (d : Decoder) (i : Nat) : Byte :=
  if i < d.room then Memory.read d.buf i else Config.freeByte d.draw i

/-- `MemWrite(B + i, 1, v)` of the destination; where `B` has no element `i` there is nothing to write. -/
def Decoder.put (d : Decoder) (i : Nat) (v : Byte) : Decoder :=
  if i < d.room then { d with buf := Memory.write d.buf i v } else d

/-- The append of a character in `STOP` and the line-end test after it (R110, R114): the status is `OK` where the last
two characters are `CR` `LF`, the `CR` then replaced by the terminator. -/
def appendChar (d : Decoder) : Decoder × Option Status :=
  let e := { d.put d.cnt (d.acc.setWidth 8) with st := .waitStart, cnt := d.cnt + 1 }
  if 2 ≤ e.cnt ∧ e.elem (e.cnt - 2) = chCr ∧ e.elem (e.cnt - 1) = chLf then (e.put (e.cnt - 2) chNul, some .ok)
  else (e, none)

/-- STEP (R105, R109 to R114): one unit; a status where the call ends. -/
def decodeUnit (cap : Nat) (d : Decoder) (l : Level) : Decoder × Option Status :=
  match d.st with
  | .waitStart =>
    match l with
    | .spacing => ({ d with par := false, acc := 0#7, st := .bit 0 }, none)
    | .marking => (d, none)
  | .bit k =>
    ({ d with acc := if l = .marking then setAcc d.acc k else d.acc, par := rxParStep d.par l, st := nextBit k }, none)
  | .parity => if levelBit l ≠ d.par then (d, some .fail) else ({ d with st := .stop }, none)
  | .stop =>
    if l ≠ .marking then (d, some .fail)
    else if d.cnt = cap then (d, some .invalidSize)
    else appendChar d

/-- The walk over the units up to the first status (R108, R105). -/
def decodeUnits (cap : Nat) : List Level → Decoder → Decoder × Option Status
  | [], d => (d, none)
  | l :: ls, d =>
    match decodeUnit cap d l with
    | (d', some st) => (d', some st)
    | (d', none) => decodeUnits cap ls d'

/-- The decoder at the start of a call (R118): `WAIT_START` and an empty destination. -/
def Decoder.start (acc : BitVec 7) (par : Bool) (buf : Memory) (room draw : Nat) : Decoder :=
  { st := .waitStart, acc := acc, par := par, cnt := 0, buf := buf, room := room, draw := draw }

/-- The length a call ends with (R117): the line's for `OK`, the characters completed for the other exits. -/
def Decoder.len (d : Decoder) (st : Status) : Nat := if st = .ok then d.cnt - 2 else d.cnt

/-- DECODE (R105) as a function of the pulses, the destination's contents and its capacity: the decoder at the end of
the call and the status, `NOT_FOUND` where the input is used up (R115). -/
def decodePulses (ps : List Pulse) (cap : Nat) (d : Decoder) : Decoder × Status :=
  let r := decodeUnits cap (unitsOf ps) d
  (r.1, r.2.getD .notFound)

/-- The decoder of a call into `d` with capacity `cap`. -/
def State.decoderFor (s : State) (d : Dst) (cap : Nat) : Decoder :=
  Decoder.start s.acc s.rxPar (s.buf (dstBuf d)) (s.room d cap) s.draws

/-- What DECODE of the first `n` pulses of `RXQ` comes to in a state.  No rule asks for more pulses than `RXQ` holds, or for
any while the lock is free (R56): that those are free values is the model's choice (`State.pulses`,
notes/assumptions/27.md). -/
def State.decodeRun (s : State) (n : Nat) (d : Dst) (cap : Nat) : Decoder × Status :=
  decodePulses (s.pulses n) cap (s.decoderFor d cap)

/-- The status of that DECODE. -/
def State.decodeStatus (s : State) (n : Nat) (d : Dst) (cap : Nat) : Status := (s.decodeRun n d cap).2

/-- The state after that DECODE: the buffer, its length and the registers as the pseudocode leaves them (R105, R117);
the walk's registers live only inside the call (R18) and are free values after it. -/
def State.decodeInto (n : Nat) (d : Dst) (cap : Nat) (s : State) : State :=
  let r := s.decodeRun n d cap
  let t := { s with decState := r.1.st, acc := r.1.acc, rxPar := r.1.par,
                    rxPulseIdx := Config.freeRxPulseIdx s.draws, rxUnitsLeft := Config.freeRxUnitsLeft s.draws,
                    rxLevel := Config.freeRxLevel s.draws, draws := s.draws + 1 }
  t.setDst d r.1.buf (r.1.len r.2)

/-! ## The rows

ENCODE and DECODE use buffers that are "used only under the lock" (R56): from outside they run while no transaction is in
progress, with their whole effect where a requester holds the lock; where none does each answers a value alone
(`State.underLock`).  FRAME writes a working register that no later operation reads, and runs whenever it is called
(notes/assumptions/45.md), the lock held or free (R243; notes/assumptions/51.md).
Without a Bus each answers its value alone (`State.onBus`). -/

/-- ENCODE (R90). -/
def execEncode (s : State) : Host.Outcome State Fault Refusal :=
  if s.seqState ≠ .idle then .refused .unitsInUse
  else
    .next (s.underLock { s.encodeCommand with ret := .pulses s.encoded })

/-- PREAMBLE (R91). -/
def execPreamble (s : State) : Host.Outcome State Fault Refusal :=
  .next { s with ret := .pulses (preamblePulses s.tp) }

/-- FRAME (R92): the frame, and `tx_par` as its parity unit read it; `tx_unit` does not survive the call (R14). -/
def execFrame (c : Byte) (s : State) : Host.Outcome State Fault Refusal :=
  .next (s.onBus
    { s with txPar := txParity c, txUnit := Config.freeTxUnit s.draws, draws := s.draws + 1,
             ret := .pulses (framePulses c) })

/-- DECODE (R105), for every capacity (R121).  With more capacity than `SRQ` has (R40) it runs too: what becomes of the
characters past `SRQ_CAP` is `Decoder.elem`'s and `Decoder.put`'s (notes/assumptions/27.md). -/
def execDecode (n : Nat) (d : Dst) (cap : Nat) (s : State) : Host.Outcome State Fault Refusal :=
  if s.seqState ≠ .idle then .refused .unitsInUse
  else
    let t := s.decodeInto n d cap
    .next (s.underLock { t with ret := .line (s.decodeStatus n d cap) (t.len d) })

/-- UNITS (R106). -/
def execUnits (d : Nat) (s : State) : Host.Outcome State Fault Refusal := .next { s with ret := .nat (unitCount d) }

end Sys2Proof.Machine
end

