-- ==== Sys2Proof/Machine/Bus.lean ====
section
/-! DEFINITION. The bus services (44_bus_services.md): CREATE, DESTROY, LOCK, UNLOCK, SETDIR and the three requests to the
environment.

The sequencer invokes the last six itself.  Invoked from outside, they keep the rules the spec gives for their use:
while no Bus exists they are the "null bus" misuse, `INVALID_ARG` (R195, R221, R250; notes/assumptions/8.md); while a
transaction runs its units are its own (R52). -/

namespace Sys2Proof.Machine

/-- A status returned with no other effect. -/
def State.answer (st : Status) (s : State) : State := { s with ret := .status st }

/-- CREATE (R180, R181). -/
def execCreate (line brk mark : Nat) (s : State) : Host.Outcome State Fault Refusal :=
  if s.busValid then .next (s.answer .invalidArg)
  else
    .next { s with lineId := line,
                   tp := { breakDur := if brk = 0 then Config.breakDefault else brk,
                           markDur := if mark = 0 then s.cfg.markDefault else mark },
                   dirMode := .idle, dirFailed := none, lockHeld := false, lockWaiters := [], seqState := .idle,
                   busValid := true, ret := .status .ok }

/-- The Bus gone: no register or buffer of the block that is unspecified without one keeps what it held (R34, R253). -/
def State.forget (s : State) : State :=
  let u := Config.freeLeftover s.draws
  { s with busValid := false, lineId := u.lineId, tp := { breakDur := u.breakDur, markDur := u.markDur },
           lockOwner := u.lockOwner, txIdx := u.txIdx, txUnit := u.txUnit, txPar := u.txPar, decState := u.decState,
           acc := u.acc, rxPar := u.rxPar, rxPulseIdx := u.rxPulseIdx, rxUnitsLeft := u.rxUnitsLeft,
           rxLevel := u.rxLevel, reqId := u.reqId, cmdLen := u.cmdLen, requireCrc := u.requireCrc,
           timeout := u.timeout, rspCap := u.rspCap, status := u.status, rspLen := u.rspLen, srqLen := u.srqLen,
           tRem := u.tRem, seconds := u.seconds, crc := u.crc, cmd := Memory.writeFrom [] 0 u.cmd,
           rsp := Memory.writeFrom [] 0 u.rsp, srq := Memory.writeFrom [] 0 u.srq, txq := u.txq, rxq := u.rxq,
           draws := s.draws + 1 }

/-- DESTROY (R182): without a Bus `INVALID_ARG`, with a requester on it no meaning (U7). -/
def execDestroy (s : State) : Host.Outcome State Fault Refusal :=
  if s.busValid = false then .next (s.answer .invalidArg)
  else if s.lockHeld ∨ s.lockWaiters ≠ [] then .refused .busInUse
  else .next { s.forget with ret := .status .ok }

/-- LOCK (R184): requester `r` waits, and holds the lock once it is granted (`State.tryGrant`, here or at a later turn of
the sequencer). -/
def execLock (r : Nat) (s : State) : Host.Outcome State Fault Refusal :=
  if s.busValid = false then .next (s.answer .invalidArg)
  else
    match s.ports[r]? with
    | none => .refused .noSuchRequester
    | some p => if p.act ≠ .free then .refused .requesterBusy else .next (s.lockBy r .locking)

/-- UNLOCK (R185): by the owner, whose transaction, if it was one, has ended, with the line restored (R163). -/
def execUnlock (r : Nat) (s : State) : Host.Outcome State Fault Refusal :=
  if s.busValid = false then .next (s.answer .invalidArg)
  else
    match s.ports[r]? with
    | none => .refused .noSuchRequester
    | some _ =>
      if ¬(s.lockHeld ∧ s.lockOwner = r ∧ s.seqState = .idle) then .refused .notLockOwner
      else if ¬s.restored then .refused .lineNotRestored
      else .next { s.unlock with ports := s.ports.modify r (fun p => { p with act := .free }), ret := .nothing }

/-- SETDIR (R186). -/
def execSetdir (m : Dir) (s : State) : Host.Outcome State Fault Refusal :=
  if s.busValid = false then .next (s.answer .invalidArg)
  else if s.seqState ≠ .idle then .refused .unitsInUse
  else if s.lockHeld = false then .refused .lockNotHeld
  else .next { s.setDir m with ret := .ack s.setDirAnswer }

/-- ENV.EMIT (R189): "The block issues it only in `dir_mode` = `TRANSMIT`", and under the lock (R247). -/
def execEnvEmit (s : State) : Host.Outcome State Fault Refusal :=
  if s.busValid = false then .next (s.answer .invalidArg)
  else if s.seqState ≠ .idle then .refused .unitsInUse
  else if s.lockHeld = false then .refused .lockNotHeld
  else if s.dirMode ≠ .transmit then .refused .wrongDirection
  else .next { s.envEmit with ret := .ack s.emitAnswer }

/-- ENV.CAPTURE (R190): "The block issues it only in `dir_mode` = `RECEIVE`", and under the lock (R247). -/
def execEnvCapture (budget : Nat) (s : State) : Host.Outcome State Fault Refusal :=
  if s.busValid = false then .next (s.answer .invalidArg)
  else if s.seqState ≠ .idle then .refused .unitsInUse
  else if s.lockHeld = false then .refused .lockNotHeld
  else if s.dirMode ≠ .receive then .refused .wrongDirection
  else .next { s.envCapture budget with ret := .capture (s.captureAnswer budget) }

/-- ENV.SETDIR (R191): the bare request; `dir_mode` is SETDIR's to write (R12). -/
def execEnvSetdir (m : Dir) (s : State) : Host.Outcome State Fault Refusal :=
  if s.busValid = false then .next (s.answer .invalidArg)
  else if s.seqState ≠ .idle then .refused .unitsInUse
  else if s.lockHeld = false then .refused .lockNotHeld
  else .next { s.envSetDir m with ret := .ack s.setDirAnswer }

end Sys2Proof.Machine
end

