-- ==== Sys2Proof/Machine/Checksum.lean ====
section
/-! DEFINITION. The Checksum Unit (42_checksum.md): CRC16, CRCENC, the three checksum characters and VERIFY. -/

namespace Sys2Proof.Machine

/-- One of the eight iterations for a byte (R130): a logical shift right, with the polynomial where the bit shifted out
was 1. -/
def crcBit (crc : Word16) : Word16 := if crc.getLsbD 0 then (crc >>> 1) ^^^ 0xA001#16 else crc >>> 1

/-- The eight iterations (R130). -/
def crcEight (crc : Word16) : Word16 :=
  crcBit (crcBit (crcBit (crcBit (crcBit (crcBit (crcBit (crcBit crc)))))))

/-- One byte (R130): into the low 8 bits, then eight iterations. -/
def crcByte (crc : Word16) (b : Byte) : Word16 := crcEight (crc ^^^ b.setWidth 16)

/-- CRC16 of a string (R130) from the initial value 0x0000 (R132), lowest index first. -/
def crcOf (bs : List Byte) : Word16 := bs.foldl crcByte 0x0000#16

/-- The first checksum character (R70): `0x40 | crc[15:12]`. -/
def crcChar0 (f : BitVec 4) : Byte := 0x40#8 ||| f.setWidth 8

/-- The second checksum character (R70): `0x40 | crc[11:6]`. -/
def crcChar1 (f : BitVec 6) : Byte := 0x40#8 ||| f.setWidth 8

/-- The third checksum character (R70): `0x40 | crc[5:0]`. -/
def crcChar2 (f : BitVec 6) : Byte := 0x40#8 ||| f.setWidth 8

/-- CRCENC (R133): the three characters, in wire order (R42). -/
def crcChars (v : Word16) : List Byte :=
  [crcChar0 (v.extractLsb' 12 4), crcChar1 (v.extractLsb' 6 6), crcChar2 (v.extractLsb' 0 6)]

/-- VERIFY (R134) of a line: the checksum over all but the last three characters against those three; a line of fewer
than three has no checksum field (R135). -/
def verifyLine (line : List Byte) : Bool :=
  if line.length < 3 then false
  else decide (line.drop (line.length - 3) = crcChars (crcOf (line.take (line.length - 3))))

/-- The line in `RSP` (R48). -/
def State.rspLine (s : State) : List Byte := Memory.slice s.rsp 0 s.rspLen

/-- VERIFY of `RSP` and `rsp_len`. -/
def State.verifies (s : State) : Bool := verifyLine s.rspLine

/-- The state after VERIFY: the running value is the payload's CRC where one was computed (R130); nothing else. -/
def State.afterVerify (s : State) : State :=
  { s with crc := if s.rspLen < 3 then s.crc else crcOf (s.rspLine.take (s.rspLen - 3)) }

/-- The truncation of a verified line (R162): three characters off, the terminator at the new end. -/
def State.strip (s : State) : State :=
  { s with rspLen := s.rspLen - 3, rsp := Memory.write s.rsp (s.rspLen - 3) chNul }

/-! ## The rows

The spec has the sequencer invoke these (R137) and gives a call from outside no place; the model runs them whenever they
are called, on the line that `RSP` holds then, since all they write is the unit's own running value, which no later
operation reads (notes/assumptions/45.md), the lock held or free (R243; notes/assumptions/51.md). -/

/-- CRC16 (R130) of the first `m` bytes of a byte buffer, for every buffer and every `m`: "CRC16 is total" (R130, R8).  It
reads no byte at or beyond the buffer's valid length (R31), and none of `CMD` or `SRQ` while the lock is free (R56): each such
byte is a free value, which is the model's choice (notes/assumptions/27.md). -/
def execCrc16 (b : Buf) (m : Nat) (s : State) : Host.Outcome State Fault Refusal :=
  let v := crcOf (s.bytes b m)
  .next (s.onBus { s with crc := v, draws := s.draws + 1, ret := .word v })

/-- CRCENC (R133). -/
def execCrcenc (v : Word16) (s : State) : Host.Outcome State Fault Refusal := .next { s with ret := .chars (crcChars v) }

/-- CRC3.k0 (R70): the character that carries `crc[15:12]`. -/
def execCrc3k0 (f : BitVec 4) (s : State) : Host.Outcome State Fault Refusal := .next { s with ret := .chars [crcChar0 f] }

/-- CRC3.k1 (R70): the character that carries `crc[11:6]`. -/
def execCrc3k1 (f : BitVec 6) (s : State) : Host.Outcome State Fault Refusal := .next { s with ret := .chars [crcChar1 f] }

/-- CRC3.k2 (R70): the character that carries `crc[5:0]`. -/
def execCrc3k2 (f : BitVec 6) (s : State) : Host.Outcome State Fault Refusal := .next { s with ret := .chars [crcChar2 f] }

/-- VERIFY (R134): `OK` or `INVALID_CHECKSUM`; the line stays as it is. -/
def execVerify (s : State) : Host.Outcome State Fault Refusal :=
  .next (s.onBus { s.afterVerify with ret := .status (if s.verifies then .ok else .invalidChecksum) })

end Sys2Proof.Machine
end

