-- ==== Sys2Proof/Machine/Verbs.lean ====
section
/-! DEFINITION. What the host's verbs make of a SEND that has ended (45_device_session_host.md): the echo check, the parse of
the response and the session's cached fields. -/

namespace Sys2Proof.Machine

/-- The session with a handle, if it was created and not destroyed. -/
def State.session (h : Nat) (s : State) : Option Session := (s.sessions[h]?).join

/-- A session's cached fields written. -/
def State.updateSession (h : Nat) (f : Session → Session) (s : State) : State :=
  { s with sessions := s.sessions.modify h (Option.map f) }

/-- Whether the host's next allocation succeeds (R202). -/
def State.allocAnswer (s : State) : Bool := s.script.allocs.headD (Config.freeAllocOk s.draws)

/-- The allocation made. -/
def State.dropAlloc (s : State) : State :=
  { s with script := { s.script with allocs := s.script.allocs.tail }, draws := s.draws + 1 }

/-- The session a verb is called on. -/
def Verb.handle (v : Verb) : Option Nat :=
  match v with
  | .creation _ _ => none
  | .acknowledge h => some h
  | .addressQuery => none
  | .changeAddress h _ => some h
  | .identification h => some h
  | .measurement h => some h
  | .concurrent h => some h
  | .payload h => some h
  | .passthrough h => some h

/-- The address a verb expects in byte 0 of the response (R201): the session's, or the one a creation was given;
address-query, and a creation by query, expect none (R204). -/
def State.expectedAddr (v : Verb) (s : State) : Option Byte :=
  match v with
  | .creation query a => if query then none else some a
  | .addressQuery => none
  | .acknowledge h => (s.session h).map Session.addr
  | .changeAddress h _ => (s.session h).map Session.addr
  | .identification h => (s.session h).map Session.addr
  | .measurement h => (s.session h).map Session.addr
  | .concurrent h => (s.session h).map Session.addr
  | .payload h => (s.session h).map Session.addr
  | .passthrough h => (s.session h).map Session.addr

/-- The universal echo check (R201); a verb that expects no address passes it.  A line without a byte 0 does not echo
the address (notes/assumptions/14.md). -/
def State.echoes (v : Verb) (line : List Byte) (s : State) : Bool :=
  match s.expectedAddr v with
  | none => true
  | some a => decide (line.head? = some a)

/-- The payload the read verbs return (R210); N20 leaves open whether it holds the address byte. -/
def payloadOf (cfg : Params) (line : List Byte) : List Byte := if cfg.payloadWithAddr then line else line.drop 1

/-- The status and value of a verb whose SEND ended with `OK` and echoed the address.  R212 does not say what the two
vendor verbs return and N29 leaves the parse open: the whole line, address byte included, is the model's choice
(notes/assumptions/47.md). -/
def State.verbValue (v : Verb) (line : List Byte) (s : State) : Status × VerbValue :=
  match v with
  | .creation _ _ => if s.allocAnswer then (.ok, .session s.sessions.length) else (.noMem, .nothing)
  | .acknowledge _ => (.ok, .nothing)
  | .addressQuery => (.ok, .address (line.headD chNul))
  | .changeAddress _ _ => (.ok, .nothing)
  | .identification _ => if line.length < 20 then (.invalidResponse, .nothing) else (.ok, .nothing)
  | .measurement _ => (.ok, .count (countOf line))
  | .concurrent _ => (.ok, .countAfter (countOf line) (readySecondsOf line))
  | .payload _ => (.ok, .bytes (payloadOf s.cfg line))
  | .passthrough _ => (.ok, .bytes line)

/-- The result of a verb whose SEND ended with status `st` and the line `line`: the SEND's error if it is one, a failed
echo check, or the verb's own (R201). -/
def State.verbResult (v : Verb) (st : Status) (line : List Byte) (s : State) : Status × VerbValue :=
  if st ≠ .ok then (st, .nothing)
  else if s.echoes v line = false then (.invalidResponse, .nothing)
  else s.verbValue v line

/-- The cached fields a successful verb writes (R202, R205, R207). -/
def State.verbCache (v : Verb) (line : List Byte) (s : State) : State :=
  match v with
  | .creation query a =>
    if s.allocAnswer then
      { s.dropAlloc with
        sessions := s.sessions ++ [some { addr := if query then line.headD chNul else a, ident := Ident.empty }] }
    else s.dropAlloc
  | .changeAddress h b => s.updateSession h (fun x => { x with addr := b })
  | .identification h =>
    match identOf line with
    | some i => s.updateSession h (fun x => { x with ident := i })
    | none => s
  | .acknowledge _ => s
  | .addressQuery => s
  | .measurement _ => s
  | .concurrent _ => s
  | .payload _ => s
  | .passthrough _ => s

/-- A verb over: its result to the port, its cached fields written. -/
def State.finishVerb (r : Nat) (v : Verb) (st : Status) (line : List Byte) (s : State) : State :=
  let t := if st = .ok ∧ s.echoes v line = true then s.verbCache v line else s
  { t with ports := t.ports.modify r (fun p => { p with verb := none, verbResult := some (s.verbResult v st line) }) }

/-- The call of requester `r` over: the verb that waits for its SEND, if any, takes the line in its response buffer. -/
def State.finishCall (r : Nat) (st : Status) (len : Nat) (s : State) : State :=
  match s.ports[r]? with
  | none => s
  | some p =>
    match p.verb with
    | none => s
    | some v => s.finishVerb r v st (Memory.slice p.rsp 0 len)

end Sys2Proof.Machine
end

