-- ==== Sys2Proof/Machine/Transport.lean ====
section
/-! DEFINITION. The Transport/Bus sequencer (43_transport_send.md): SEND's call, READLINE, the class dispatch, the sequencer's
steps (R166), the whole of SEND as its pseudocode has it (R168), and the meanings of the SEND, VALID, READLINE, CLASS
and CMD rows. -/

namespace Sys2Proof.Machine

/-! ## READLINE (R151) -/

/-- What one turn of READLINE's loop comes to: a status that ends it, or none where a blank line or an incomplete
capture is retried (R152, R153). -/
def lineStatus (st : Status) (len : Nat) : Option Status :=
  match st with
  | .ok => if len = 0 then none else some .ok
  | .notFound => none
  | st => some st

/-- A capture of READLINE charged to its budget and decoded (R151). -/
def State.takeCapture (d : Dst) (cap : Nat) (ps : List Pulse) (elapsed : Nat) (s : State) : State :=
  let t := s.envCapture s.tRem
  State.decodeInto ps.length d cap { t with tRem := s.tRem - min elapsed s.tRem }

/-- The status that capture decodes to. -/
def State.takenStatus (d : Dst) (cap : Nat) (ps : List Pulse) (s : State) : Status :=
  (s.envCapture s.tRem).decodeStatus ps.length d cap

/-- One turn of READLINE's loop (R151): the status that ends it, if one does, and the state. -/
def State.readTurn (d : Dst) (cap : Nat) (s : State) : Option Status × State :=
  if s.tRem = 0 then (some .timeout, s.setLen d 0)
  else
    match s.captureAnswer s.tRem with
    | .fail => (some .fail, (s.envCapture s.tRem).setLen d 0)
    | .timeout => (some .timeout, (s.envCapture s.tRem).setLen d 0)
    | .captured ps elapsed =>
      let t := s.takeCapture d cap ps elapsed
      (lineStatus (s.takenStatus d cap ps) (t.len d), t)

/-- READLINE's loop, at most `fuel` turns. -/
def State.readLoop (d : Dst) (cap : Nat) : Nat → State → Status × State
  | 0, s => (.timeout, s.setLen d 0)
  | fuel + 1, s =>
    match s.readTurn d cap with
    | (some st, t) => (st, t)
    | (none, t) => State.readLoop d cap fuel t

/-- Turns enough for the loop: each takes an answer of the script or at least 1 TT of the budget (R240). -/
def State.readFuel (s : State) : Nat := s.tRem + s.script.captures.length + 1

/-- READLINE (R151) under a budget. -/
def State.readLine (d : Dst) (cap budget : Nat) (s : State) : Status × State :=
  let t := { s with tRem := budget }
  t.readLoop d cap t.readFuel

/-! ## Steps 4 and 5 -/

/-- The seconds field of the first line (R157): three digits of a line of four characters or more. -/
def State.secondsField (s : State) : Option Nat :=
  if s.rspLen < 4 then none else secondsOf (Memory.read s.rsp 1) (Memory.read s.rsp 2) (Memory.read s.rsp 3)

/-- The character the service request's line must begin with (R160): `CMD[0]`.  A command of a transaction has one; where
`cmd_len` is 0, or the lock is free (R56), which only a CMD row called from outside can find, it is a free value, since R31
lets no operation read it (the model's choice, notes/assumptions/27.md). -/
def State.asked (s : State) : Byte :=
  if 0 < s.valid .cmd then Memory.read s.cmd 0 else Config.freeFirst s.draws

/-- The status after the second phase (R160). -/
def State.srqStatus (st : Status) (s : State) : Status :=
  match st with
  | .timeout => .notFinished
  | .ok => if Memory.read s.srq 0 = s.asked then .ok else .invalidResponse
  | st => st

/-- Step 5 (R161, R162): the checksum verified and stripped, or reported, where it was asked for. -/
def State.checkData (s : State) : State :=
  if s.requireCrc then
    if s.verifies then s.afterVerify.strip else { s.afterVerify with status := .invalidChecksum }
  else s

/-- Step 4 after the parse (R158 to R160): the second phase, entered where the seconds are not 0.  Where they are 0,
`srq_len`, `SRQ` and `t_rem` keep what they hold (notes/assumptions/48.md). -/
def State.awaitService (n : Nat) (s : State) : State :=
  if n = 0 then s
  else
    let r := s.readLine .srq s.cfg.srqCap (n * 1000)
    { r.2 with status := r.2.srqStatus r.1 }

/-- Steps 4 and 5 (R156, R168) for a class, on a first line that was received. -/
def State.classSteps (c : CmdClass) (s : State) : State :=
  match c with
  | .meas =>
    match s.secondsField with
    | none => { s with status := .invalidResponse }
    | some n => State.awaitService n { s with seconds := n }
  | .data => s.checkData
  | .other => s

/-- The class of the command in `CMD` (R71): of `CMD[1]`, or of a free value where `cmd_len` is less than 2, as it is before
the first transaction (R31), or the lock is free, since `CMD` is "used only under the lock" (R56; the model's choice,
notes/assumptions/27.md). -/
def State.cmdClass (s : State) : CmdClass := classOf s.cfg (s.byteAt .cmd 1)

/-! ## SEND's call (R146, R147, R183) -/

/-- A SEND called by requester `r`: its request is latched by value in the record `req[r]` "at the moment r calls SEND"
(R20, R55), whether VALID will hold of it or not; the call before has no result any more, and `verb` waits for this one. -/
def State.latch (r : Nat) (req : Request) (verb : Option Verb) (s : State) : State :=
  { s with ports := s.ports.modify r (fun p => { p with req := req, result := none, verb := verb, verbResult := none }) }

/-- "Validation reads the record" (R20): VALID (R146) of `req[r]`. -/
def State.recordValid (s : State) (r : Nat) : Bool :=
  match s.ports[r]? with
  | none => false
  | some p => validRequest s.busValid s.cfg p.req

/-- SEND up to the wait for the lock, for requester `r`, with the verb that waits for it: the request is latched (R20, R55)
and the record validated.  A record that is not valid is answered at once, with no register of the block changed (R146);
with a valid one the requester waits for the lock (R147). -/
def State.sendBy (r : Nat) (req : Request) (verb : Option Verb) (s : State) : State :=
  let t := s.latch r req verb
  if t.recordValid r then t.lockBy r .sending else (t.deliver r .invalidArg 0).finishCall r .invalidArg 0

/-! ## The sequencer's steps (R166) -/

/-- From `Q_DIR_TX` (R148, R149). -/
def State.stepDirTx (s : State) : State :=
  let t := s.setDir .transmit
  if s.setDirAnswer then { t.encodeCommand with seqState := .emit } else t.raise .fail

/-- From `Q_EMIT` (R149). -/
def State.stepEmit (s : State) : State :=
  if s.emitAnswer then { s.envEmit with seqState := .dirRx } else s.envEmit.raise .fail

/-- From `Q_DIR_RX` (R150). -/
def State.stepDirRx (s : State) : State :=
  let t := s.setDir .receive
  if s.setDirAnswer then { t with seqState := .rx1, tRem := s.timeout } else t.raise .fail

/-- The dispatch after a first line (R156, the last five rows of `Q_RX1`). -/
def State.dispatchFirst (s : State) : State :=
  match s.cmdClass with
  | .meas =>
    match s.secondsField with
    | none => s.raise .invalidResponse
    | some 0 => { s with seconds := 0, seqState := .restore }
    | some (n + 1) => { s with seconds := n + 1, tRem := (n + 1) * 1000, seqState := .rx2 }
  | .data =>
    if s.requireCrc then
      if s.verifies then s.afterVerify.strip.toRestore else s.afterVerify.raise .invalidChecksum
    else s.toRestore
  | .other => s.toRestore

/-- From `Q_RX1` (R151 to R157). -/
def State.stepRx1 (s : State) : State :=
  match s.readTurn .rsp s.rspCap with
  | (none, t) => t
  | (some .ok, t) => t.dispatchFirst
  | (some st, t) => t.raise st

/-- From `Q_RX2` (R159, R160). -/
def State.stepRx2 (s : State) : State :=
  match s.readTurn .srq s.cfg.srqCap with
  | (none, t) => t
  | (some st, t) => if t.srqStatus st = .ok then t.toRestore else t.raise (t.srqStatus st)

/-- From `Q_RESTORE` (R163, R164): the end of the transaction, and of the call that was waiting for it. -/
def State.stepRestore (s : State) : State :=
  let t := s.release
  t.finishCall t.reqId t.status t.rspLen

/-- One step of the sequencer (R166). -/
def State.sequence (s : State) : State :=
  match s.seqState with
  | .idle => s.tryGrant
  | .dirTx => s.stepDirTx
  | .emit => s.stepEmit
  | .dirRx => s.stepDirRx
  | .rx1 => s.stepRx1
  | .rx2 => s.stepRx2
  | .restore => s.stepRestore

/-! ## SEND as its pseudocode has it (R168), from the grant to the result -/

/-- Steps 4 and 5 as R168 has them: `Q_RX2` where the second phase is entered. -/
def State.sendAfterLine (s : State) : State :=
  match s.cmdClass, s.secondsField with
  | .meas, some (_ + 1) => State.classSteps .meas { s with seqState := .rx2 }
  | c, _ => s.classSteps c

/-- Step 3 after the switch to receive: READLINE, then steps 4 and 5 if it gave a line. -/
def State.sendReceive (s : State) : State :=
  let r := s.readLine .rsp s.rspCap s.timeout
  if r.1 = .ok then r.2.sendAfterLine else { r.2 with status := r.1 }

/-- Steps 2 to 5: each failure goes to the restore step with the status `FAIL`. -/
def State.sendExchange (s : State) : State :=
  if s.setDirAnswer = false then { s.setDir .transmit with status := .fail }
  else
    let t := { (s.setDir .transmit).encodeCommand with seqState := .emit }
    if t.emitAnswer = false then { t.envEmit with status := .fail }
    else
      let u := { t.envEmit with seqState := .dirRx }
      if u.setDirAnswer = false then { u.setDir .receive with status := .fail }
      else State.sendReceive { u.setDir .receive with seqState := .rx1 }

/-- Steps 2 to 6 of SEND (R168) from the grant of the lock on, as one function. -/
def State.sendWhole (s : State) : State := s.sendExchange.toRestore.stepRestore

/-! ## The rows -/

/-- SEND (R145, R168): its call.  The lock's grant, the transaction and the result are steps of the sequencer
(`State.tryGrant`, `State.sequence`), between which other agents act (R8). -/
def execSend (r : Nat) (req : Request) (s : State) : Host.Outcome State Fault Refusal :=
  match s.ports[r]? with
  | none => .refused .noSuchRequester
  | some p => if p.act ≠ .free then .refused .requesterBusy else .next (s.sendBy r req none)

/-- VALID (R146): the answer, nothing else. -/
def execValid (req : Request) (s : State) : Host.Outcome State Fault Refusal :=
  .next { s with ret := .bool (validRequest s.busValid s.cfg req) }

/-- READLINE (R151), the whole loop.  It captures in `RECEIVE` only (R190) and under the lock (R247), and writes a buffer
that only a transaction uses (R56); with a budget of 0 it uses neither `RXQ` nor the buffer, and needs no lock
(R243; notes/assumptions/51.md).  With more capacity than `SRQ` has it runs as DECODE does (notes/assumptions/27.md).  `t_rem` keeps what it comes to
(notes/assumptions/48.md). -/
def execReadline (d : Dst) (cap budget : Nat) (s : State) : Host.Outcome State Fault Refusal :=
  if s.busValid = false then .next (s.answer .invalidArg)
  else if s.seqState ≠ .idle then .refused .unitsInUse
  else if budget ≠ 0 ∧ s.lockHeld = false then .refused .lockNotHeld
  else if budget ≠ 0 ∧ s.dirMode ≠ .receive then .refused .wrongDirection
  else
    let r := s.readLine d cap budget
    .next { r.2 with ret := .line r.1 (r.2.len d) }

/-- CLASS (R71): the class of the command in `CMD`.  Called from outside it answers at any time, for what `CMD` holds then
under the lock, for a free value without it (R56; `State.cmdClass`): the model's choice (notes/assumptions/45.md). -/
def execClassify (s : State) : Host.Outcome State Fault Refusal :=
  .next { s with draws := s.draws + 1, ret := .cls s.cmdClass }

/-- A CMD row (R71, R72): the class its character selects under the parameters, and that class's steps on the first
line, which run only if the line was received with `OK` (R156); without a Bus there is none (R250).  Two choices of the
model: called before any SEND, where "nothing reads" `status` (R21) or the request registers (R20), the row finds
`status`, `rsp_len`, `RSP` and `require_crc` as reset or DESTROY left them and takes `OK` for a received line
(notes/assumptions/50.md); and a row that captures nothing runs with the lock free, and writes `status`, `seconds`, `crc`,
`rsp_len` and `RSP` then, though the lock protects "all block state" (R243; notes/assumptions/51.md). -/
def State.verbRow (v : Byte) (s : State) : Host.Outcome State Fault Refusal :=
  let c := classOf s.cfg v
  if s.seqState ≠ .idle then .refused .unitsInUse
  else if s.busValid = false ∨ s.status ≠ .ok then .next { s with ret := .cls c }
  else if c = .meas ∧ 0 < s.secondsField.getD 0 ∧ s.lockHeld = false then .refused .lockNotHeld
  else if c = .meas ∧ 0 < s.secondsField.getD 0 ∧ s.dirMode ≠ .receive then .refused .wrongDirection
  else .next { s.classSteps c with ret := .cls c }

/-- CMD.M (R72): start measurement, class `MEAS`. -/
def execCmdM (s : State) : Host.Outcome State Fault Refusal := s.verbRow chM

/-- CMD.V (R72): start verification, class `MEAS`. -/
def execCmdV (s : State) : Host.Outcome State Fault Refusal := s.verbRow chV

/-- CMD.H (R72): class `MEAS` while `'H'` is in `HV_SET`; without it the row is absent and the byte falls to the default
row (R80), whose class `classOf` gives. -/
def execCmdH (s : State) : Host.Outcome State Fault Refusal := s.verbRow 0x48#8

/-- CMD.C (R72, R171): class `MEAS` only if `C_WAITS`; otherwise the byte falls to the default row (R80). -/
def execCmdC (s : State) : Host.Outcome State Fault Refusal := s.verbRow chC

/-- CMD.D (R72): read data, class `DATA`. -/
def execCmdD (s : State) : Host.Outcome State Fault Refusal := s.verbRow chD

/-- CMD.R (R72): read continuous, class `DATA`. -/
def execCmdR (s : State) : Host.Outcome State Fault Refusal := s.verbRow chR

/-- CMD.default (R72): class `OTHER`, but for a further member of `HV_SET` (R71). -/
def execCmdDefault (v : Byte) (s : State) : Host.Outcome State Fault Refusal := s.verbRow v

end Sys2Proof.Machine
end

