-- ==== Sys2Proof/Machine/Session.lean ====
section
/-! DEFINITION. The host's twelve verbs (45_device_session_host.md): each formats its command and issues one SEND as a requester;
what it makes of the SEND's result, when that is delivered, is in Machine/Verbs.lean. -/

namespace Sys2Proof.Machine

/-- The request a verb issues: the caller's timeout or `TIMEOUT_DEFAULT` (R5, R200). -/
def Via.request (via : Via) (cmd : List Byte) (check : Bool) : Request :=
  { cmd := cmd, requireCrc := check, timeout := via.timeout.getD Config.timeoutDefault, rspCap := via.rspCap }

/-- Another task is using a session (R213, U16). -/
def State.sessionBusy (h : Nat) (s : State) : Bool :=
  s.ports.any (fun p => decide (p.verb.bind Verb.handle = some h))

/-- The host destroys session `h` (R183), "independently of the Bus" (R202): whether there is a Bus or not, with no effect
on the block.  "Every public operation returns a status" (R231): it returns `OK`.  The code, and the moment, no verb on it
being outstanding, are the model's choices (notes/assumptions/41.md). -/
def State.endSession (h : Nat) (s : State) : Host.Outcome State Fault Refusal :=
  match s.session h with
  | none => .refused .noSuchSession
  | some _ =>
    if s.sessionBusy h then .refused .sessionInUse
    else .next { s with sessions := s.sessions.set h none, ret := .status .ok }

/-- A verb that needs no session. -/
def State.callPlain (via : Via) (v : Verb) (cmd : List Byte) (s : State) : Host.Outcome State Fault Refusal :=
  match s.ports[via.requester]? with
  | none => .refused .noSuchRequester
  | some p =>
    if p.act ≠ .free then .refused .requesterBusy
    else .next (s.sendBy via.requester (Via.request via cmd false) (some v))

/-- A verb called on session `h`, whose command is formed from the session's address.  A session's reference to the Bus is
weak (R194) and the spec does not say what a session that outlives its Bus does; its SEND goes to the Bus that the block
has then, a new one after a DESTROY and a CREATE too: the model's choice (notes/assumptions/49.md). -/
def State.callOn (via : Via) (h : Nat) (v : Verb) (cmd : Byte → List Byte) (check : Bool) (s : State) :
    Host.Outcome State Fault Refusal :=
  match s.ports[via.requester]? with
  | none => .refused .noSuchRequester
  | some p =>
    if p.act ≠ .free then .refused .requesterBusy
    else
      match s.session h with
      | none => .refused .noSuchSession
      | some x =>
        if s.sessionBusy h then .refused .sessionInUse
        else .next (s.sendBy via.requester (Via.request via (cmd x.addr) check) (some v))

/-- The result of a verb that issued no SEND, to requester `r`. -/
def State.verbAnswer (r : Nat) (st : Status) (s : State) : State :=
  { s with ports := s.ports.modify r (fun p => { p with result := none, verb := none, verbResult := some (st, .nothing) }) }

/-- A verb called on session `h` with an index: out of 0 to 9 it is `INVALID_ARG` without a SEND (R206). -/
def State.callIndexed (via : Via) (h : Nat) (idx : Option Nat) (v : Verb) (cmd : Byte → List Byte) (check : Bool)
    (s : State) : Host.Outcome State Fault Refusal :=
  match s.callOn via h v cmd check with
  | .next t => if 9 < idx.getD 0 then .next (s.verbAnswer via.requester .invalidArg) else .next t
  | o => o

/-- NEWSESSION (R202): address-query for `'?'`, acknowledge-active for any other address. -/
def execNewSession (via : Via) (addr : Byte) (s : State) : Host.Outcome State Fault Refusal :=
  s.callPlain via (.creation (decide (addr = chQuery)) addr) (ackText addr)

/-- ACK_ACTIVE (R203). -/
def execAckActive (via : Via) (h : Nat) (s : State) : Host.Outcome State Fault Refusal :=
  s.callOn via h (.acknowledge h) ackText false

/-- ADDRESS_QUERY (R204). -/
def execAddressQuery (via : Via) (s : State) : Host.Outcome State Fault Refusal :=
  s.callPlain via .addressQuery (ackText chQuery)

/-- CHANGE_ADDRESS (R205). -/
def execChangeAddress (via : Via) (h : Nat) (b : Byte) (s : State) : Host.Outcome State Fault Refusal :=
  s.callOn via h (.changeAddress h b) (changeText b) false

/-- READ_IDENTIFICATION (R207). -/
def execReadIdentification (via : Via) (h : Nat) (s : State) : Host.Outcome State Fault Refusal :=
  s.callOn via h (.identification h) identText false

/-- START_MEASUREMENT (R208). -/
def execStartMeasurement (via : Via) (h : Nat) (crc : Bool) (idx : Option Nat) (s : State) :
    Host.Outcome State Fault Refusal :=
  s.callIndexed via h idx (.measurement h) (measureText s.cfg chM crc idx) false

/-- START_CONCURRENT (R209). -/
def execStartConcurrent (via : Via) (h : Nat) (crc : Bool) (idx : Option Nat) (s : State) :
    Host.Outcome State Fault Refusal :=
  s.callIndexed via h idx (.concurrent h) (measureText s.cfg chC crc idx) false

/-- READ_DATA (R210). -/
def execReadData (via : Via) (h : Nat) (idx : Nat) (check : Bool) (s : State) : Host.Outcome State Fault Refusal :=
  s.callIndexed via h (some idx) (.payload h) (readText chD idx) check

/-- READ_CONTINUOUS (R210). -/
def execReadContinuous (via : Via) (h : Nat) (idx : Nat) (check : Bool) (s : State) :
    Host.Outcome State Fault Refusal :=
  s.callIndexed via h (some idx) (.payload h) (readText chR idx) check

/-- START_VERIFICATION (R211). -/
def execStartVerification (via : Via) (h : Nat) (s : State) : Host.Outcome State Fault Refusal :=
  s.callOn via h (.measurement h) (measureText s.cfg chV false none) false

/-- IDENTIFY_EXTENDED (R212). -/
def execIdentifyExtended (via : Via) (h : Nat) (cmd : List Byte) (s : State) : Host.Outcome State Fault Refusal :=
  s.callOn via h (.passthrough h) (identExtText cmd) false

/-- RAW_EXTENDED (R212). -/
def execRawExtended (via : Via) (h : Nat) (cmd : List Byte) (check : Bool) (s : State) :
    Host.Outcome State Fault Refusal :=
  s.callOn via h (.passthrough h) (rawText cmd) check

end Sys2Proof.Machine
end

