-- ==== Sys2Proof/Machine/Dispatch.lean ====
section
/-! DEFINITION. The dispatch: one arm per operation, each one call of its meaning. -/

namespace Sys2Proof.Machine

-- OP, FRAME and CRC3 rows, then CMD rows, then HOST rows, in the table's order.
def exec (i : Instr) (s : State) : Host.Outcome State Fault Refusal :=
  match i with
  | .send r req => Sys2Proof.Machine.execSend r req s
  | .valid req => Sys2Proof.Machine.execValid req s
  | .readline dst cap budget => Sys2Proof.Machine.execReadline dst cap budget s
  | .classify => Sys2Proof.Machine.execClassify s
  | .encode => Sys2Proof.Machine.execEncode s
  | .preamble => Sys2Proof.Machine.execPreamble s
  | .frame c => Sys2Proof.Machine.execFrame c s
  | .decode n dst cap => Sys2Proof.Machine.execDecode n dst cap s
  | .units d => Sys2Proof.Machine.execUnits d s
  | .crc16 b m => Sys2Proof.Machine.execCrc16 b m s
  | .crcenc v => Sys2Proof.Machine.execCrcenc v s
  | .crc3k0 f => Sys2Proof.Machine.execCrc3k0 f s
  | .crc3k1 f => Sys2Proof.Machine.execCrc3k1 f s
  | .crc3k2 f => Sys2Proof.Machine.execCrc3k2 f s
  | .verify => Sys2Proof.Machine.execVerify s
  | .create line brk mark => Sys2Proof.Machine.execCreate line brk mark s
  | .destroy => Sys2Proof.Machine.execDestroy s
  | .lock r => Sys2Proof.Machine.execLock r s
  | .unlock r => Sys2Proof.Machine.execUnlock r s
  | .setdir m => Sys2Proof.Machine.execSetdir m s
  | .envEmit => Sys2Proof.Machine.execEnvEmit s
  | .envCapture budget => Sys2Proof.Machine.execEnvCapture budget s
  | .envSetdir m => Sys2Proof.Machine.execEnvSetdir m s
  | .cmdM => Sys2Proof.Machine.execCmdM s
  | .cmdV => Sys2Proof.Machine.execCmdV s
  | .cmdH => Sys2Proof.Machine.execCmdH s
  | .cmdC => Sys2Proof.Machine.execCmdC s
  | .cmdD => Sys2Proof.Machine.execCmdD s
  | .cmdR => Sys2Proof.Machine.execCmdR s
  | .cmdDefault v => Sys2Proof.Machine.execCmdDefault v s
  | .newSession via addr => Sys2Proof.Machine.execNewSession via addr s
  | .ackActive via h => Sys2Proof.Machine.execAckActive via h s
  | .addressQuery via => Sys2Proof.Machine.execAddressQuery via s
  | .changeAddress via h b => Sys2Proof.Machine.execChangeAddress via h b s
  | .readIdentification via h => Sys2Proof.Machine.execReadIdentification via h s
  | .startMeasurement via h crc idx => Sys2Proof.Machine.execStartMeasurement via h crc idx s
  | .startConcurrent via h crc idx => Sys2Proof.Machine.execStartConcurrent via h crc idx s
  | .readData via h idx check => Sys2Proof.Machine.execReadData via h idx check s
  | .readContinuous via h idx check => Sys2Proof.Machine.execReadContinuous via h idx check s
  | .startVerification via h => Sys2Proof.Machine.execStartVerification via h s
  | .identifyExtended via h cmd => Sys2Proof.Machine.execIdentifyExtended via h cmd s
  | .rawExtended via h cmd check => Sys2Proof.Machine.execRawExtended via h cmd check s

end Sys2Proof.Machine
end

