-- ==== Sys2Proof/Machine/Fetch.lean ====
section
/-! DEFINITION. What one step takes from the interface: the next move, and the operation of a packet. -/

namespace Sys2Proof.Machine

/-- The state with the next move taken off the interface. -/
def State.dropInput (s : State) : State := { s with inputs := s.inputs.tail }

/-- A presented packet run: the operation it decodes to, if it is well formed. -/
def State.runPacket (p : Packet) (s : State) : Host.Outcome State Fault Refusal :=
  match decode p with
  | .error e => .refused (.undecodable e)
  | .ok i =>
    match i.illFormed? with
    | some e => .refused (.illFormed e)
    | none => exec i s

/-- The next move: a packet that a task or the host presents, the end of a session, or a step of the sequencer, which is
also what comes when nothing else is pending. -/
def State.move (s : State) : Host.Outcome State Fault Refusal :=
  match s.inputs with
  | [] => .next s.sequence
  | .turn :: _ => .next s.dropInput.sequence
  | .endSession h :: _ => s.dropInput.endSession h
  | .call p :: _ => s.dropInput.runPacket p

/-- The state with a word of the table presented as the next packet. -/
def State.present (p : Packet) (s : State) : State := { s with inputs := .call p :: s.inputs }

end Sys2Proof.Machine
end

