-- ==== Sys2Proof/Machine/Step.lean ====
section
/-! DEFINITION. One step of the machine, and an instruction placed where the next step takes it. -/

namespace Sys2Proof.Machine

/-- One step: the next move of the agent whose turn it is (R8, R10, R166). -/
def step (s : State) : Host.Outcome State Fault Refusal := s.move

/-- The state in which a word of the table is the next packet at the interface. -/
def State.withFetchWord (s : State) (nbits w : Nat) : State := s.present [0, nbits, w]

end Sys2Proof.Machine
end

