-- ==== Sys2Proof/Safety.lean ====
section
/-! DEFINITION. What counts as a sound state of the block, in the terms the statements use: the invariants of R36, R22 and R12,
each on its own, and quiescence (R196). -/

namespace Sys2Proof.Machine

/-- Every byte buffer keeps its canonical form: the block's three and each requester's (R30). -/
structure State.BuffersCanonical (s : State) : Prop where
  cmd : Memory.wf s.cmd
  rsp : Memory.wf s.rsp
  srq : Memory.wf s.srq
  ports : ∀ p ∈ s.ports, Memory.wf p.rsp

/-- The requester is the lock's owner. -/
def State.owns (s : State) (r : Nat) : Prop := s.lockHeld = true ∧ s.lockOwner = r

/-- What a requester's activity says of the lock (R13, R183): a free port neither waits nor owns; a SEND waits or owns
the lock with its transaction running; a bare LOCK waits; a bare holder owns it with no transaction running. -/
def State.activityFits (s : State) (r : Nat) (act : Activity) : Prop :=
  match act with
  | .free => r ∉ s.lockWaiters ∧ ¬s.owns r
  | .sending => (r ∈ s.lockWaiters ∧ ¬s.owns r) ∨ (r ∉ s.lockWaiters ∧ s.owns r ∧ s.seqState ≠ .idle ∧ s.reqId = r)
  | .locking => r ∈ s.lockWaiters ∧ ¬s.owns r
  | .holding => r ∉ s.lockWaiters ∧ s.owns r ∧ s.seqState = .idle

/-- The lock's discipline: R36 (1), (2) and (5), the waiters as a set of requesters (R13), nothing held without a Bus
(R34), and every port's activity as the lock has it. -/
structure State.LockDiscipline (s : State) : Prop where
  /-- R36 (1). -/
  transactionHoldsLock : s.seqState ≠ .idle → s.lockHeld = true ∧ s.lockOwner = s.reqId
  /-- R36 (2). -/
  freeMeansIdle : s.lockHeld = false → s.seqState = .idle
  /-- R34: without a Bus the lock is free and nobody waits. -/
  noBusNoLock : s.busValid = false → s.lockHeld = false ∧ s.lockWaiters = []
  /-- The waiters are listed rising. -/
  waitersRising : s.lockWaiters.Pairwise (· < ·)
  /-- Waiters and owner are requesters of the block. -/
  waitersExist : ∀ r ∈ s.lockWaiters, r < s.ports.length
  ownerExists : s.lockHeld = true → s.lockOwner < s.ports.length
  /-- Each requester's activity fits. -/
  activities : ∀ r p, s.ports[r]? = some p → s.activityFits r p.act

/-- The direction mode a transaction has established (R12, R166): `TRANSMIT` from the acknowledged switch to the end of
the emission, `RECEIVE` in the two receive phases (R159: no change separates them); and with the lock free it is
`IDLE`, or unknown after a switch to `IDLE` that failed (R36 (3)). -/
structure State.DirectionDiscipline (s : State) : Prop where
  transmitting : s.seqState = .emit ∨ s.seqState = .dirRx → s.dirMode = .transmit
  receiving : s.seqState = .rx1 ∨ s.seqState = .rx2 → s.dirMode = .receive
  /-- R36 (3). -/
  freeMeansRestored : s.busValid = true → s.lockHeld = false →
    s.dirMode = .idle ∨ s.dirFailed = some .idle

/-- The request registers are the owner's latched record while its transaction runs (R20, R55), and the lengths a
requester can observe are within its capacity (R22); the records themselves are within VALID's bounds. -/
structure State.RequestDiscipline (s : State) : Prop where
  registers : s.seqState ≠ .idle → ∃ p, s.ports[s.reqId]? = some p ∧ p.act = .sending ∧ s.cmdLen = p.req.cmdLen ∧
    s.requireCrc = p.req.requireCrc ∧ s.timeout = p.req.timeout ∧ s.rspCap = p.req.rspCap ∧ s.rspLen ≤ s.rspCap
  results : ∀ p ∈ s.ports, ∀ st len, p.result = some (st, len) → len ≤ p.req.rspCap
  /-- R146: the command of an outstanding SEND has 2 to `CMD_MAX` characters. -/
  commands : ∀ p ∈ s.ports, p.act = .sending → 2 ≤ p.req.cmdLen ∧ p.req.cmdLen ≤ s.cfg.cmdMax

/-- The statuses a transaction may hold and a requester may see: SEND never ends in `NOT_FOUND` or `NO_MEM` (R145, R227,
R228). -/
structure State.StatusDiscipline (s : State) : Prop where
  running : s.seqState ≠ .idle → s.status ≠ .notFound ∧ s.status ≠ .noMem
  results : ∀ p ∈ s.ports, ∀ st len, p.result = some (st, len) → st ≠ .notFound ∧ st ≠ .noMem

/-- The timing profile of a Bus is positive (R11). -/
def State.TimingPositive (s : State) : Prop :=
  0 < s.cfg.markDefault ∧ (s.busValid = true → 0 < s.tp.breakDur ∧ 0 < s.tp.markDur)

/-- Quiescence (R196): the end of a run. -/
def State.quiescent (s : State) : Prop := s.seqState = .idle ∧ s.lockHeld = false ∧ s.lockWaiters = []

/-- A request the block accepts, conjunct by conjunct as VALID has them (R146, R61): a Bus, a buffer, the length bounds,
a first character that is a digit, a letter or `'?'`, and `'!'` last. -/
structure State.Accepts (s : State) (q : Request) : Prop where
  bus : s.busValid = true
  buffer : 1 ≤ q.rspCap
  lower : 2 ≤ q.cmd.length
  upper : q.cmd.length ≤ s.cfg.cmdMax
  first : ∃ a, q.cmd.head? = some a ∧ ((48 ≤ a.toNat ∧ a.toNat ≤ 57) ∨ (65 ≤ a.toNat ∧ a.toNat ≤ 90) ∨
    (97 ≤ a.toNat ∧ a.toNat ≤ 122) ∨ a.toNat = 63)
  last : q.cmd.getLast? = some 0x21#8

/-- What the lock's grant to `w` does (R184, last line): `w` no longer waits and owns the lock; a SEND's record goes into
`CMD` and the request registers and its transaction begins (R20, R147); a bare LOCK returns.  Nothing else changes. -/
structure State.Granted (s : State) (w : Nat) (t : State) : Prop where
  held : t.lockHeld = true
  owner : t.lockOwner = w
  waiters : ∀ x, x ∈ t.lockWaiters ↔ x ∈ s.lockWaiters ∧ x ≠ w
  send : ∀ p, s.ports[w]? = some p → p.act = .sending →
    t.seqState = .dirTx ∧ t.status = .ok ∧ t.rspLen = 0 ∧ t.reqId = w ∧ t.cmdLen = p.req.cmd.length ∧
    t.requireCrc = p.req.requireCrc ∧ t.timeout = p.req.timeout ∧ t.rspCap = p.req.rspCap ∧ t.rsp = p.rsp ∧
    t.ports = s.ports ∧ ∀ k, Memory.read t.cmd k = (p.req.cmd[k]?).getD (Memory.read s.cmd k)
  lock : ∀ p, s.ports[w]? = some p → p.act ≠ .sending →
    t = { s with lockHeld := true, lockOwner := w, lockWaiters := t.lockWaiters, script := t.script, draws := t.draws,
                 ports := s.ports.modify w (fun p => { p with act := .holding }) }
  frame : t = { s with lockHeld := true, lockOwner := w, lockWaiters := t.lockWaiters, script := t.script,
                       draws := t.draws, ports := t.ports, seqState := t.seqState, status := t.status,
                       rspLen := t.rspLen, reqId := t.reqId, cmd := t.cmd, cmdLen := t.cmdLen,
                       requireCrc := t.requireCrc, timeout := t.timeout, rspCap := t.rspCap, rsp := t.rsp }

/-- The status after an error, if it is the first (R169). -/
def firstError (first later : Status) : Status := if first = .ok then later else first

/-- The status a transaction in its restore step ends with (R163): a failed switch to `IDLE` counts where there was no
error before it. -/
def State.endStatus (s : State) : Status := if s.setDirAnswer = false then firstError s.status .fail else s.status

/-- Two successive characters of a string, seen through seven bits, are `CR` `LF` (R97). -/
def holdsLineEnd (cs : List Byte) : Prop :=
  ∃ k a b, cs[k]? = some a ∧ cs[k + 1]? = some b ∧ a &&& 0x7F#8 = 0x0D#8 ∧ b &&& 0x7F#8 = 0x0A#8

/-- A duration the decoder does not take for frame units (R107): fewer than 417 PT, or 7914 PT or more. -/
def outsideWindow (d : Nat) : Prop := d ≤ 416 ∨ 7914 ≤ d

/-- A pulse as a capture may show it for a nominal one (R106, R107): the same level, and either both outside the window or
the nominal one of 1 to 9 bit widths and the other of any duration that rounds to them. -/
def shows (p q : Pulse) : Prop :=
  p.level = q.level ∧ ((outsideWindow p.dur ∧ outsideWindow q.dur) ∨
    ∃ k, 1 ≤ k ∧ k ≤ 9 ∧ q.dur = 833 * k ∧ 833 * k ≤ p.dur + 416 ∧ p.dur ≤ 833 * k + 416)

/-- A CMD row and the second character it stands for (R72). -/
def rowOf (i : Instr) (v : Byte) : Prop :=
  i = .cmdM ∧ v = 0x4D#8 ∨ i = .cmdV ∧ v = 0x56#8 ∨ i = .cmdH ∧ v = 0x48#8 ∨ i = .cmdC ∧ v = 0x43#8 ∨
    i = .cmdD ∧ v = 0x44#8 ∨ i = .cmdR ∧ v = 0x52#8 ∨ i = .cmdDefault v

/-- The scripted answers keep the environment's contract (R190 (3)). -/
def State.ScriptKeepsContract (s : State) : Prop :=
  ∀ ps e, Capture.captured ps e ∈ s.script.captures → 1 ≤ e

/-- `t` comes after `n` steps of the machine from `s`. -/
def State.reaches (s : State) (n : Nat) (t : State) : Prop := Sys2Proof.core.run n s = .next t

end Sys2Proof.Machine
end

