-- ==== Sys2Proof/Certificates/Slice0/Obligations.lean ====
section
/-! DEFINITION. The statements for the provers, in the order of OBLIGATIONS.json.  An equation that updates `s` says the whole
frame with it: every register, every port and every byte of every buffer that it does not name reads as before. -/

open Sys2Proof Sys2Proof.Machine

/-! ## Decoding, the step, reset -/

/-- Decoding an encoded well-formed operation gives it back, every operand at every value (R80).  The packets of the
rows without a bit pattern are the model's own (notes/assumptions/2.md). -/
def Obligations.DecodeEncode : Prop := ∀ i : Instr, i.WellFormed → decode (encode i) = .ok i

/-- The five worked encodings of 30_encoding.md section 6 ("Worked encodings", the spec's own computation from R62 to
R64), unit 0 first, `S` = 1 and `M` = 0. -/
def Obligations.WorkedFrameWords : Prop :=
  decodeTableWord 10 0b1111100110 = some (.frame 0x30#8) ∧
  decodeTableWord 10 0b1011110110 = some (.frame 0x21#8) ∧
  decodeTableWord 10 0b1000000110 = some (.frame 0x3F#8) ∧
  decodeTableWord 10 0b1010011100 = some (.frame 0x0D#8) ∧
  decodeTableWord 10 0b1101011110 = some (.frame 0x0A#8)

/-- The words the FRAME row decodes, unit by unit (R62, R64): unit 0 spacing, units 1 to 7 the complements of the data
bits lowest first, unit 8 their exclusive or, unit 9 marking; every other ten-bit word is refused. -/
def Obligations.FrameWordBits : Prop :=
  ∀ (w : Nat) (i : Instr), decodeTableWord 10 w = some i ↔
    ∃ c : Byte, i = .frame c ∧ c.getLsbD 7 = false ∧ w < 1024 ∧ w.testBit 9 = true ∧
      (∀ k < 7, w.testBit (8 - k) = !c.getLsbD k) ∧
      w.testBit 1 = (w.testBit 2 ^^ w.testBit 3 ^^ w.testBit 4 ^^ w.testBit 5 ^^ w.testBit 6 ^^ w.testBit 7 ^^
        w.testBit 8) ∧
      w.testBit 0 = false

/-- When a packet is next and decodes to a well-formed operation, the step is that operation, run on the state with the
packet taken off the interface; a word placed by `withFetchWord` is that next packet; when no packet is next, the step
is the sequencer's (R10, R166) and gives a next state.  The interface's list of moves is the model's own
(notes/assumptions/6.md, notes/assumptions/7.md). -/
def Obligations.StepRunsDecoded : Prop :=
  (∀ (s : State) (p : Packet) (rest : List Input) (i : Instr), s.inputs = .call p :: rest → decode p = .ok i →
    i.WellFormed → step s = exec i { s with inputs := rest }) ∧
  (∀ (s : State) (nbits w : Nat) (i : Instr), decodeTableWord nbits w = some i → i.WellFormed →
    step (s.withFetchWord nbits w) = exec i s) ∧
  (∀ s : State, s.inputs = [] → step s = .next s.sequence) ∧
  (∀ (s : State) (rest : List Input), s.inputs = .turn :: rest →
    step s = .next (State.sequence { s with inputs := rest })) ∧
  (∀ (s : State) (rest : List Input) (h : Nat), s.inputs = .endSession h :: rest →
    step s = State.endSession h { s with inputs := rest })

/-- After power-on no Bus exists, the lock is free, nobody waits and the sequencer is in `Q_IDLE` (R34, R250), and every
invariant of the model holds. -/
def Obligations.ResetInvariants : Prop :=
  State.reset.busValid = false ∧ State.reset.lockHeld = false ∧ State.reset.lockWaiters = [] ∧
    State.reset.seqState = .idle ∧ Config.bitWidth = 833 ∧ State.reset.sessions = [] ∧
    State.reset.BuffersCanonical ∧ State.reset.LockDiscipline ∧ State.reset.DirectionDiscipline ∧
    State.reset.RequestDiscipline ∧ State.reset.StatusDiscipline ∧ State.reset.TimingPositive ∧ State.reset.quiescent

/-! ## The Pulse Codec, transmit side -/

/-- FRAME (R92, R93): ten pulses of 833 PT, the levels of R62; the parity unit's level is the exclusive or of the data
units' levels, spacing exactly where the number of zero data bits is odd.  On a Bus `tx_par` and the call's own
registers are all that changes, without one only the model's own fields (R250), and bit 7 is not read.  That `tx_par`
keeps the flag after the call, which R14 calls unspecified, is the model's choice (notes/assumptions/16.md), and so are
the answer without a Bus (8.md) and a call from outside in every state (45.md), the lock held or free (R243; 51.md). -/
def Obligations.FrameResult : Prop :=
  ∀ (c : Byte) (s : State), ∃ t ps par, exec (.frame c) s = .next t ∧
    (s.busValid = true →
      t = { s with txPar := par, txUnit := t.txUnit, draws := s.draws + 1, ret := .pulses ps }) ∧
    (s.busValid = false → t = { s with draws := s.draws + 1, ret := .pulses ps }) ∧
    ps.length = 10 ∧ (∀ p ∈ ps, p.dur = 833) ∧
    (ps.map Pulse.level)[0]? = some .spacing ∧
    (∀ k < 7, (ps.map Pulse.level)[k + 1]? = some (if c.getLsbD k then .marking else .spacing)) ∧
    (ps.map Pulse.level)[8]? = some (if par then .spacing else .marking) ∧
    (ps.map Pulse.level)[9]? = some .marking ∧
    par = decide (((List.range 7).countP (fun k => !c.getLsbD k)) % 2 = 1) ∧
    par = (!c.getLsbD 0 ^^ !c.getLsbD 1 ^^ !c.getLsbD 2 ^^ !c.getLsbD 3 ^^ !c.getLsbD 4 ^^ !c.getLsbD 5 ^^
      !c.getLsbD 6) ∧
    ∃ u, exec (.frame (c ^^^ 0x80#8)) s = .next u ∧ u.ret = .pulses ps

/-- The runs of equal levels in a stream of frames last 1 to 9 units once merged, and 9 is reached at both levels
(the spec's own inference, "The longest run of equal levels inside a stream of back-to-back frames is nine units",
30_encoding.md section 6). -/
def Obligations.FrameRuns : Prop :=
  (∀ (cs : List Byte), ∀ p ∈ waveform (cs.flatMap framePulses), ∃ k, 1 ≤ k ∧ k ≤ 9 ∧ p.dur = 833 * k) ∧
  waveform (framePulses 0x00#8) = [⟨.spacing, 833 * 9⟩, ⟨.marking, 833⟩] ∧
  waveform (framePulses 0x7F#8) = [⟨.spacing, 833⟩, ⟨.marking, 833 * 9⟩]

/-- ENCODE and PREAMBLE (R90, R91, R94): the break at spacing, the post-break marking, and then one frame per character in
order; the length and the duration.  `CMD` and `TXQ` are used only under the lock (R56): with it, on a Bus, the encoder's own
registers are all that changes beside `TXQ`; without either only the model's own fields do (R250, notes/assumptions/8.md,
27.md).  The model's choices: while a transaction runs ENCODE is refused (21.md), and without the lock, or past the
characters that `CMD` has room for, the characters may be any (27.md). -/
def Obligations.EncodeResult : Prop :=
  ∀ s : State,
    exec .preamble s = .next { s with ret := .pulses [⟨.spacing, s.tp.breakDur⟩, ⟨.marking, s.tp.markDur⟩] } ∧
    (s.seqState ≠ .idle → exec .encode s = .refused .unitsInUse) ∧
    (s.seqState = .idle → ∃ t ps, exec .encode s = .next t ∧
      (s.busValid = true → s.lockHeld = true → t = { s with
        txq := ps, txIdx := t.txIdx, txUnit := t.txUnit, txPar := t.txPar, draws := s.draws + 1, ret := .pulses ps }) ∧
      (s.busValid = false ∨ s.lockHeld = false → t = { s with draws := s.draws + 1, ret := .pulses ps }) ∧
      ps.take 2 = [⟨.spacing, s.tp.breakDur⟩, ⟨.marking, s.tp.markDur⟩] ∧
      (∀ k < s.cmdLen, ∃ c, (ps.drop (2 + 10 * k)).take 10 = framePulses c ∧
        (s.lockHeld = true → k < s.cfg.cmdMax → c = Memory.read s.cmd k)) ∧
      ps.length = 2 + 10 * s.cmdLen ∧
      (ps.map Pulse.dur).sum = s.tp.breakDur + s.tp.markDur + 8330 * s.cmdLen)

/-! ## The Pulse Codec, receive side -/

/-- UNITS (R106): rounding to the nearest, and its thresholds, which are the spec's own inference ("Thresholds", the same
rule). -/
def Obligations.UnitsThresholds : Prop :=
  ∀ (d : Nat) (s : State), ∃ u, exec (.units d) s = .next { s with ret := .nat u } ∧ u = (2 * d + 833) / 1666 ∧
    (∀ k, u = k ↔ 833 * k ≤ d + 416 ∧ d ≤ 833 * k + 416) ∧
    (u = 0 ↔ d ≤ 416) ∧ (u = 1 ↔ 417 ≤ d ∧ d ≤ 1249) ∧ (u = 9 ↔ 7081 ≤ d ∧ d ≤ 7913) ∧ (10 ≤ u ↔ 7914 ≤ d)

/-- DECODE is total, for every capacity (R121, R116), and under the lock leaves the buffer and the length as R117 has them:
every other buffer, and every byte past those the exit names, reads as before.  `RXQ` and `SRQ` are used only under the
lock (R56): without it, or without a Bus (R250), only the model's own fields change (notes/assumptions/8.md, 27.md).  The
model's choices: it is refused while a transaction runs (R52, R56; 21.md), and of more pulses than `RXQ` holds, or with more
capacity than `SRQ` has (R40), it runs too, with nothing written at or past `SRQ_CAP` (27.md); the buffer on the exits
other than `OK` is the pseudocode's (40.md). -/
def Obligations.DecodeExits : Prop :=
  ∀ (n cap : Nat) (d : Dst) (s : State),
    (s.seqState ≠ .idle → exec (.decode n d cap) s = .refused .unitsInUse) ∧
    (s.seqState = .idle → s.busValid = false ∨ s.lockHeld = false →
      ∃ st len, exec (.decode n d cap) s = .next { s with draws := s.draws + 1, ret := .line st len } ∧
        (st = .ok ∨ st = .fail ∨ st = .invalidSize ∨ st = .notFound) ∧ len ≤ cap) ∧
    (s.seqState = .idle → s.busValid = true → s.lockHeld = true →
    ∃ t st len, exec (.decode n d cap) s = .next t ∧
      t = { s with rsp := t.rsp, rspLen := t.rspLen, srq := t.srq, srqLen := t.srqLen, decState := t.decState,
                   acc := t.acc, rxPar := t.rxPar, rxPulseIdx := t.rxPulseIdx, rxUnitsLeft := t.rxUnitsLeft,
                   rxLevel := t.rxLevel, draws := s.draws + 1, ret := .line st len } ∧
      (d = .rsp → t.srq = s.srq ∧ t.srqLen = s.srqLen ∧ t.rspLen = len) ∧
      (d = .srq → t.rsp = s.rsp ∧ t.rspLen = s.rspLen ∧ t.srqLen = len ∧
        ∀ j, s.cfg.srqCap ≤ j → Memory.read t.srq j = Memory.read s.srq j) ∧
      (st = .ok ∨ st = .fail ∨ st = .invalidSize ∨ st = .notFound) ∧ len ≤ cap ∧
      (st = .ok → len + 2 ≤ cap ∧
        ((d = .srq → len < s.cfg.srqCap) → Memory.read (t.buf (dstBuf d)) len = 0x00#8) ∧
        ((d = .srq → len + 1 < s.cfg.srqCap) → Memory.read (t.buf (dstBuf d)) (len + 1) = 0x0A#8) ∧
        ∀ j, len + 2 ≤ j → Memory.read (t.buf (dstBuf d)) j = Memory.read (s.buf (dstBuf d)) j) ∧
      (st = .invalidSize → len = cap) ∧
      (st ≠ .ok → ∀ j, len ≤ j → Memory.read (t.buf (dstBuf d)) j = Memory.read (s.buf (dstBuf d)) j))

/-- The codec's round trip, the spec's own inference ("DECODE applied to the output of ENCODE", 40_codec_encode.md): the
frames of a string, with or without the preamble, merged or not, each pulse as any duration that rounds to its bit
widths shows it (R106), in `RXQ` under the lock (R56).  With `CR` `LF` at its end only, they decode to `OK` and to the characters before it, each seen
through seven bits; without a line end, to `NOT_FOUND` with the characters in the buffer, as the pseudocode leaves them
(notes/assumptions/40.md). -/
def Obligations.RoundTrip : Prop :=
  ∀ (cs ending : List Byte) (tp : Timing) (nominal : List Pulse) (cap : Nat) (d : Dst) (s : State),
    s.busValid = true → s.lockHeld = true → s.seqState = .idle →
    cs.length + ending.length ≤ cap → (d = .srq → cs.length + ending.length ≤ s.cfg.srqCap) → ¬holdsLineEnd cs →
    outsideWindow tp.breakDur → outsideWindow tp.markDur → 0 < tp.breakDur → 0 < tp.markDur →
    ending = [0x0D#8, 0x0A#8] ∨ ending = [] →
    nominal ∈ [encodePulses tp (cs ++ ending), (cs ++ ending).flatMap framePulses,
      waveform (encodePulses tp (cs ++ ending)), waveform ((cs ++ ending).flatMap framePulses)] →
    List.Forall₂ shows s.rxq nominal →
    ∃ t, exec (.decode s.rxq.length d cap) s = .next t ∧
      t.ret = .line (if ending = [] then .notFound else .ok) cs.length ∧
      (∀ k c, cs[k]? = some c → Memory.read (t.buf (dstBuf d)) k = c &&& 0x7F#8) ∧
      (ending ≠ [] → Memory.read (t.buf (dstBuf d)) cs.length = 0x00#8 ∧
        Memory.read (t.buf (dstBuf d)) (cs.length + 1) = 0x0A#8)

/-- What DECODE, under the lock (R56), does with a frame that is wrong, or one too many, after any number of good characters
(R110, R112, R113, R120): a wrong parity unit first, then a spacing stop unit, then a full buffer; and the good characters are in the buffer
(R117), each seen through seven bits.  `INVALID_SIZE` is promised them (R110, U6); with `FAIL` they are the pseudocode's
(notes/assumptions/40.md). -/
def Obligations.BadFrames : Prop :=
  ∀ (cs : List Byte) (d0 d1 d2 d3 d4 d5 d6 par stop : Level) (rest : List Pulse) (cap : Nat) (d : Dst) (s : State),
    s.busValid = true → s.lockHeld = true → s.seqState = .idle → cs.length ≤ cap →
    (d = .srq → cs.length ≤ s.cfg.srqCap) → ¬holdsLineEnd cs → s.rxq = cs.flatMap framePulses ++
      [Level.spacing, d0, d1, d2, d3, d4, d5, d6, par, stop].map (fun l => ⟨l, 833⟩) ++ rest →
    (levelBit par = (levelBit d0 ^^ levelBit d1 ^^ levelBit d2 ^^ levelBit d3 ^^ levelBit d4 ^^ levelBit d5 ^^
        levelBit d6) → stop = .marking → cs.length = cap) →
    ∃ t, exec (.decode s.rxq.length d cap) s = .next t ∧
      t.ret = .line (if levelBit par ≠ (levelBit d0 ^^ levelBit d1 ^^ levelBit d2 ^^ levelBit d3 ^^ levelBit d4 ^^
          levelBit d5 ^^ levelBit d6) then .fail
        else if stop = .spacing then .fail else .invalidSize) cs.length ∧
      ∀ k c, cs[k]? = some c → Memory.read (t.buf (dstBuf d)) k = c &&& 0x7F#8

/-- A pulse of no unit or of ten or more changes nothing, wherever it stands (R107): DECODE under the lock (R56) with it ends
as DECODE without it, the input `RXQ` and the registers that do not outlive the call (R18) apart. -/
def Obligations.IgnoredPulse : Prop :=
  ∀ (ps qs : List Pulse) (p : Pulse) (cap : Nat) (d : Dst) (s : State), s.busValid = true →
    s.lockHeld = true → s.seqState = .idle → outsideWindow p.dur →
    ∃ t u, exec (.decode (ps ++ qs).length d cap) { s with rxq := ps ++ qs } = .next t ∧
      exec (.decode (ps ++ p :: qs).length d cap) { s with rxq := ps ++ p :: qs } = .next u ∧
      u = { t with rxq := ps ++ p :: qs, rxPulseIdx := u.rxPulseIdx, rxUnitsLeft := u.rxUnitsLeft,
                   rxLevel := u.rxLevel }

/-! ## The Checksum Unit -/

/-- One byte step in closed form, the spec's own inference ("One byte step in closed form", 42_checksum.md):
`(x >> 8) ^ T[x[7:0]]` with `T[v]` the eight iterations on `v`. -/
def Obligations.CrcTableStep : Prop :=
  ∀ (crc : Word16) (b : Byte),
    crcByte crc b = ((crc ^^^ b.setWidth 16) >>> 8) ^^^
      crcEight (((crc ^^^ b.setWidth 16).extractLsb' 0 8).setWidth 16)

/-- CRC16 (R130, R132) of the first `m` bytes of a byte buffer, for every buffer and every `m` (R8): from 0x0000, the bytes
in index order, each into the low bits and then eight iterations; on a Bus the running register, which keeps the value
(notes/assumptions/39.md), and the model's own fields are all that changes, without one those fields alone (8.md).  The
model's choices: past the valid bytes, which R31 lets no operation read, and in `CMD` and `SRQ` without the lock, under which
alone they are used (R56), the bytes may be any (27.md), and the call runs in every state (45.md), the lock held or free
(R243; 51.md). -/
def Obligations.Crc16Result : Prop :=
  (∀ (b : Buf) (m : Nat) (s : State), ∃ (v : Word16) (bs : List Byte), exec (.crc16 b m) s =
      .next { s with crc := if s.busValid then v else s.crc, draws := s.draws + 1, ret := .word v } ∧
    v = bs.foldl crcByte 0x0000#16 ∧ bs.length = m ∧
    ∀ k < m, (match b with
      | .cmd => s.lockHeld = true ∧ k < s.cmdLen ∧ k < s.cfg.cmdMax
      | .rsp => k < s.rspLen
      | .srq => s.lockHeld = true ∧ k < s.srqLen ∧ k < s.cfg.srqCap) → bs[k]? = some (Memory.read (s.buf b) k)) ∧
  (∀ (crc : Word16) (b : Byte), crcByte crc b = Nat.repeat (fun x : Word16 =>
    if x.toNat % 2 = 1 then (x >>> 1) ^^^ 0xA001#16 else x >>> 1) 8 (crc ^^^ b.setWidth 16)) ∧
  crcOf [0x30#8, 0x2B#8, 0x33#8, 0x2E#8, 0x31#8, 0x34#8] = 0xFC5A#16

/-- CRCENC (R133) and the three CRC3 rows (R70): each character is its field of the value plus 0x40; nothing else changes,
and two values never share their three characters.  R70 gives the CRC3 rows as formats, and R137 has CRCENC inside VERIFY
only: that each CRC3 row, run on its own, answers its character (notes/assumptions/29.md), and that these rows run in
every state, a transaction in progress or not (45.md), are the model's choices. -/
def Obligations.CrcencResult : Prop :=
  (∀ (v : Word16) (s : State), ∃ k0 k1 k2 : Byte,
    exec (.crcenc v) s = .next { s with ret := .chars [k0, k1, k2] } ∧
    k0.toNat = 0x40 + v.toNat / 4096 ∧ k1.toNat = 0x40 + v.toNat / 64 % 64 ∧ k2.toNat = 0x40 + v.toNat % 64) ∧
  (∀ (f : BitVec 4) (g h : BitVec 6) (s : State), ∃ k0 k1 k2 : Byte,
    exec (.crc3k0 f) s = .next { s with ret := .chars [k0] } ∧ k0.toNat = 0x40 + f.toNat ∧
    exec (.crc3k1 g) s = .next { s with ret := .chars [k1] } ∧ k1.toNat = 0x40 + g.toNat ∧
    exec (.crc3k2 h) s = .next { s with ret := .chars [k2] } ∧ k2.toNat = 0x40 + h.toNat) ∧
  (∀ v w : Word16, crcChars v = crcChars w → v = w)

/-- VERIFY (R134, R135): `OK` exactly where the line has three characters or more and its last three are those of the
checksum of the rest; `RSP` and `rsp_len` stay, and nothing else changes but the unit's own running value.  That it runs
in every state, called from outside, the lock held or free (R243), is the model's choice (notes/assumptions/45.md,
51.md). -/
def Obligations.VerifyResult : Prop :=
  ∀ s : State, ∃ t st, exec .verify s = .next t ∧ t = { s with crc := t.crc, ret := .status st } ∧
    (st = .ok ∨ st = .invalidChecksum) ∧
    (s.rspLen < 3 → st = .invalidChecksum) ∧
    (3 ≤ s.rspLen → ∃ c, c = crcOf (Memory.slice s.rsp 0 (s.rspLen - 3)) ∧
      (st = .ok ↔ (Memory.read s.rsp (s.rspLen - 3)).toNat = 0x40 + c.toNat / 4096 ∧
        (Memory.read s.rsp (s.rspLen - 2)).toNat = 0x40 + c.toNat / 64 % 64 ∧
        (Memory.read s.rsp (s.rspLen - 1)).toNat = 0x40 + c.toNat % 64))

/-- The checksum laws (R136): a string with its own checksum verifies; with one bit of the string complemented its CRC
is another and it does not; nor with one bit of a checksum character complemented.  That the CRC is another is the
spec's own inference ("CRC16 is linear over exclusive or", the same rule), and that VERIFY runs in every state, called
from outside (R137), the lock held or free (R243), the model's choice (notes/assumptions/45.md, 51.md). -/
def Obligations.ChecksumLaws : Prop :=
  ∀ (p q : List Byte) (s : State), s.rspLine = q →
    (q = p ++ crcChars (crcOf p) → ∃ v, exec .verify s = .next { s with crc := v, ret := .status .ok }) ∧
    (∀ i j b, i < p.length → j < 8 → p[i]? = some b → crcOf (p.set i (b ^^^ (1#8 <<< j))) ≠ crcOf p ∧
      (q = p.set i (b ^^^ (1#8 <<< j)) ++ crcChars (crcOf p) →
        ∃ v, exec .verify s = .next { s with crc := v, ret := .status .invalidChecksum })) ∧
    (∀ i j b, i < 3 → j < 8 → (crcChars (crcOf p))[i]? = some b →
      q = p ++ (crcChars (crcOf p)).set i (b ^^^ (1#8 <<< j)) →
      ∃ v, exec .verify s = .next { s with crc := v, ret := .status .invalidChecksum })

/-! ## The bus services -/

/-- CREATE (R180, R181), on a block without a Bus and on one with.  That the registers the pseudocode does not write stay
as they are is the model's reading where R34 calls them unspecified (notes/assumptions/17.md, 18.md). -/
def Obligations.CreateResult : Prop :=
  ∀ (line brk mark : Nat) (s : State),
    (s.busValid = true → exec (.create line brk mark) s = .next { s with ret := .status .invalidArg }) ∧
    (s.busValid = false →
      ∃ b m, exec (.create line brk mark) s = .next { s with
        lineId := line, tp := { breakDur := b, markDur := m }, dirMode := .idle, dirFailed := none, lockHeld := false,
        lockWaiters := [], seqState := .idle, busValid := true, ret := .status .ok } ∧
        (brk = 0 → b = 12200) ∧ (brk ≠ 0 → b = brk) ∧ (mark = 0 → m = s.cfg.markDefault) ∧ (mark ≠ 0 → m = mark))

/-- DESTROY (R182, R253): the Bus gone, and nothing said of any register or buffer that R34 leaves unspecified without one;
what stays is `dir_mode` (R182), the free lock, `Q_IDLE`, and what is not the block's.  Without a Bus `INVALID_ARG`;
with a requester on it, no meaning.  Which of the requesters' and the host's data stay is the model's reading
(notes/assumptions/17.md). -/
def Obligations.DestroyResult : Prop :=
  ∀ s : State,
    (s.busValid = false → exec .destroy s = .next { s with ret := .status .invalidArg }) ∧
    (s.busValid = true → s.lockHeld = false → s.lockWaiters = [] → ∃ t, exec .destroy s = .next t ∧
      t = { t with busValid := false, cfg := s.cfg, dirMode := s.dirMode, dirFailed := s.dirFailed,
                   lockHeld := false, lockWaiters := [], seqState := s.seqState, ports := s.ports,
                   sessions := s.sessions, inputs := s.inputs, script := s.script, draws := s.draws + 1,
                   ret := .status .ok, envLog := s.envLog }) ∧
    (s.busValid = true → s.lockHeld = true ∨ s.lockWaiters ≠ [] → exec .destroy s = .refused .busInUse)

/-- LOCK (R184) by a requester with no call outstanding: with the lock free and nobody waiting it is granted at once;
with it held the requester joins the set of waiters; with others waiting, one of all the waiters is granted.  A lock
held outside a SEND is the model's (notes/assumptions/21.md). -/
def Obligations.LockResult : Prop :=
  ∀ (r : Nat) (p : Port) (s : State), s.busValid = true → s.ports[r]? = some p → p.act = .free →
    (∀ x, x ∈ insertWaiter r s.lockWaiters ↔ x = r ∨ x ∈ s.lockWaiters) ∧
    (s.lockHeld = false → s.lockWaiters = [] → exec (.lock r) s = .next { s with
      lockHeld := true, lockOwner := r, ports := s.ports.set r { p with act := .holding } }) ∧
    (s.lockHeld = true → exec (.lock r) s = .next { s with
      lockWaiters := insertWaiter r s.lockWaiters, ports := s.ports.set r { p with act := .locking } }) ∧
    (s.lockHeld = false → (∀ w ∈ s.lockWaiters, w < s.ports.length) → ∃ w t, (w = r ∨ w ∈ s.lockWaiters) ∧
      exec (.lock r) s = .next t ∧
      State.Granted { s with
        lockWaiters := insertWaiter r s.lockWaiters, ports := s.ports.set r { p with act := .locking } } w t)

/-- UNLOCK (R185): by the owner once its transaction has ended and the line is restored (R163) the lock is free; by anyone
else, or before, it has no meaning (the model's refusals, notes/assumptions/21.md).  That `lock_owner`, meaningless
then, stays as it was is the model's choice (18.md). -/
def Obligations.UnlockResult : Prop :=
  ∀ (r : Nat) (p : Port) (s : State), s.busValid = true → s.ports[r]? = some p →
    (s.lockHeld = true → s.lockOwner = r → s.seqState = .idle →
      s.dirFailed = some .idle ∨ (s.dirFailed = none ∧ s.dirMode = .idle) → exec (.unlock r) s = .next { s with
        lockHeld := false, ports := s.ports.set r { p with act := .free }, ret := .nothing }) ∧
    (s.lockHeld = true → s.lockOwner = r → s.seqState = .idle →
      ¬(s.dirFailed = some .idle ∨ (s.dirFailed = none ∧ s.dirMode = .idle)) →
      exec (.unlock r) s = .refused .lineNotRestored) ∧
    (¬(s.lockHeld = true ∧ s.lockOwner = r ∧ s.seqState = .idle) → exec (.unlock r) s = .refused .notLockOwner)

/-- SETDIR (R186) under the lock: the mode is the one asked for if the environment acknowledges; the request is made
whatever the mode was, and only the mode and the model's own fields change.  Without the lock it is refused, which is
the model's choice (notes/assumptions/21.md). -/
def Obligations.SetdirResult : Prop :=
  ∀ (m : Dir) (s : State), s.busValid = true → s.seqState = .idle →
    (s.lockHeld = true → ∃ t ok, exec (.setdir m) s = .next t ∧
      t = { s with dirMode := t.dirMode, dirFailed := if ok then none else some m,
                   script := { s.script with setDirs := s.script.setDirs.tail },
                   draws := s.draws + 2, envLog := .setDir s.lineId m ok :: s.envLog, ret := .ack ok } ∧
      (ok = true → t.dirMode = m) ∧ (∀ b bs, s.script.setDirs = b :: bs → ok = b)) ∧
    (s.lockHeld = false → exec (.setdir m) s = .refused .lockNotHeld)

/-- The three requests to the environment (R189 to R191), each under the lock (R247) and in the mode the block issues it
in: one request on the Bus's line, one answer, and `RXQ` holding what a capture delivered.  Without the lock none is made,
which is the model's refusal (notes/assumptions/21.md), and where the answers come from is its own (9.md). -/
def Obligations.EnvironmentRequests : Prop :=
  ∀ s : State, s.busValid = true → s.seqState = .idle →
    (s.lockHeld = true → s.dirMode = .transmit → ∃ ok, exec .envEmit s =
      .next { s with script := { s.script with emits := s.script.emits.tail }, draws := s.draws + 1,
                     envLog := .emit s.lineId s.txq ok :: s.envLog, ret := .ack ok } ∧
      ∀ b bs, s.script.emits = b :: bs → ok = b) ∧
    (∀ budget, 1 ≤ budget → s.lockHeld = true → s.dirMode = .receive → ∃ c ps, exec (.envCapture budget) s =
      .next { s with script := { s.script with captures := s.script.captures.tail }, draws := s.draws + 1,
                     rxq := ps, envLog := .capture s.lineId budget c :: s.envLog, ret := .capture c } ∧
      (∀ qs e, c = .captured qs e → ps = qs) ∧ (c = .timeout ∨ c = .fail → ps = s.rxq) ∧
      (s.script.captures = [] → ∀ qs e, c = .captured qs e → 1 ≤ e ∧ e ≤ budget) ∧
      (∀ b bs, s.script.captures = b :: bs → c = b)) ∧
    (∀ m, s.lockHeld = true → ∃ ok, exec (.envSetdir m) s =
      .next { s with script := { s.script with setDirs := s.script.setDirs.tail }, draws := s.draws + 1,
                     envLog := .setDir s.lineId m ok :: s.envLog, ret := .ack ok } ∧
      ∀ b bs, s.script.setDirs = b :: bs → ok = b) ∧
    (s.lockHeld = false → exec .envEmit s = .refused .lockNotHeld ∧
      (∀ budget, exec (.envCapture budget) s = .refused .lockNotHeld) ∧
      ∀ m, exec (.envSetdir m) s = .refused .lockNotHeld)

/-- The sequencer grants a free lock to one of the waiters (R184), and any of them can be the one: the next scripted
choice decides it (the model's own, notes/assumptions/11.md). -/
def Obligations.GrantChoice : Prop :=
  ∀ s : State, s.inputs = [] → s.seqState = .idle → s.lockHeld = false → s.lockWaiters ≠ [] →
    (∀ w ∈ s.lockWaiters, w < s.ports.length) →
    (∃ w t, w ∈ s.lockWaiters ∧ step s = .next t ∧ s.Granted w t) ∧
    (∀ k w rest, 2 ≤ s.lockWaiters.length → s.lockWaiters[k]? = some w → s.script.grants = k :: rest →
      ∃ t, step s = .next t ∧ s.Granted w t)

/-! ## SEND, VALID, CLASS, READLINE -/

/-- VALID (R146): the five conjuncts, and nothing changes but the answer. -/
def Obligations.ValidResult : Prop :=
  ∀ (req : Request) (s : State), ∃ b, exec (.valid req) s = .next { s with ret := .bool b } ∧
    (b = true ↔ s.Accepts req)

/-- A SEND that VALID refuses (R146: `State.Accepts` has its five conjuncts) returns `INVALID_ARG` with length 0 at once,
whatever transaction is in progress: no lock, no register of the block, no byte of `RSP`, no request to the environment.
Its record is latched as that of every call (R20, R55). -/
def Obligations.SendInvalid : Prop :=
  ∀ (r : Nat) (req : Request) (p : Port) (s : State), s.ports[r]? = some p → p.act = .free → ¬s.Accepts req →
    exec (.send r req) s = .next { s with
      ports := s.ports.set r
        { p with req := req, result := some (.invalidArg, 0), verb := none, verbResult := none } }

/-- A requester with a call outstanding, or one the block does not have, cannot issue a SEND (R183, R238): it has no
meaning (the model's refusals, notes/assumptions/22.md). -/
def Obligations.SendRefused : Prop :=
  (∀ (r : Nat) (req : Request) (s : State), s.ports[r]? = none → exec (.send r req) s = .refused .noSuchRequester) ∧
  (∀ (r : Nat) (req : Request) (p : Port) (s : State), s.ports[r]? = some p → p.act ≠ .free →
    exec (.send r req) s = .refused .requesterBusy)

/-- A SEND that VALID accepts (R147, R55, R20), called by a task or by a host's verb `v` that then waits for it (R200): its
record is latched; with the lock free and nobody waiting its transaction begins with the record loaded, with the lock
held its requester waits, with others waiting one of all the waiters is granted.  The verbs end in the same `sendBy`
(PlainVerbs, SessionVerbs, IndexedVerbs); that a port keeps its verb is the model's (notes/assumptions/35.md). -/
def Obligations.SendValid : Prop :=
  ∀ (r : Nat) (req : Request) (p : Port) (v : Option Verb) (s : State),
    s.ports[r]? = some p → p.act = .free → s.Accepts req →
    let q : Port := { p with act := .sending, req := req, result := none, verb := v, verbResult := none }
    let u : State := { s with ports := s.ports.set r q, lockWaiters := insertWaiter r s.lockWaiters }
    exec (.send r req) s = .next (s.sendBy r req none) ∧
    (s.lockHeld = false → s.lockWaiters = [] → ∃ t, s.sendBy r req v = t ∧ u.Granted r t ∧
      t.seqState = .dirTx ∧ t.reqId = r ∧ t.ports[r]? = some q ∧
      ∀ k b, req.cmd[k]? = some b → Memory.read t.cmd k = b) ∧
    (s.lockHeld = true → s.sendBy r req v = u) ∧
    (s.lockHeld = false → (∀ w ∈ s.lockWaiters, w < s.ports.length) → ∃ w t, (w = r ∨ w ∈ s.lockWaiters) ∧
      s.sendBy r req v = t ∧ u.Granted w t)

/-- CLASS (R71): the total function of `CMD[1]`, exact and case sensitive; nothing else changes but the model's own
fields.  The model's choices: it runs in every state, called from outside (notes/assumptions/45.md), and where `CMD` holds
no second character, which R31 lets no operation read, or the lock is free, without which `CMD` is not used (R56), the class
is that of some character (27.md). -/
def Obligations.ClassResult : Prop :=
  ∀ s : State, ∃ v : Byte, (s.lockHeld = true → 2 ≤ s.cmdLen → 2 ≤ s.cfg.cmdMax → v = Memory.read s.cmd 1) ∧
    exec .classify s = .next { s with draws := s.draws + 1, ret := .cls (
      if v = 0x4D#8 ∨ v = 0x56#8 ∨ v ∈ s.cfg.hvSet then .meas
      else if s.cfg.cWaits = true ∧ v = 0x43#8 then .meas
      else if v = 0x44#8 ∨ v = 0x52#8 then .data
      else .other) }

/-- READLINE ends (R155, R240) with one of its four statuses, a length within the capacity (0 for `TIMEOUT`), and no byte
of another buffer, or at or past the capacity, changed.  The model's choices: with more capacity than `SRQ` has (R40) it runs
too (notes/assumptions/27.md), and the registers of a transaction that it does not write, `seconds` among them (R23), keep
what they held (48.md), and a budget of 0 needs no lock (R243; 51.md). -/
def Obligations.ReadlineResult : Prop :=
  ∀ (d : Dst) (cap budget : Nat) (s : State), s.busValid = true → s.seqState = .idle →
    (budget = 0 ∨ s.lockHeld = true ∧ s.dirMode = .receive) →
    ∃ t st len, exec (.readline d cap budget) s = .next t ∧
      t = { s with rsp := t.rsp, rspLen := t.rspLen, srq := t.srq, srqLen := t.srqLen, rxq := t.rxq, tRem := t.tRem,
                   decState := t.decState, acc := t.acc, rxPar := t.rxPar, rxPulseIdx := t.rxPulseIdx,
                   rxUnitsLeft := t.rxUnitsLeft, rxLevel := t.rxLevel, script := t.script, draws := t.draws,
                   envLog := t.envLog, ret := .line st len } ∧
      (st = .ok ∨ st = .timeout ∨ st = .fail ∨ st = .invalidSize) ∧ len ≤ cap ∧ (st = .ok → 1 ≤ len) ∧
      (st = .timeout → len = 0) ∧ t.tRem ≤ budget ∧
      (d = .rsp → t.srq = s.srq ∧ t.srqLen = s.srqLen ∧ t.rspLen = len) ∧
      (d = .srq → t.rsp = s.rsp ∧ t.rspLen = s.rspLen ∧ t.srqLen = len) ∧
      (∀ j, cap ≤ j ∨ (d = .srq ∧ s.cfg.srqCap ≤ j) →
        Memory.read (t.buf (dstBuf d)) j = Memory.read (s.buf (dstBuf d)) j) ∧
      (s.ScriptKeepsContract → t.envLog.length ≤ s.envLog.length + budget)

/-- How READLINE ends at its first capture or goes on (R151 to R155): a budget of 0 is `TIMEOUT` with no capture; an
answer `timeout` or `fail` is that status with length 0; a line is `OK`; a codec error is terminal; a blank line or an
incomplete capture is read on, with what is left of the budget.  The length with a codec error is DECODE's, which is the
model's reading (notes/assumptions/26.md); that it runs with more capacity than `SRQ` has (27.md), and with a budget of 0
without the lock (R243; 51.md), is its choice. -/
def Obligations.ReadlineRule : Prop :=
  ∀ (d : Dst) (cap : Nat) (s : State), s.busValid = true → s.seqState = .idle →
    (∃ t, exec (.readline d cap 0) s = .next t ∧ t.ret = .line .timeout 0 ∧ t.envLog = s.envLog) ∧
    (s.lockHeld = true → s.dirMode = .receive → ∀ budget c rest, 1 ≤ budget → s.script.captures = c :: rest →
      (c = .timeout → ∃ t, exec (.readline d cap budget) s = .next t ∧ t.ret = .line .timeout 0) ∧
      (c = .fail → ∃ t, exec (.readline d cap budget) s = .next t ∧ t.ret = .line .fail 0) ∧
      (∀ ps elapsed, c = .captured ps elapsed →
        let u := State.takeCapture d cap ps elapsed { s with tRem := budget }
        let st := State.takenStatus d cap ps { s with tRem := budget }
        u.tRem = budget - min elapsed budget ∧ u.rxq = ps ∧
        (st = .ok → u.len d ≠ 0 → exec (.readline d cap budget) s = .next { u with ret := .line .ok (u.len d) }) ∧
        (st = .fail ∨ st = .invalidSize →
          exec (.readline d cap budget) s = .next { u with ret := .line st (u.len d) }) ∧
        (st = .notFound ∨ (st = .ok ∧ u.len d = 0) →
          exec (.readline d cap budget) s = exec (.readline d cap (budget - min elapsed budget)) u)))

/-! ## The CMD rows -/

/-- The measurement rows (R72, R157, R158): `M` and `V`, `H` while it is in `HV_SET`, `C` while `C_WAITS`, and any further
member of `HV_SET`, `D` and `R` among them (the order of R71): a malformed seconds field is `INVALID_RESPONSE`, 0
seconds ends there.  What a row does on its own is the model's reading (notes/assumptions/28.md), and that `t_rem`, `srq_len`
and, with a malformed field, `seconds` (R23) keep what they held is its choice (48.md), as are a call before any SEND (R21; 50.md)
and one with the lock free (R243; 51.md). -/
def Obligations.MeasRows : Prop :=
  ∀ (i : Instr) (s : State), s.busValid = true → s.seqState = .idle → s.status = .ok →
    (i = .cmdM ∨ i = .cmdV ∨ (i = .cmdH ∧ 0x48#8 ∈ s.cfg.hvSet) ∨
      (i = .cmdC ∧ (0x43#8 ∈ s.cfg.hvSet ∨ s.cfg.cWaits = true)) ∨ (i = .cmdD ∧ 0x44#8 ∈ s.cfg.hvSet) ∨
      (i = .cmdR ∧ 0x52#8 ∈ s.cfg.hvSet) ∨ ∃ v, i = .cmdDefault v ∧ v ∈ s.cfg.hvSet) →
    (¬(4 ≤ s.rspLen ∧ ∀ k, 1 ≤ k → k ≤ 3 →
        48 ≤ (Memory.read s.rsp k).toNat ∧ (Memory.read s.rsp k).toNat ≤ 57) →
      exec i s = .next { s with status := .invalidResponse, ret := .cls .meas }) ∧
    (4 ≤ s.rspLen → (∀ k, 1 ≤ k → k ≤ 3 → (Memory.read s.rsp k).toNat = 48) →
      exec i s = .next { s with seconds := 0, ret := .cls .meas })

/-- The measurement rows with seconds to wait (R69, R159, R160): one READLINE into `SRQ` under `seconds * 1000`, and the
status its outcome gives, the line compared with `CMD[0]`; `RSP` keeps the first line.  The rows' meaning is the model's
reading (notes/assumptions/28.md); where `CMD` holds no first character it may be any (27.md), and `seconds` keeps its
value after the row (R23, 48.md), by the model's choice, as is a call before any SEND (R21; 50.md). -/
def Obligations.MeasRowsWait : Prop :=
  ∀ (i : Instr) (a b c : Nat) (s : State), s.seqState = .idle → s.status = .ok → s.busValid = true →
    s.lockHeld = true → s.dirMode = .receive → 4 ≤ s.rspLen → a ≤ 9 → b ≤ 9 → c ≤ 9 → 0 < 100 * a + 10 * b + c →
    (Memory.read s.rsp 1).toNat = 48 + a → (Memory.read s.rsp 2).toNat = 48 + b →
    (Memory.read s.rsp 3).toNat = 48 + c →
    (i = .cmdM ∨ i = .cmdV ∨ (i = .cmdH ∧ 0x48#8 ∈ s.cfg.hvSet) ∨
      (i = .cmdC ∧ (0x43#8 ∈ s.cfg.hvSet ∨ s.cfg.cWaits = true)) ∨ (i = .cmdD ∧ 0x44#8 ∈ s.cfg.hvSet) ∨
      (i = .cmdR ∧ 0x52#8 ∈ s.cfg.hvSet) ∨ ∃ v, i = .cmdDefault v ∧ v ∈ s.cfg.hvSet) →
    ∃ t st len first, exec (.readline .srq s.cfg.srqCap ((100 * a + 10 * b + c) * 1000))
        { s with seconds := 100 * a + 10 * b + c } = .next t ∧ t.ret = .line st len ∧
      (1 ≤ s.cmdLen → 1 ≤ s.cfg.cmdMax → first = Memory.read s.cmd 0) ∧
      exec i s = .next { t with ret := .cls .meas, status :=
        (if st = .timeout then .notFinished
         else if st ≠ .ok then st
         else if Memory.read t.srq 0 = first then .ok else .invalidResponse) } ∧
      t.rsp = s.rsp ∧ t.rspLen = s.rspLen ∧ t.seconds = 100 * a + 10 * b + c

/-- The data rows (R72, R161, R162), their character no member of `HV_SET` (if it is one: MeasRows): nothing without
`require_crc`; with it the line is verified, and stripped of its three checksum characters or reported untruncated (the
rows' meaning: notes/assumptions/28.md; that they run before any SEND and with the lock free is the model's choice, R21,
R243, 50.md and 51.md). -/
def Obligations.DataRows : Prop :=
  ∀ (i : Instr) (s : State), s.busValid = true → s.seqState = .idle → s.status = .ok →
    (i = .cmdD ∧ 0x44#8 ∉ s.cfg.hvSet) ∨ (i = .cmdR ∧ 0x52#8 ∉ s.cfg.hvSet) →
    (s.requireCrc = false → exec i s = .next { s with ret := .cls .data }) ∧
    (s.requireCrc = true → ∃ v st, exec .verify s = .next { s with crc := v, ret := .status st } ∧
      (st = .ok → 3 ≤ s.rspLen ∧ ∃ t, exec i s = .next t ∧
        t = { s with crc := v, rspLen := s.rspLen - 3, rsp := t.rsp, ret := .cls .data } ∧
        Memory.read t.rsp (s.rspLen - 3) = 0x00#8 ∧
        ∀ j, j ≠ s.rspLen - 3 → Memory.read t.rsp j = Memory.read s.rsp j) ∧
      (st = .invalidChecksum →
        exec i s = .next { s with crc := v, status := .invalidChecksum, ret := .cls .data }))

/-- The default row, and the rows whose condition is false (R72, R80): class `OTHER`, nothing further.  Every CMD row on a
transaction that failed before, or without a Bus (R250): its class and nothing further, since steps 4 and 5 run only
after an `OK` first line (R156).  A row with seconds to wait is refused where no capture may be made (R247, R190).  The
rows' meaning on their own is the model's reading (notes/assumptions/28.md, 21.md, 8.md), and that they run before any SEND
(R21; 50.md) and with the lock free (R243; 51.md) its choice. -/
def Obligations.OtherRows : Prop :=
  ∀ (i : Instr) (s : State), s.seqState = .idle → i.WellFormed →
    ((i = .cmdH ∧ 0x48#8 ∉ s.cfg.hvSet) ∨ (i = .cmdC ∧ 0x43#8 ∉ s.cfg.hvSet ∧ s.cfg.cWaits = false) ∨
        (∃ v, i = .cmdDefault v ∧ v ∉ s.cfg.hvSet) →
      exec i s = .next { s with ret := .cls .other }) ∧
    (∀ v, rowOf i v → s.status ≠ .ok ∨ s.busValid = false →
      exec i s = .next { s with ret := .cls (classOf s.cfg v) }) ∧
    (∀ v n, rowOf i v → s.status = .ok → s.busValid = true → classOf s.cfg v = .meas → s.secondsField = some n →
      0 < n → (s.lockHeld = false → exec i s = .refused .lockNotHeld) ∧
        (s.lockHeld = true → s.dirMode ≠ .receive → exec i s = .refused .wrongDirection))

/-! ## The sequencer (R166) -/

/-- The steps of the transmission (R148 to R150): each switch and the emission, acknowledged and failed.  A transaction's
command is never longer than `CMD_MAX` (RequestDisciplineStays), and a transaction holds the lock (LockDisciplineStays), under
which alone `CMD` is used (R56; without it the characters may be any, notes/assumptions/27.md). -/
def Obligations.TransmitSteps : Prop :=
  ∀ s : State, s.inputs = [] →
    (s.seqState = .dirTx → ∃ t, step s = .next t ∧
      t = { s with script := t.script, draws := t.draws, envLog := .setDir s.lineId .transmit s.setDirAnswer :: s.envLog,
                   dirMode := t.dirMode, dirFailed := t.dirFailed, seqState := t.seqState, status := t.status,
                   txq := t.txq, txIdx := t.txIdx, txUnit := t.txUnit, txPar := t.txPar } ∧
      (s.setDirAnswer = true → t.seqState = .emit ∧ t.dirMode = .transmit ∧ t.status = s.status ∧
        (s.lockHeld = true → s.cmdLen ≤ s.cfg.cmdMax → t.txq = encodePulses s.tp (Memory.slice s.cmd 0 s.cmdLen))) ∧
      (s.setDirAnswer = false → t.seqState = .restore ∧ t.status = firstError s.status .fail ∧ t.txq = s.txq)) ∧
    (s.seqState = .emit → step s = .next { s with
      script := { s.script with emits := s.script.emits.tail }, draws := s.draws + 1,
      envLog := .emit s.lineId s.txq s.emitAnswer :: s.envLog,
      seqState := if s.emitAnswer then .dirRx else .restore,
      status := if s.emitAnswer then s.status else firstError s.status .fail }) ∧
    (s.seqState = .dirRx → ∃ t, step s = .next t ∧
      t = { s with script := t.script, draws := t.draws, envLog := .setDir s.lineId .receive s.setDirAnswer :: s.envLog,
                   dirMode := t.dirMode, dirFailed := t.dirFailed, seqState := t.seqState, status := t.status,
                   tRem := t.tRem } ∧
      (s.setDirAnswer = true → t.seqState = .rx1 ∧ t.dirMode = .receive ∧ t.status = s.status ∧
        t.tRem = s.timeout) ∧
      (s.setDirAnswer = false → t.seqState = .restore ∧ t.status = firstError s.status .fail ∧ t.tRem = s.tRem))

/-- The first receive phase where no line comes (R151 to R155): the budget used up, the environment's `timeout` and
`fail`, a capture to be retried and a codec error, with which the length and the buffer are DECODE's: the model's
reading (notes/assumptions/26.md, 40.md). -/
def Obligations.FirstPhaseNoLine : Prop :=
  ∀ s : State, s.inputs = [] → s.seqState = .rx1 →
    (s.tRem = 0 → step s = .next { s with
      rspLen := 0, seqState := .restore, status := firstError s.status .timeout }) ∧
    (s.tRem ≠ 0 → s.captureAnswer s.tRem = .timeout → step s = .next { s.envCapture s.tRem with
      rspLen := 0, seqState := .restore, status := firstError s.status .timeout }) ∧
    (s.tRem ≠ 0 → s.captureAnswer s.tRem = .fail → step s = .next { s.envCapture s.tRem with
      rspLen := 0, seqState := .restore, status := firstError s.status .fail }) ∧
    (∀ ps elapsed, s.tRem ≠ 0 → s.captureAnswer s.tRem = .captured ps elapsed →
      let u := s.takeCapture .rsp s.rspCap ps elapsed
      let st := s.takenStatus .rsp s.rspCap ps
      u.tRem = s.tRem - min elapsed s.tRem ∧ u.rxq = ps ∧ u.seqState = .rx1 ∧
      (st = .notFound ∨ (st = .ok ∧ u.rspLen = 0) → step s = .next u) ∧
      (st = .fail ∨ st = .invalidSize →
        step s = .next { u with seqState := .restore, status := firstError s.status st }))

/-- The first receive phase where a line comes (R156 to R162, R172): the class of the command decides; a wrong address
in the line is not looked at. -/
def Obligations.FirstPhaseLine : Prop :=
  ∀ (s : State) (ps : List Pulse) (elapsed : Nat), s.inputs = [] → s.seqState = .rx1 → s.tRem ≠ 0 →
    s.captureAnswer s.tRem = .captured ps elapsed → s.takenStatus .rsp s.rspCap ps = .ok →
    let u := s.takeCapture .rsp s.rspCap ps elapsed
    u.rspLen ≠ 0 →
    (u.cmdClass = .other → step s = .next { u with seqState := .restore }) ∧
    (u.cmdClass = .data → u.requireCrc = false → step s = .next { u with seqState := .restore }) ∧
    (u.cmdClass = .data → u.requireCrc = true → verifyLine u.rspLine = true → ∃ v, step s = .next { u with
      crc := v, rspLen := u.rspLen - 3,
      rsp := Memory.write u.rsp (u.rspLen - 3) 0x00#8, seqState := .restore }) ∧
    (u.cmdClass = .data → u.requireCrc = true → verifyLine u.rspLine = false → ∃ v, step s = .next { u with
      crc := v, status := firstError s.status .invalidChecksum, seqState := .restore }) ∧
    (u.cmdClass = .meas → u.secondsField = none → step s = .next { u with
      status := firstError s.status .invalidResponse, seqState := .restore }) ∧
    (u.cmdClass = .meas → u.secondsField = some 0 → step s = .next { u with seconds := 0, seqState := .restore }) ∧
    (∀ n, u.cmdClass = .meas → u.secondsField = some n → 0 < n → step s = .next { u with
      seconds := n, tRem := n * 1000, seqState := .rx2 })

/-- The seconds field (R69): defined where the line has four characters and the three are digits, and then their
decimal value, at most 999. -/
def Obligations.SecondsField : Prop :=
  ∀ s : State, (∀ n, s.secondsField = some n ↔ 4 ≤ s.rspLen ∧ ∃ a b c, a ≤ 9 ∧ b ≤ 9 ∧ c ≤ 9 ∧
    (Memory.read s.rsp 1).toNat = 48 + a ∧ (Memory.read s.rsp 2).toNat = 48 + b ∧
    (Memory.read s.rsp 3).toNat = 48 + c ∧ n = 100 * a + 10 * b + c) ∧
  ∀ n, s.secondsField = some n → n ≤ 999

/-- The second receive phase (R159, R160): no line in time is `NOT_FINISHED`, driver and codec errors are terminal, blank
and incomplete captures are retried, and a line is `OK` exactly where it begins with the command's first character.
A transaction's command has a first character (RequestDisciplineStays), and it holds the lock (LockDisciplineStays), under
which alone `CMD` is used (R56; without it the character may be any, notes/assumptions/27.md).  `srq_len` with `TIMEOUT`, `FAIL` and a codec
error is the model's reading (26.md). -/
def Obligations.SecondPhase : Prop :=
  ∀ s : State, s.inputs = [] → s.seqState = .rx2 →
    (s.tRem = 0 → step s = .next { s with
      srqLen := 0, seqState := .restore, status := firstError s.status .notFinished }) ∧
    (s.tRem ≠ 0 → s.captureAnswer s.tRem = .timeout → step s = .next { s.envCapture s.tRem with
      srqLen := 0, seqState := .restore, status := firstError s.status .notFinished }) ∧
    (s.tRem ≠ 0 → s.captureAnswer s.tRem = .fail → step s = .next { s.envCapture s.tRem with
      srqLen := 0, seqState := .restore, status := firstError s.status .fail }) ∧
    (∀ ps elapsed, s.tRem ≠ 0 → s.captureAnswer s.tRem = .captured ps elapsed →
      let u := s.takeCapture .srq s.cfg.srqCap ps elapsed
      let st := s.takenStatus .srq s.cfg.srqCap ps
      u.rsp = s.rsp ∧ u.rspLen = s.rspLen ∧ u.tRem = s.tRem - min elapsed s.tRem ∧
      (st = .notFound ∨ (st = .ok ∧ u.srqLen = 0) → step s = .next u) ∧
      (st = .fail ∨ st = .invalidSize →
        step s = .next { u with seqState := .restore, status := firstError s.status st }) ∧
      (st = .ok → u.srqLen ≠ 0 → s.lockHeld = true → 1 ≤ s.cmdLen → 1 ≤ s.cfg.cmdMax → step s = .next { u with
        seqState := .restore,
        status := if Memory.read u.srq 0 = Memory.read s.cmd 0 then s.status
          else firstError s.status .invalidResponse }))

/-- The restore step (R163, R164, R236): the switch to `IDLE` is asked for, its failure counts only where there was no
error, the lock is free, and the requester has the status, the length and its buffer; no other port is touched.  Where
a verb waits for the SEND, only its own result, the sessions and the model's own fields change further.  That
`lock_owner` stays as it was (notes/assumptions/18.md), that the buffer is handed over from a working copy (19.md), and
that `t_rem` and `seconds`, live only inside the transaction (R23), keep their last values as the request registers and the
shared buffers do (48.md), are the model's. -/
def Obligations.RestoreStep : Prop :=
  ∀ (s : State) (p : Port), s.inputs = [] → s.seqState = .restore → s.ports[s.reqId]? = some p →
    ∃ t u, step s = .next t ∧
      u = { s with script := { s.script with setDirs := s.script.setDirs.tail }, draws := s.draws + 2,
                   envLog := .setDir s.lineId .idle s.setDirAnswer :: s.envLog, dirMode := u.dirMode,
                   dirFailed := if s.setDirAnswer then none else some .idle,
                   status := s.endStatus, seqState := .idle, lockHeld := false,
                   ports := s.ports.set s.reqId
                     { p with act := .free, rsp := s.rsp, result := some (s.endStatus, s.rspLen) } } ∧
      (s.setDirAnswer = true → u.dirMode = .idle) ∧
      (p.verb = none → t = u) ∧
      (∀ v, p.verb = some v → ∃ res, t = { u with
        sessions := t.sessions, script := t.script, draws := t.draws,
        ports := s.ports.set s.reqId
          { p with act := .free, rsp := s.rsp, result := some (s.endStatus, s.rspLen), verb := none,
                   verbResult := some res } })

/-- The sequencer's steps compute SEND's pseudocode (R168): from the grant on, some number of steps ends in the state that
the pseudocode, as one function, gives. -/
def Obligations.SequencerIsSend : Prop :=
  ∀ s : State, s.inputs = [] → s.seqState = .dirTx → s.status = .ok → ∃ n, s.reaches n s.sendWhole

/-- Every transaction ends: within a bound of its budgets the sequencer is back in `Q_IDLE`, with the lock free.  The
spec's own inference ("Every wait inside a transaction is finite", 60_exceptions.md section 6), for the environment of
notes/assumptions/9.md, which always answers (10.md). -/
def Obligations.TransactionEnds : Prop :=
  ∀ s : State, s.inputs = [] → s.seqState ≠ .idle →
    ∃ n t, n ≤ s.timeout + s.tRem + 999000 + s.script.captures.length + 8 ∧ s.reaches n t ∧ t.seqState = .idle ∧
      t.lockHeld = false

/-- The first error wins (R169): while a transaction runs, no step by any agent changes a status that is an error. -/
def Obligations.FirstErrorWins : Prop :=
  ∀ s t : State, s.LockDiscipline → s.seqState ≠ .idle → s.status ≠ .ok → step s = .next t → t.status = s.status

/-! ## Invariants -/

/-- Every step keeps every byte buffer in its canonical form, which is the model's own (notes/assumptions/5.md). -/
def Obligations.BuffersStayCanonical : Prop :=
  ∀ s t : State, s.BuffersCanonical → step s = .next t → t.BuffersCanonical

/-- Every step keeps the lock's discipline: the spec's own inference ("Invariants that hold in every state reachable from
a successful CREATE", 10_state.md section 9, its points 1, 2 and 5), with the waiters as a set of requesters (R13) and
every port's activity as the lock has it (R183), which is the model's own field (notes/assumptions/35.md). -/
def Obligations.LockDisciplineStays : Prop :=
  ∀ s t : State, s.LockDiscipline → step s = .next t → t.LockDiscipline

/-- Every step keeps the direction mode as the transaction established it (R12, R159, R166), and restored while the lock is
free (the spec's own inference, 10_state.md section 9, its point 3; `dirFailed` is the model's, notes/assumptions/35.md). -/
def Obligations.DirectionDisciplineStays : Prop :=
  ∀ s t : State, s.LockDiscipline → s.DirectionDiscipline → step s = .next t → t.DirectionDiscipline

/-- Every step keeps the request registers equal to the owner's latched record, every record latched for a SEND within
VALID's bounds, and every length a requester sees within its capacity (R20, R22, R55, R146). -/
def Obligations.RequestDisciplineStays : Prop :=
  ∀ s t : State, s.LockDiscipline → s.RequestDiscipline → step s = .next t → t.RequestDiscipline

/-- No step makes a SEND end, or a transaction stand, in `NOT_FOUND` or `NO_MEM` (R145, R227, R228). -/
def Obligations.StatusDisciplineStays : Prop :=
  ∀ s t : State, s.LockDiscipline → s.StatusDiscipline → step s = .next t → t.StatusDiscipline

/-- The timing profile and the line do not change while the Bus exists (R11, R181), the profile stays positive, and the
parameters and the number of requesters stay (R33). -/
def Obligations.ConfigurationStays : Prop :=
  ∀ s t : State, step s = .next t → t.cfg = s.cfg ∧ t.ports.length = s.ports.length ∧
    (s.busValid = true → t.busValid = true → t.lineId = s.lineId ∧ t.tp = s.tp) ∧
    (s.TimingPositive → t.TimingPositive)

/-- The direction mode changes only under the lock, or at CREATE (R12, R186). -/
def Obligations.DirModeUnderLock : Prop :=
  ∀ s t : State, s.LockDiscipline → step s = .next t → t.dirMode ≠ s.dirMode →
    s.lockHeld = true ∨ (s.busValid = false ∧ t.busValid = true ∧ t.dirMode = .idle)

/-- A response buffer is written only by its own transaction (R52): a step changes a requester's `RSP` only where that
requester's transaction ends with it.  The block's working copy of the buffer is the model's (notes/assumptions/19.md). -/
def Obligations.RspIsolation : Prop :=
  ∀ (s t : State) (r : Nat) (p q : Port), step s = .next t → s.ports[r]? = some p → t.ports[r]? = some q →
    q.rsp ≠ p.rsp → s.seqState = .restore ∧ t.seqState = .idle ∧ s.reqId = r ∧ q.rsp = s.rsp

/-- A latched record does not change while its SEND is outstanding, and the request registers do not change while the
transaction runs (R20, R55). -/
def Obligations.RequestLatched : Prop :=
  ∀ (s t : State), s.LockDiscipline → step s = .next t →
    (∀ (r : Nat) (p q : Port), s.ports[r]? = some p → t.ports[r]? = some q → p.act = .sending → q.req = p.req) ∧
    (s.seqState ≠ .idle → t.reqId = s.reqId ∧ t.cmdLen = s.cmdLen ∧ t.requireCrc = s.requireCrc ∧
      t.timeout = s.timeout ∧ t.rspCap = s.rspCap ∧ t.cmd = s.cmd)

/-! ## The host's verbs -/

/-- The two verbs without a session (R202 to R204): each issues one SEND, of `a!` or of `?!`, with the
caller's timeout or the default and no checksum, which N16 leaves open (notes/assumptions/31.md). -/
def Obligations.PlainVerbs : Prop :=
  ∀ (via : Via) (a : Byte) (p : Port) (s : State), s.ports[via.requester]? = some p → p.act = .free →
    let req (cmd : List Byte) : Request :=
      { cmd := cmd, requireCrc := false, timeout := via.timeout.getD 1000, rspCap := via.rspCap }
    exec (.newSession via a) s =
      .next (s.sendBy via.requester (req [a, 0x21#8]) (some (.creation (decide (a = 0x3F#8)) a))) ∧
    exec (.addressQuery via) s = .next (s.sendBy via.requester (req [0x3F#8, 0x21#8]) (some .addressQuery))

/-- The verbs on a session that take no index (R203, R205, R207, R211, R212): the exact command each formats from the
session's address, and one SEND (its timeout and its checksum flag: notes/assumptions/31.md).  That it goes to the Bus the
block has then, whichever the session was made on, is the model's choice (R194; 49.md). -/
def Obligations.SessionVerbs : Prop :=
  ∀ (via : Via) (h : Nat) (x : Session) (p : Port) (s : State), s.ports[via.requester]? = some p → p.act = .free →
    s.session h = some x → (∀ q ∈ s.ports, ∀ v, q.verb = some v → v.handle ≠ some h) →
    let req (cmd : List Byte) (check : Bool) : Request :=
      { cmd := cmd, requireCrc := check, timeout := via.timeout.getD 1000, rspCap := via.rspCap }
    exec (.ackActive via h) s =
      .next (s.sendBy via.requester (req [x.addr, 0x21#8] false) (some (.acknowledge h))) ∧
    (∀ b, exec (.changeAddress via h b) s = .next (s.sendBy via.requester
      (req [x.addr, 0x41#8, b, 0x21#8] false) (some (.changeAddress h b)))) ∧
    exec (.readIdentification via h) s = .next (s.sendBy via.requester
      (req [x.addr, 0x49#8, 0x21#8] false) (some (.identification h))) ∧
    exec (.startVerification via h) s = .next (s.sendBy via.requester
      (req [x.addr, 0x56#8, 0x21#8] false) (some (.measurement h))) ∧
    (∀ cmd, exec (.identifyExtended via h cmd) s = .next (s.sendBy via.requester
      (req ([x.addr, 0x49#8] ++ cmd ++ [0x21#8]) false) (some (.passthrough h)))) ∧
    (∀ cmd check, exec (.rawExtended via h cmd check) s = .next (s.sendBy via.requester
      (req ([x.addr] ++ cmd ++ [0x21#8]) check) (some (.passthrough h))))

/-- The verbs that take an index (R206, R208 to R210): the letter, the `C` where a checksum is asked for, the digit (on
the read verbs always; index 0 of the measurement verbs is N19's, so the parameter `idxZeroDigit` decides whether it is
written, notes/assumptions/13.md), and an index past 9 is `INVALID_ARG` without a SEND (the SEND's timeout and checksum
flag: notes/assumptions/31.md).  That the SEND goes to the Bus the block has then, whichever the session was made on, is
the model's choice (R194; 49.md). -/
def Obligations.IndexedVerbs : Prop :=
  ∀ (via : Via) (h : Nat) (x : Session) (p : Port) (crc check : Bool) (n : Nat) (s : State),
    s.ports[via.requester]? = some p → p.act = .free → s.session h = some x →
    (∀ q ∈ s.ports, ∀ v, q.verb = some v → v.handle ≠ some h) →
    let req (cmd : List Byte) (check : Bool) : Request :=
      { cmd := cmd, requireCrc := check, timeout := via.timeout.getD 1000, rspCap := via.rspCap }
    let letter : List Byte := if crc then [0x43#8] else []
    let zero : List Byte := if s.cfg.idxZeroDigit then [0x30#8] else []
    (exec (.startMeasurement via h crc none) s = .next (s.sendBy via.requester
      (req ([x.addr, 0x4D#8] ++ letter ++ [0x21#8]) false) (some (.measurement h)))) ∧
    (exec (.startConcurrent via h crc none) s = .next (s.sendBy via.requester
      (req ([x.addr, 0x43#8] ++ letter ++ [0x21#8]) false) (some (.concurrent h)))) ∧
    (exec (.startMeasurement via h crc (some 0)) s = .next (s.sendBy via.requester
        (req ([x.addr, 0x4D#8] ++ letter ++ zero ++ [0x21#8]) false) (some (.measurement h))) ∧
      exec (.startConcurrent via h crc (some 0)) s = .next (s.sendBy via.requester
        (req ([x.addr, 0x43#8] ++ letter ++ zero ++ [0x21#8]) false) (some (.concurrent h)))) ∧
    (1 ≤ n → n ≤ 9 →
      exec (.startMeasurement via h crc (some n)) s = .next (s.sendBy via.requester
        (req ([x.addr, 0x4D#8] ++ letter ++ [BitVec.ofNat 8 (48 + n), 0x21#8]) false) (some (.measurement h))) ∧
      exec (.startConcurrent via h crc (some n)) s = .next (s.sendBy via.requester
        (req ([x.addr, 0x43#8] ++ letter ++ [BitVec.ofNat 8 (48 + n), 0x21#8]) false) (some (.concurrent h)))) ∧
    (n ≤ 9 →
      exec (.readData via h n check) s = .next (s.sendBy via.requester
        (req [x.addr, 0x44#8, BitVec.ofNat 8 (48 + n), 0x21#8] check) (some (.payload h))) ∧
      exec (.readContinuous via h n check) s = .next (s.sendBy via.requester
        (req [x.addr, 0x52#8, BitVec.ofNat 8 (48 + n), 0x21#8] check) (some (.payload h)))) ∧
    (9 < n →
      let t : State := { s with
        ports := s.ports.set via.requester
          { p with result := none, verb := none, verbResult := some (.invalidArg, .nothing) } }
      exec (.startMeasurement via h crc (some n)) s = .next t ∧ exec (.startConcurrent via h crc (some n)) s = .next t ∧
      exec (.readData via h n check) s = .next t ∧ exec (.readContinuous via h n check) s = .next t)

/-- A verb whose SEND failed returns that error: one whose request VALID refuses (R146) returns `INVALID_ARG` at the call,
its record latched (R20) and no register of the block, no session and no other port changed, and one whose SEND ended in an error that error; one whose
response does not echo the expected address (the session's, or the one a creation was given) returns
`INVALID_RESPONSE`; no session changes (R201).  The order of the two is the
model's (notes/assumptions/34.md), and so is the response of length 0 (14.md) and, for a change of address, the address
expected (32.md). -/
def Obligations.VerbErrors : Prop :=
  (∀ (r : Nat) (req : Request) (p : Port) (v : Verb) (s : State), s.ports[r]? = some p → p.act = .free →
    ¬s.Accepts req → s.sendBy r req (some v) = { s with
      ports := s.ports.set r
        { p with req := req, result := some (.invalidArg, 0), verb := none,
                 verbResult := some (.invalidArg, .nothing) } }) ∧
  ∀ (s : State) (p : Port) (v : Verb), s.inputs = [] → s.seqState = .restore → s.ports[s.reqId]? = some p →
    p.verb = some v →
    (s.endStatus ≠ .ok → ∃ t q, step s = .next t ∧ t.ports[s.reqId]? = some q ∧
      q.verbResult = some (s.endStatus, .nothing) ∧ q.result = some (s.endStatus, s.rspLen) ∧
      t.sessions = s.sessions) ∧
    (∀ a, s.endStatus = .ok →
      (∃ h x, v.handle = some h ∧ s.session h = some x ∧ a = x.addr) ∨ v = .creation false a →
      (Memory.slice s.rsp 0 s.rspLen).head? ≠ some a →
      ∃ t q, step s = .next t ∧ t.ports[s.reqId]? = some q ∧ q.verbResult = some (.invalidResponse, .nothing) ∧
        t.sessions = s.sessions)

/-- What a verb on a session returns once its SEND ended with `OK` and echoed the address (R203, R205, R207 to R212), and
what it writes into the session.  Where the spec leaves a value open: notes/assumptions/12.md, 32.md, 33.md and, for
the line a vendor verb returns whole, 47.md. -/
def Obligations.VerbValues : Prop :=
  ∀ (s : State) (p : Port) (v : Verb) (h : Nat) (x : Session), s.inputs = [] → s.seqState = .restore →
    s.ports[s.reqId]? = some p → p.verb = some v → v.handle = some h → s.session h = some x → s.endStatus = .ok →
    (Memory.slice s.rsp 0 s.rspLen).head? = some x.addr →
    let line := Memory.slice s.rsp 0 s.rspLen
    ∃ t q, step s = .next t ∧ t.ports[s.reqId]? = some q ∧ q.verb = none ∧
      (v = .acknowledge h → q.verbResult = some (.ok, .nothing) ∧ t.sessions = s.sessions) ∧
      (∀ b, v = .changeAddress h b → q.verbResult = some (.ok, .nothing) ∧
        t.sessions = s.sessions.set h (some { x with addr := b })) ∧
      (v = .identification h → line.length < 20 →
        q.verbResult = some (.invalidResponse, .nothing) ∧ t.sessions = s.sessions) ∧
      (v = .identification h → 20 ≤ line.length → q.verbResult = some (.ok, .nothing) ∧
        t.sessions = s.sessions.set h (some { x with ident :=
          { version := if (line.drop 1).take 2 = [0x31#8, 0x33#8] then .v13
                       else if (line.drop 1).take 2 = [0x31#8, 0x34#8] then .v14 else .unknown,
            vendor := (line.drop 3).take 8, model := (line.drop 11).take 6, modelVersion := (line.drop 17).take 3,
            optionalField := line.drop 20 } })) ∧
      (∀ n, v = .measurement h → decimalOf (line.drop 4) = some n →
        q.verbResult = some (.ok, .count n) ∧ t.sessions = s.sessions) ∧
      (∀ n a b c rest m, v = .concurrent h → decimalOf (line.drop 4) = some n → line.drop 1 = a :: b :: c :: rest →
        secondsOf a b c = some m → q.verbResult = some (.ok, .countAfter n m) ∧ t.sessions = s.sessions) ∧
      (v = .payload h → q.verbResult = some (.ok, .bytes (if s.cfg.payloadWithAddr then line else line.drop 1)) ∧
        t.sessions = s.sessions) ∧
      (v = .passthrough h → q.verbResult = some (.ok, .bytes line) ∧ t.sessions = s.sessions)

/-- The ends of a creation and of an address query (R202, R204): the query answers byte 0 of the response; there is no
session unless the sensor answered and the host had memory, and the new one has the address that was given, or that the
query discovered, and an empty identification.  When the allocation is made is the model's (notes/assumptions/30.md).  The
destruction of a session (R183, R202) returns a status (R231), takes that session alone, with or without a Bus, and its
handle has none from then on; while a verb on it is outstanding, or where there is none, it has no meaning (that, and
that the status is `OK`, are the model's, 41.md). -/
def Obligations.CreationEnds : Prop :=
  (∀ (s : State) (p : Port) (v : Verb) (a b : Byte), s.inputs = [] → s.seqState = .restore →
    s.ports[s.reqId]? = some p → p.verb = some v → s.endStatus = .ok →
    (Memory.slice s.rsp 0 s.rspLen).head? = some b →
    (v = .addressQuery → ∃ t q, step s = .next t ∧ t.ports[s.reqId]? = some q ∧
      q.verbResult = some (.ok, .address b) ∧ t.sessions = s.sessions) ∧
    (v = .creation true a ∨ (v = .creation false a ∧ b = a) →
      ∃ t q ok, step s = .next t ∧ t.ports[s.reqId]? = some q ∧ (∀ o os, s.script.allocs = o :: os → ok = o) ∧
        (ok = true → q.verbResult = some (.ok, .session s.sessions.length) ∧
          t.sessions = s.sessions ++ [some { addr := b, ident := Ident.empty }]) ∧
        (ok = false → q.verbResult = some (.noMem, .nothing) ∧ t.sessions = s.sessions))) ∧
  ∀ (s : State) (h : Nat),
    (s.session h = none → s.endSession h = .refused .noSuchSession) ∧
    (∀ x q v, s.session h = some x → q ∈ s.ports → q.verb = some v → v.handle = some h →
      s.endSession h = .refused .sessionInUse) ∧
    (∀ x, s.session h = some x → (∀ q ∈ s.ports, ∀ v, q.verb = some v → v.handle ≠ some h) →
      ∃ t, s.endSession h = .next t ∧ t = { s with sessions := t.sessions, ret := .status .ok } ∧ t.session h = none ∧
        ∀ g, g ≠ h → t.session g = s.session g)
end

