-- ==== Sys2Proof/Laws/State.lean ====
section
/-! SUPPORT. What each update of the state does to each field, so that no proof unfolds an update: one lemma per field per
update, true by definition. -/

namespace Sys2Proof.Machine

variable (s : State)

/-! ### `envSetDir` -/

@[simp] theorem State.envSetDir_cfg (m : Dir) : (s.envSetDir m).cfg = s.cfg := rfl
@[simp] theorem State.envSetDir_busValid (m : Dir) : (s.envSetDir m).busValid = s.busValid := rfl
@[simp] theorem State.envSetDir_lineId (m : Dir) : (s.envSetDir m).lineId = s.lineId := rfl
@[simp] theorem State.envSetDir_tp (m : Dir) : (s.envSetDir m).tp = s.tp := rfl
@[simp] theorem State.envSetDir_dirMode (m : Dir) : (s.envSetDir m).dirMode = s.dirMode := rfl
@[simp] theorem State.envSetDir_dirFailed (m : Dir) : (s.envSetDir m).dirFailed = s.dirFailed := rfl
@[simp] theorem State.envSetDir_lockHeld (m : Dir) : (s.envSetDir m).lockHeld = s.lockHeld := rfl
@[simp] theorem State.envSetDir_lockOwner (m : Dir) : (s.envSetDir m).lockOwner = s.lockOwner := rfl
@[simp] theorem State.envSetDir_lockWaiters (m : Dir) : (s.envSetDir m).lockWaiters = s.lockWaiters := rfl
@[simp] theorem State.envSetDir_txIdx (m : Dir) : (s.envSetDir m).txIdx = s.txIdx := rfl
@[simp] theorem State.envSetDir_txUnit (m : Dir) : (s.envSetDir m).txUnit = s.txUnit := rfl
@[simp] theorem State.envSetDir_txPar (m : Dir) : (s.envSetDir m).txPar = s.txPar := rfl
@[simp] theorem State.envSetDir_decState (m : Dir) : (s.envSetDir m).decState = s.decState := rfl
@[simp] theorem State.envSetDir_acc (m : Dir) : (s.envSetDir m).acc = s.acc := rfl
@[simp] theorem State.envSetDir_rxPar (m : Dir) : (s.envSetDir m).rxPar = s.rxPar := rfl
@[simp] theorem State.envSetDir_rxPulseIdx (m : Dir) : (s.envSetDir m).rxPulseIdx = s.rxPulseIdx := rfl
@[simp] theorem State.envSetDir_rxUnitsLeft (m : Dir) : (s.envSetDir m).rxUnitsLeft = s.rxUnitsLeft := rfl
@[simp] theorem State.envSetDir_rxLevel (m : Dir) : (s.envSetDir m).rxLevel = s.rxLevel := rfl
@[simp] theorem State.envSetDir_seqState (m : Dir) : (s.envSetDir m).seqState = s.seqState := rfl
@[simp] theorem State.envSetDir_reqId (m : Dir) : (s.envSetDir m).reqId = s.reqId := rfl
@[simp] theorem State.envSetDir_cmdLen (m : Dir) : (s.envSetDir m).cmdLen = s.cmdLen := rfl
@[simp] theorem State.envSetDir_requireCrc (m : Dir) : (s.envSetDir m).requireCrc = s.requireCrc := rfl
@[simp] theorem State.envSetDir_timeout (m : Dir) : (s.envSetDir m).timeout = s.timeout := rfl
@[simp] theorem State.envSetDir_rspCap (m : Dir) : (s.envSetDir m).rspCap = s.rspCap := rfl
@[simp] theorem State.envSetDir_status (m : Dir) : (s.envSetDir m).status = s.status := rfl
@[simp] theorem State.envSetDir_rspLen (m : Dir) : (s.envSetDir m).rspLen = s.rspLen := rfl
@[simp] theorem State.envSetDir_srqLen (m : Dir) : (s.envSetDir m).srqLen = s.srqLen := rfl
@[simp] theorem State.envSetDir_tRem (m : Dir) : (s.envSetDir m).tRem = s.tRem := rfl
@[simp] theorem State.envSetDir_seconds (m : Dir) : (s.envSetDir m).seconds = s.seconds := rfl
@[simp] theorem State.envSetDir_crc (m : Dir) : (s.envSetDir m).crc = s.crc := rfl
@[simp] theorem State.envSetDir_cmd (m : Dir) : (s.envSetDir m).cmd = s.cmd := rfl
@[simp] theorem State.envSetDir_rsp (m : Dir) : (s.envSetDir m).rsp = s.rsp := rfl
@[simp] theorem State.envSetDir_srq (m : Dir) : (s.envSetDir m).srq = s.srq := rfl
@[simp] theorem State.envSetDir_txq (m : Dir) : (s.envSetDir m).txq = s.txq := rfl
@[simp] theorem State.envSetDir_rxq (m : Dir) : (s.envSetDir m).rxq = s.rxq := rfl
@[simp] theorem State.envSetDir_ports (m : Dir) : (s.envSetDir m).ports = s.ports := rfl
@[simp] theorem State.envSetDir_sessions (m : Dir) : (s.envSetDir m).sessions = s.sessions := rfl
@[simp] theorem State.envSetDir_inputs (m : Dir) : (s.envSetDir m).inputs = s.inputs := rfl
@[simp] theorem State.envSetDir_script (m : Dir) :
    (s.envSetDir m).script =
      { s.script with setDirs := s.script.setDirs.tail } := rfl
@[simp] theorem State.envSetDir_draws (m : Dir) : (s.envSetDir m).draws = s.draws + 1 := rfl
@[simp] theorem State.envSetDir_ret (m : Dir) : (s.envSetDir m).ret = s.ret := rfl
@[simp] theorem State.envSetDir_envLog (m : Dir) :
    (s.envSetDir m).envLog =
      .setDir s.lineId m s.setDirAnswer :: s.envLog := rfl

/-! ### `envEmit` -/

@[simp] theorem State.envEmit_cfg : (s.envEmit).cfg = s.cfg := rfl
@[simp] theorem State.envEmit_busValid : (s.envEmit).busValid = s.busValid := rfl
@[simp] theorem State.envEmit_lineId : (s.envEmit).lineId = s.lineId := rfl
@[simp] theorem State.envEmit_tp : (s.envEmit).tp = s.tp := rfl
@[simp] theorem State.envEmit_dirMode : (s.envEmit).dirMode = s.dirMode := rfl
@[simp] theorem State.envEmit_dirFailed : (s.envEmit).dirFailed = s.dirFailed := rfl
@[simp] theorem State.envEmit_lockHeld : (s.envEmit).lockHeld = s.lockHeld := rfl
@[simp] theorem State.envEmit_lockOwner : (s.envEmit).lockOwner = s.lockOwner := rfl
@[simp] theorem State.envEmit_lockWaiters : (s.envEmit).lockWaiters = s.lockWaiters := rfl
@[simp] theorem State.envEmit_txIdx : (s.envEmit).txIdx = s.txIdx := rfl
@[simp] theorem State.envEmit_txUnit : (s.envEmit).txUnit = s.txUnit := rfl
@[simp] theorem State.envEmit_txPar : (s.envEmit).txPar = s.txPar := rfl
@[simp] theorem State.envEmit_decState : (s.envEmit).decState = s.decState := rfl
@[simp] theorem State.envEmit_acc : (s.envEmit).acc = s.acc := rfl
@[simp] theorem State.envEmit_rxPar : (s.envEmit).rxPar = s.rxPar := rfl
@[simp] theorem State.envEmit_rxPulseIdx : (s.envEmit).rxPulseIdx = s.rxPulseIdx := rfl
@[simp] theorem State.envEmit_rxUnitsLeft : (s.envEmit).rxUnitsLeft = s.rxUnitsLeft := rfl
@[simp] theorem State.envEmit_rxLevel : (s.envEmit).rxLevel = s.rxLevel := rfl
@[simp] theorem State.envEmit_seqState : (s.envEmit).seqState = s.seqState := rfl
@[simp] theorem State.envEmit_reqId : (s.envEmit).reqId = s.reqId := rfl
@[simp] theorem State.envEmit_cmdLen : (s.envEmit).cmdLen = s.cmdLen := rfl
@[simp] theorem State.envEmit_requireCrc : (s.envEmit).requireCrc = s.requireCrc := rfl
@[simp] theorem State.envEmit_timeout : (s.envEmit).timeout = s.timeout := rfl
@[simp] theorem State.envEmit_rspCap : (s.envEmit).rspCap = s.rspCap := rfl
@[simp] theorem State.envEmit_status : (s.envEmit).status = s.status := rfl
@[simp] theorem State.envEmit_rspLen : (s.envEmit).rspLen = s.rspLen := rfl
@[simp] theorem State.envEmit_srqLen : (s.envEmit).srqLen = s.srqLen := rfl
@[simp] theorem State.envEmit_tRem : (s.envEmit).tRem = s.tRem := rfl
@[simp] theorem State.envEmit_seconds : (s.envEmit).seconds = s.seconds := rfl
@[simp] theorem State.envEmit_crc : (s.envEmit).crc = s.crc := rfl
@[simp] theorem State.envEmit_cmd : (s.envEmit).cmd = s.cmd := rfl
@[simp] theorem State.envEmit_rsp : (s.envEmit).rsp = s.rsp := rfl
@[simp] theorem State.envEmit_srq : (s.envEmit).srq = s.srq := rfl
@[simp] theorem State.envEmit_txq : (s.envEmit).txq = s.txq := rfl
@[simp] theorem State.envEmit_rxq : (s.envEmit).rxq = s.rxq := rfl
@[simp] theorem State.envEmit_ports : (s.envEmit).ports = s.ports := rfl
@[simp] theorem State.envEmit_sessions : (s.envEmit).sessions = s.sessions := rfl
@[simp] theorem State.envEmit_inputs : (s.envEmit).inputs = s.inputs := rfl
@[simp] theorem State.envEmit_script : (s.envEmit).script = { s.script with emits := s.script.emits.tail } := rfl
@[simp] theorem State.envEmit_draws : (s.envEmit).draws = s.draws + 1 := rfl
@[simp] theorem State.envEmit_ret : (s.envEmit).ret = s.ret := rfl
@[simp] theorem State.envEmit_envLog : (s.envEmit).envLog = .emit s.lineId s.txq s.emitAnswer :: s.envLog := rfl

/-! ### `envCapture` -/

@[simp] theorem State.envCapture_cfg (b : Nat) : (s.envCapture b).cfg = s.cfg := rfl
@[simp] theorem State.envCapture_busValid (b : Nat) : (s.envCapture b).busValid = s.busValid := rfl
@[simp] theorem State.envCapture_lineId (b : Nat) : (s.envCapture b).lineId = s.lineId := rfl
@[simp] theorem State.envCapture_tp (b : Nat) : (s.envCapture b).tp = s.tp := rfl
@[simp] theorem State.envCapture_dirMode (b : Nat) : (s.envCapture b).dirMode = s.dirMode := rfl
@[simp] theorem State.envCapture_dirFailed (b : Nat) : (s.envCapture b).dirFailed = s.dirFailed := rfl
@[simp] theorem State.envCapture_lockHeld (b : Nat) : (s.envCapture b).lockHeld = s.lockHeld := rfl
@[simp] theorem State.envCapture_lockOwner (b : Nat) : (s.envCapture b).lockOwner = s.lockOwner := rfl
@[simp] theorem State.envCapture_lockWaiters (b : Nat) : (s.envCapture b).lockWaiters = s.lockWaiters := rfl
@[simp] theorem State.envCapture_txIdx (b : Nat) : (s.envCapture b).txIdx = s.txIdx := rfl
@[simp] theorem State.envCapture_txUnit (b : Nat) : (s.envCapture b).txUnit = s.txUnit := rfl
@[simp] theorem State.envCapture_txPar (b : Nat) : (s.envCapture b).txPar = s.txPar := rfl
@[simp] theorem State.envCapture_decState (b : Nat) : (s.envCapture b).decState = s.decState := rfl
@[simp] theorem State.envCapture_acc (b : Nat) : (s.envCapture b).acc = s.acc := rfl
@[simp] theorem State.envCapture_rxPar (b : Nat) : (s.envCapture b).rxPar = s.rxPar := rfl
@[simp] theorem State.envCapture_rxPulseIdx (b : Nat) : (s.envCapture b).rxPulseIdx = s.rxPulseIdx := rfl
@[simp] theorem State.envCapture_rxUnitsLeft (b : Nat) : (s.envCapture b).rxUnitsLeft = s.rxUnitsLeft := rfl
@[simp] theorem State.envCapture_rxLevel (b : Nat) : (s.envCapture b).rxLevel = s.rxLevel := rfl
@[simp] theorem State.envCapture_seqState (b : Nat) : (s.envCapture b).seqState = s.seqState := rfl
@[simp] theorem State.envCapture_reqId (b : Nat) : (s.envCapture b).reqId = s.reqId := rfl
@[simp] theorem State.envCapture_cmdLen (b : Nat) : (s.envCapture b).cmdLen = s.cmdLen := rfl
@[simp] theorem State.envCapture_requireCrc (b : Nat) : (s.envCapture b).requireCrc = s.requireCrc := rfl
@[simp] theorem State.envCapture_timeout (b : Nat) : (s.envCapture b).timeout = s.timeout := rfl
@[simp] theorem State.envCapture_rspCap (b : Nat) : (s.envCapture b).rspCap = s.rspCap := rfl
@[simp] theorem State.envCapture_status (b : Nat) : (s.envCapture b).status = s.status := rfl
@[simp] theorem State.envCapture_rspLen (b : Nat) : (s.envCapture b).rspLen = s.rspLen := rfl
@[simp] theorem State.envCapture_srqLen (b : Nat) : (s.envCapture b).srqLen = s.srqLen := rfl
@[simp] theorem State.envCapture_tRem (b : Nat) : (s.envCapture b).tRem = s.tRem := rfl
@[simp] theorem State.envCapture_seconds (b : Nat) : (s.envCapture b).seconds = s.seconds := rfl
@[simp] theorem State.envCapture_crc (b : Nat) : (s.envCapture b).crc = s.crc := rfl
@[simp] theorem State.envCapture_cmd (b : Nat) : (s.envCapture b).cmd = s.cmd := rfl
@[simp] theorem State.envCapture_rsp (b : Nat) : (s.envCapture b).rsp = s.rsp := rfl
@[simp] theorem State.envCapture_srq (b : Nat) : (s.envCapture b).srq = s.srq := rfl
@[simp] theorem State.envCapture_txq (b : Nat) : (s.envCapture b).txq = s.txq := rfl
@[simp] theorem State.envCapture_rxq (b : Nat) : (s.envCapture b).rxq = capturedInto s.rxq (s.captureAnswer b) := rfl
@[simp] theorem State.envCapture_ports (b : Nat) : (s.envCapture b).ports = s.ports := rfl
@[simp] theorem State.envCapture_sessions (b : Nat) : (s.envCapture b).sessions = s.sessions := rfl
@[simp] theorem State.envCapture_inputs (b : Nat) : (s.envCapture b).inputs = s.inputs := rfl
@[simp] theorem State.envCapture_script (b : Nat) :
    (s.envCapture b).script =
      { s.script with captures := s.script.captures.tail } := rfl
@[simp] theorem State.envCapture_draws (b : Nat) : (s.envCapture b).draws = s.draws + 1 := rfl
@[simp] theorem State.envCapture_ret (b : Nat) : (s.envCapture b).ret = s.ret := rfl
@[simp] theorem State.envCapture_envLog (b : Nat) :
    (s.envCapture b).envLog =
      .capture s.lineId b (s.captureAnswer b) :: s.envLog := rfl

/-! ### `setDir` -/

@[simp] theorem State.setDir_cfg (m : Dir) : (s.setDir m).cfg = s.cfg := rfl
@[simp] theorem State.setDir_busValid (m : Dir) : (s.setDir m).busValid = s.busValid := rfl
@[simp] theorem State.setDir_lineId (m : Dir) : (s.setDir m).lineId = s.lineId := rfl
@[simp] theorem State.setDir_tp (m : Dir) : (s.setDir m).tp = s.tp := rfl
@[simp] theorem State.setDir_dirMode (m : Dir) :
    (s.setDir m).dirMode =
      (if s.setDirAnswer then m else Config.freeDir (s.draws + 1)) := rfl
@[simp] theorem State.setDir_dirFailed (m : Dir) :
    (s.setDir m).dirFailed = if s.setDirAnswer then none else some m := rfl
@[simp] theorem State.setDir_lockHeld (m : Dir) : (s.setDir m).lockHeld = s.lockHeld := rfl
@[simp] theorem State.setDir_lockOwner (m : Dir) : (s.setDir m).lockOwner = s.lockOwner := rfl
@[simp] theorem State.setDir_lockWaiters (m : Dir) : (s.setDir m).lockWaiters = s.lockWaiters := rfl
@[simp] theorem State.setDir_txIdx (m : Dir) : (s.setDir m).txIdx = s.txIdx := rfl
@[simp] theorem State.setDir_txUnit (m : Dir) : (s.setDir m).txUnit = s.txUnit := rfl
@[simp] theorem State.setDir_txPar (m : Dir) : (s.setDir m).txPar = s.txPar := rfl
@[simp] theorem State.setDir_decState (m : Dir) : (s.setDir m).decState = s.decState := rfl
@[simp] theorem State.setDir_acc (m : Dir) : (s.setDir m).acc = s.acc := rfl
@[simp] theorem State.setDir_rxPar (m : Dir) : (s.setDir m).rxPar = s.rxPar := rfl
@[simp] theorem State.setDir_rxPulseIdx (m : Dir) : (s.setDir m).rxPulseIdx = s.rxPulseIdx := rfl
@[simp] theorem State.setDir_rxUnitsLeft (m : Dir) : (s.setDir m).rxUnitsLeft = s.rxUnitsLeft := rfl
@[simp] theorem State.setDir_rxLevel (m : Dir) : (s.setDir m).rxLevel = s.rxLevel := rfl
@[simp] theorem State.setDir_seqState (m : Dir) : (s.setDir m).seqState = s.seqState := rfl
@[simp] theorem State.setDir_reqId (m : Dir) : (s.setDir m).reqId = s.reqId := rfl
@[simp] theorem State.setDir_cmdLen (m : Dir) : (s.setDir m).cmdLen = s.cmdLen := rfl
@[simp] theorem State.setDir_requireCrc (m : Dir) : (s.setDir m).requireCrc = s.requireCrc := rfl
@[simp] theorem State.setDir_timeout (m : Dir) : (s.setDir m).timeout = s.timeout := rfl
@[simp] theorem State.setDir_rspCap (m : Dir) : (s.setDir m).rspCap = s.rspCap := rfl
@[simp] theorem State.setDir_status (m : Dir) : (s.setDir m).status = s.status := rfl
@[simp] theorem State.setDir_rspLen (m : Dir) : (s.setDir m).rspLen = s.rspLen := rfl
@[simp] theorem State.setDir_srqLen (m : Dir) : (s.setDir m).srqLen = s.srqLen := rfl
@[simp] theorem State.setDir_tRem (m : Dir) : (s.setDir m).tRem = s.tRem := rfl
@[simp] theorem State.setDir_seconds (m : Dir) : (s.setDir m).seconds = s.seconds := rfl
@[simp] theorem State.setDir_crc (m : Dir) : (s.setDir m).crc = s.crc := rfl
@[simp] theorem State.setDir_cmd (m : Dir) : (s.setDir m).cmd = s.cmd := rfl
@[simp] theorem State.setDir_rsp (m : Dir) : (s.setDir m).rsp = s.rsp := rfl
@[simp] theorem State.setDir_srq (m : Dir) : (s.setDir m).srq = s.srq := rfl
@[simp] theorem State.setDir_txq (m : Dir) : (s.setDir m).txq = s.txq := rfl
@[simp] theorem State.setDir_rxq (m : Dir) : (s.setDir m).rxq = s.rxq := rfl
@[simp] theorem State.setDir_ports (m : Dir) : (s.setDir m).ports = s.ports := rfl
@[simp] theorem State.setDir_sessions (m : Dir) : (s.setDir m).sessions = s.sessions := rfl
@[simp] theorem State.setDir_inputs (m : Dir) : (s.setDir m).inputs = s.inputs := rfl
@[simp] theorem State.setDir_script (m : Dir) :
    (s.setDir m).script =
      { s.script with setDirs := s.script.setDirs.tail } := rfl
@[simp] theorem State.setDir_draws (m : Dir) : (s.setDir m).draws = s.draws + 2 := rfl
@[simp] theorem State.setDir_ret (m : Dir) : (s.setDir m).ret = s.ret := rfl
@[simp] theorem State.setDir_envLog (m : Dir) :
    (s.setDir m).envLog =
      .setDir s.lineId m s.setDirAnswer :: s.envLog := rfl

/-! ### `loadRequest` -/

@[simp] theorem State.loadRequest_cfg (r : Nat) (p : Port) : (s.loadRequest r p).cfg = s.cfg := rfl
@[simp] theorem State.loadRequest_busValid (r : Nat) (p : Port) : (s.loadRequest r p).busValid = s.busValid := rfl
@[simp] theorem State.loadRequest_lineId (r : Nat) (p : Port) : (s.loadRequest r p).lineId = s.lineId := rfl
@[simp] theorem State.loadRequest_tp (r : Nat) (p : Port) : (s.loadRequest r p).tp = s.tp := rfl
@[simp] theorem State.loadRequest_dirMode (r : Nat) (p : Port) : (s.loadRequest r p).dirMode = s.dirMode := rfl
@[simp] theorem State.loadRequest_dirFailed (r : Nat) (p : Port) : (s.loadRequest r p).dirFailed = s.dirFailed := rfl
@[simp] theorem State.loadRequest_lockHeld (r : Nat) (p : Port) : (s.loadRequest r p).lockHeld = s.lockHeld := rfl
@[simp] theorem State.loadRequest_lockOwner (r : Nat) (p : Port) : (s.loadRequest r p).lockOwner = s.lockOwner := rfl
@[simp] theorem State.loadRequest_lockWaiters (r : Nat) (p : Port) :
    (s.loadRequest r p).lockWaiters =
      s.lockWaiters := rfl
@[simp] theorem State.loadRequest_txIdx (r : Nat) (p : Port) : (s.loadRequest r p).txIdx = s.txIdx := rfl
@[simp] theorem State.loadRequest_txUnit (r : Nat) (p : Port) : (s.loadRequest r p).txUnit = s.txUnit := rfl
@[simp] theorem State.loadRequest_txPar (r : Nat) (p : Port) : (s.loadRequest r p).txPar = s.txPar := rfl
@[simp] theorem State.loadRequest_decState (r : Nat) (p : Port) : (s.loadRequest r p).decState = s.decState := rfl
@[simp] theorem State.loadRequest_acc (r : Nat) (p : Port) : (s.loadRequest r p).acc = s.acc := rfl
@[simp] theorem State.loadRequest_rxPar (r : Nat) (p : Port) : (s.loadRequest r p).rxPar = s.rxPar := rfl
@[simp] theorem State.loadRequest_rxPulseIdx (r : Nat) (p : Port) :
    (s.loadRequest r p).rxPulseIdx =
      s.rxPulseIdx := rfl
@[simp] theorem State.loadRequest_rxUnitsLeft (r : Nat) (p : Port) :
    (s.loadRequest r p).rxUnitsLeft =
      s.rxUnitsLeft := rfl
@[simp] theorem State.loadRequest_rxLevel (r : Nat) (p : Port) : (s.loadRequest r p).rxLevel = s.rxLevel := rfl
@[simp] theorem State.loadRequest_seqState (r : Nat) (p : Port) : (s.loadRequest r p).seqState = .dirTx := rfl
@[simp] theorem State.loadRequest_reqId (r : Nat) (p : Port) : (s.loadRequest r p).reqId = r := rfl
@[simp] theorem State.loadRequest_cmdLen (r : Nat) (p : Port) : (s.loadRequest r p).cmdLen = p.req.cmdLen := rfl
@[simp] theorem State.loadRequest_requireCrc (r : Nat) (p : Port) :
    (s.loadRequest r p).requireCrc =
      p.req.requireCrc := rfl
@[simp] theorem State.loadRequest_timeout (r : Nat) (p : Port) : (s.loadRequest r p).timeout = p.req.timeout := rfl
@[simp] theorem State.loadRequest_rspCap (r : Nat) (p : Port) : (s.loadRequest r p).rspCap = p.req.rspCap := rfl
@[simp] theorem State.loadRequest_status (r : Nat) (p : Port) : (s.loadRequest r p).status = .ok := rfl
@[simp] theorem State.loadRequest_rspLen (r : Nat) (p : Port) : (s.loadRequest r p).rspLen = 0 := rfl
@[simp] theorem State.loadRequest_srqLen (r : Nat) (p : Port) : (s.loadRequest r p).srqLen = s.srqLen := rfl
@[simp] theorem State.loadRequest_tRem (r : Nat) (p : Port) : (s.loadRequest r p).tRem = s.tRem := rfl
@[simp] theorem State.loadRequest_seconds (r : Nat) (p : Port) : (s.loadRequest r p).seconds = s.seconds := rfl
@[simp] theorem State.loadRequest_crc (r : Nat) (p : Port) : (s.loadRequest r p).crc = s.crc := rfl
@[simp] theorem State.loadRequest_cmd (r : Nat) (p : Port) :
    (s.loadRequest r p).cmd =
      Memory.writeFrom s.cmd 0 p.req.cmd := rfl
@[simp] theorem State.loadRequest_rsp (r : Nat) (p : Port) : (s.loadRequest r p).rsp = p.rsp := rfl
@[simp] theorem State.loadRequest_srq (r : Nat) (p : Port) : (s.loadRequest r p).srq = s.srq := rfl
@[simp] theorem State.loadRequest_txq (r : Nat) (p : Port) : (s.loadRequest r p).txq = s.txq := rfl
@[simp] theorem State.loadRequest_rxq (r : Nat) (p : Port) : (s.loadRequest r p).rxq = s.rxq := rfl
@[simp] theorem State.loadRequest_ports (r : Nat) (p : Port) : (s.loadRequest r p).ports = s.ports := rfl
@[simp] theorem State.loadRequest_sessions (r : Nat) (p : Port) : (s.loadRequest r p).sessions = s.sessions := rfl
@[simp] theorem State.loadRequest_inputs (r : Nat) (p : Port) : (s.loadRequest r p).inputs = s.inputs := rfl
@[simp] theorem State.loadRequest_script (r : Nat) (p : Port) : (s.loadRequest r p).script = s.script := rfl
@[simp] theorem State.loadRequest_draws (r : Nat) (p : Port) : (s.loadRequest r p).draws = s.draws := rfl
@[simp] theorem State.loadRequest_ret (r : Nat) (p : Port) : (s.loadRequest r p).ret = s.ret := rfl
@[simp] theorem State.loadRequest_envLog (r : Nat) (p : Port) : (s.loadRequest r p).envLog = s.envLog := rfl

/-! ### `dropGrant` -/

@[simp] theorem State.dropGrant_cfg : (s.dropGrant).cfg = s.cfg := rfl
@[simp] theorem State.dropGrant_busValid : (s.dropGrant).busValid = s.busValid := rfl
@[simp] theorem State.dropGrant_lineId : (s.dropGrant).lineId = s.lineId := rfl
@[simp] theorem State.dropGrant_tp : (s.dropGrant).tp = s.tp := rfl
@[simp] theorem State.dropGrant_dirMode : (s.dropGrant).dirMode = s.dirMode := rfl
@[simp] theorem State.dropGrant_dirFailed : (s.dropGrant).dirFailed = s.dirFailed := rfl
@[simp] theorem State.dropGrant_lockHeld : (s.dropGrant).lockHeld = s.lockHeld := rfl
@[simp] theorem State.dropGrant_lockOwner : (s.dropGrant).lockOwner = s.lockOwner := rfl
@[simp] theorem State.dropGrant_lockWaiters : (s.dropGrant).lockWaiters = s.lockWaiters := rfl
@[simp] theorem State.dropGrant_txIdx : (s.dropGrant).txIdx = s.txIdx := rfl
@[simp] theorem State.dropGrant_txUnit : (s.dropGrant).txUnit = s.txUnit := rfl
@[simp] theorem State.dropGrant_txPar : (s.dropGrant).txPar = s.txPar := rfl
@[simp] theorem State.dropGrant_decState : (s.dropGrant).decState = s.decState := rfl
@[simp] theorem State.dropGrant_acc : (s.dropGrant).acc = s.acc := rfl
@[simp] theorem State.dropGrant_rxPar : (s.dropGrant).rxPar = s.rxPar := rfl
@[simp] theorem State.dropGrant_rxPulseIdx : (s.dropGrant).rxPulseIdx = s.rxPulseIdx := rfl
@[simp] theorem State.dropGrant_rxUnitsLeft : (s.dropGrant).rxUnitsLeft = s.rxUnitsLeft := rfl
@[simp] theorem State.dropGrant_rxLevel : (s.dropGrant).rxLevel = s.rxLevel := rfl
@[simp] theorem State.dropGrant_seqState : (s.dropGrant).seqState = s.seqState := rfl
@[simp] theorem State.dropGrant_reqId : (s.dropGrant).reqId = s.reqId := rfl
@[simp] theorem State.dropGrant_cmdLen : (s.dropGrant).cmdLen = s.cmdLen := rfl
@[simp] theorem State.dropGrant_requireCrc : (s.dropGrant).requireCrc = s.requireCrc := rfl
@[simp] theorem State.dropGrant_timeout : (s.dropGrant).timeout = s.timeout := rfl
@[simp] theorem State.dropGrant_rspCap : (s.dropGrant).rspCap = s.rspCap := rfl
@[simp] theorem State.dropGrant_status : (s.dropGrant).status = s.status := rfl
@[simp] theorem State.dropGrant_rspLen : (s.dropGrant).rspLen = s.rspLen := rfl
@[simp] theorem State.dropGrant_srqLen : (s.dropGrant).srqLen = s.srqLen := rfl
@[simp] theorem State.dropGrant_tRem : (s.dropGrant).tRem = s.tRem := rfl
@[simp] theorem State.dropGrant_seconds : (s.dropGrant).seconds = s.seconds := rfl
@[simp] theorem State.dropGrant_crc : (s.dropGrant).crc = s.crc := rfl
@[simp] theorem State.dropGrant_cmd : (s.dropGrant).cmd = s.cmd := rfl
@[simp] theorem State.dropGrant_rsp : (s.dropGrant).rsp = s.rsp := rfl
@[simp] theorem State.dropGrant_srq : (s.dropGrant).srq = s.srq := rfl
@[simp] theorem State.dropGrant_txq : (s.dropGrant).txq = s.txq := rfl
@[simp] theorem State.dropGrant_rxq : (s.dropGrant).rxq = s.rxq := rfl
@[simp] theorem State.dropGrant_ports : (s.dropGrant).ports = s.ports := rfl
@[simp] theorem State.dropGrant_sessions : (s.dropGrant).sessions = s.sessions := rfl
@[simp] theorem State.dropGrant_inputs : (s.dropGrant).inputs = s.inputs := rfl
@[simp] theorem State.dropGrant_script :
    (s.dropGrant).script =
      { s.script with grants := s.script.grants.tail } := rfl
@[simp] theorem State.dropGrant_draws : (s.dropGrant).draws = s.draws + 1 := rfl
@[simp] theorem State.dropGrant_ret : (s.dropGrant).ret = s.ret := rfl
@[simp] theorem State.dropGrant_envLog : (s.dropGrant).envLog = s.envLog := rfl

/-! ### `dropAlloc` -/

@[simp] theorem State.dropAlloc_cfg : (s.dropAlloc).cfg = s.cfg := rfl
@[simp] theorem State.dropAlloc_busValid : (s.dropAlloc).busValid = s.busValid := rfl
@[simp] theorem State.dropAlloc_lineId : (s.dropAlloc).lineId = s.lineId := rfl
@[simp] theorem State.dropAlloc_tp : (s.dropAlloc).tp = s.tp := rfl
@[simp] theorem State.dropAlloc_dirMode : (s.dropAlloc).dirMode = s.dirMode := rfl
@[simp] theorem State.dropAlloc_dirFailed : (s.dropAlloc).dirFailed = s.dirFailed := rfl
@[simp] theorem State.dropAlloc_lockHeld : (s.dropAlloc).lockHeld = s.lockHeld := rfl
@[simp] theorem State.dropAlloc_lockOwner : (s.dropAlloc).lockOwner = s.lockOwner := rfl
@[simp] theorem State.dropAlloc_lockWaiters : (s.dropAlloc).lockWaiters = s.lockWaiters := rfl
@[simp] theorem State.dropAlloc_txIdx : (s.dropAlloc).txIdx = s.txIdx := rfl
@[simp] theorem State.dropAlloc_txUnit : (s.dropAlloc).txUnit = s.txUnit := rfl
@[simp] theorem State.dropAlloc_txPar : (s.dropAlloc).txPar = s.txPar := rfl
@[simp] theorem State.dropAlloc_decState : (s.dropAlloc).decState = s.decState := rfl
@[simp] theorem State.dropAlloc_acc : (s.dropAlloc).acc = s.acc := rfl
@[simp] theorem State.dropAlloc_rxPar : (s.dropAlloc).rxPar = s.rxPar := rfl
@[simp] theorem State.dropAlloc_rxPulseIdx : (s.dropAlloc).rxPulseIdx = s.rxPulseIdx := rfl
@[simp] theorem State.dropAlloc_rxUnitsLeft : (s.dropAlloc).rxUnitsLeft = s.rxUnitsLeft := rfl
@[simp] theorem State.dropAlloc_rxLevel : (s.dropAlloc).rxLevel = s.rxLevel := rfl
@[simp] theorem State.dropAlloc_seqState : (s.dropAlloc).seqState = s.seqState := rfl
@[simp] theorem State.dropAlloc_reqId : (s.dropAlloc).reqId = s.reqId := rfl
@[simp] theorem State.dropAlloc_cmdLen : (s.dropAlloc).cmdLen = s.cmdLen := rfl
@[simp] theorem State.dropAlloc_requireCrc : (s.dropAlloc).requireCrc = s.requireCrc := rfl
@[simp] theorem State.dropAlloc_timeout : (s.dropAlloc).timeout = s.timeout := rfl
@[simp] theorem State.dropAlloc_rspCap : (s.dropAlloc).rspCap = s.rspCap := rfl
@[simp] theorem State.dropAlloc_status : (s.dropAlloc).status = s.status := rfl
@[simp] theorem State.dropAlloc_rspLen : (s.dropAlloc).rspLen = s.rspLen := rfl
@[simp] theorem State.dropAlloc_srqLen : (s.dropAlloc).srqLen = s.srqLen := rfl
@[simp] theorem State.dropAlloc_tRem : (s.dropAlloc).tRem = s.tRem := rfl
@[simp] theorem State.dropAlloc_seconds : (s.dropAlloc).seconds = s.seconds := rfl
@[simp] theorem State.dropAlloc_crc : (s.dropAlloc).crc = s.crc := rfl
@[simp] theorem State.dropAlloc_cmd : (s.dropAlloc).cmd = s.cmd := rfl
@[simp] theorem State.dropAlloc_rsp : (s.dropAlloc).rsp = s.rsp := rfl
@[simp] theorem State.dropAlloc_srq : (s.dropAlloc).srq = s.srq := rfl
@[simp] theorem State.dropAlloc_txq : (s.dropAlloc).txq = s.txq := rfl
@[simp] theorem State.dropAlloc_rxq : (s.dropAlloc).rxq = s.rxq := rfl
@[simp] theorem State.dropAlloc_ports : (s.dropAlloc).ports = s.ports := rfl
@[simp] theorem State.dropAlloc_sessions : (s.dropAlloc).sessions = s.sessions := rfl
@[simp] theorem State.dropAlloc_inputs : (s.dropAlloc).inputs = s.inputs := rfl
@[simp] theorem State.dropAlloc_script :
    (s.dropAlloc).script =
      { s.script with allocs := s.script.allocs.tail } := rfl
@[simp] theorem State.dropAlloc_draws : (s.dropAlloc).draws = s.draws + 1 := rfl
@[simp] theorem State.dropAlloc_ret : (s.dropAlloc).ret = s.ret := rfl
@[simp] theorem State.dropAlloc_envLog : (s.dropAlloc).envLog = s.envLog := rfl

/-! ### `dropInput` -/

@[simp] theorem State.dropInput_cfg : (s.dropInput).cfg = s.cfg := rfl
@[simp] theorem State.dropInput_busValid : (s.dropInput).busValid = s.busValid := rfl
@[simp] theorem State.dropInput_lineId : (s.dropInput).lineId = s.lineId := rfl
@[simp] theorem State.dropInput_tp : (s.dropInput).tp = s.tp := rfl
@[simp] theorem State.dropInput_dirMode : (s.dropInput).dirMode = s.dirMode := rfl
@[simp] theorem State.dropInput_dirFailed : (s.dropInput).dirFailed = s.dirFailed := rfl
@[simp] theorem State.dropInput_lockHeld : (s.dropInput).lockHeld = s.lockHeld := rfl
@[simp] theorem State.dropInput_lockOwner : (s.dropInput).lockOwner = s.lockOwner := rfl
@[simp] theorem State.dropInput_lockWaiters : (s.dropInput).lockWaiters = s.lockWaiters := rfl
@[simp] theorem State.dropInput_txIdx : (s.dropInput).txIdx = s.txIdx := rfl
@[simp] theorem State.dropInput_txUnit : (s.dropInput).txUnit = s.txUnit := rfl
@[simp] theorem State.dropInput_txPar : (s.dropInput).txPar = s.txPar := rfl
@[simp] theorem State.dropInput_decState : (s.dropInput).decState = s.decState := rfl
@[simp] theorem State.dropInput_acc : (s.dropInput).acc = s.acc := rfl
@[simp] theorem State.dropInput_rxPar : (s.dropInput).rxPar = s.rxPar := rfl
@[simp] theorem State.dropInput_rxPulseIdx : (s.dropInput).rxPulseIdx = s.rxPulseIdx := rfl
@[simp] theorem State.dropInput_rxUnitsLeft : (s.dropInput).rxUnitsLeft = s.rxUnitsLeft := rfl
@[simp] theorem State.dropInput_rxLevel : (s.dropInput).rxLevel = s.rxLevel := rfl
@[simp] theorem State.dropInput_seqState : (s.dropInput).seqState = s.seqState := rfl
@[simp] theorem State.dropInput_reqId : (s.dropInput).reqId = s.reqId := rfl
@[simp] theorem State.dropInput_cmdLen : (s.dropInput).cmdLen = s.cmdLen := rfl
@[simp] theorem State.dropInput_requireCrc : (s.dropInput).requireCrc = s.requireCrc := rfl
@[simp] theorem State.dropInput_timeout : (s.dropInput).timeout = s.timeout := rfl
@[simp] theorem State.dropInput_rspCap : (s.dropInput).rspCap = s.rspCap := rfl
@[simp] theorem State.dropInput_status : (s.dropInput).status = s.status := rfl
@[simp] theorem State.dropInput_rspLen : (s.dropInput).rspLen = s.rspLen := rfl
@[simp] theorem State.dropInput_srqLen : (s.dropInput).srqLen = s.srqLen := rfl
@[simp] theorem State.dropInput_tRem : (s.dropInput).tRem = s.tRem := rfl
@[simp] theorem State.dropInput_seconds : (s.dropInput).seconds = s.seconds := rfl
@[simp] theorem State.dropInput_crc : (s.dropInput).crc = s.crc := rfl
@[simp] theorem State.dropInput_cmd : (s.dropInput).cmd = s.cmd := rfl
@[simp] theorem State.dropInput_rsp : (s.dropInput).rsp = s.rsp := rfl
@[simp] theorem State.dropInput_srq : (s.dropInput).srq = s.srq := rfl
@[simp] theorem State.dropInput_txq : (s.dropInput).txq = s.txq := rfl
@[simp] theorem State.dropInput_rxq : (s.dropInput).rxq = s.rxq := rfl
@[simp] theorem State.dropInput_ports : (s.dropInput).ports = s.ports := rfl
@[simp] theorem State.dropInput_sessions : (s.dropInput).sessions = s.sessions := rfl
@[simp] theorem State.dropInput_inputs : (s.dropInput).inputs = s.inputs.tail := rfl
@[simp] theorem State.dropInput_script : (s.dropInput).script = s.script := rfl
@[simp] theorem State.dropInput_draws : (s.dropInput).draws = s.draws := rfl
@[simp] theorem State.dropInput_ret : (s.dropInput).ret = s.ret := rfl
@[simp] theorem State.dropInput_envLog : (s.dropInput).envLog = s.envLog := rfl

/-! ### `unlock` -/

@[simp] theorem State.unlock_cfg : (s.unlock).cfg = s.cfg := rfl
@[simp] theorem State.unlock_busValid : (s.unlock).busValid = s.busValid := rfl
@[simp] theorem State.unlock_lineId : (s.unlock).lineId = s.lineId := rfl
@[simp] theorem State.unlock_tp : (s.unlock).tp = s.tp := rfl
@[simp] theorem State.unlock_dirMode : (s.unlock).dirMode = s.dirMode := rfl
@[simp] theorem State.unlock_dirFailed : (s.unlock).dirFailed = s.dirFailed := rfl
@[simp] theorem State.unlock_lockHeld : (s.unlock).lockHeld = false := rfl
@[simp] theorem State.unlock_lockOwner : (s.unlock).lockOwner = s.lockOwner := rfl
@[simp] theorem State.unlock_lockWaiters : (s.unlock).lockWaiters = s.lockWaiters := rfl
@[simp] theorem State.unlock_txIdx : (s.unlock).txIdx = s.txIdx := rfl
@[simp] theorem State.unlock_txUnit : (s.unlock).txUnit = s.txUnit := rfl
@[simp] theorem State.unlock_txPar : (s.unlock).txPar = s.txPar := rfl
@[simp] theorem State.unlock_decState : (s.unlock).decState = s.decState := rfl
@[simp] theorem State.unlock_acc : (s.unlock).acc = s.acc := rfl
@[simp] theorem State.unlock_rxPar : (s.unlock).rxPar = s.rxPar := rfl
@[simp] theorem State.unlock_rxPulseIdx : (s.unlock).rxPulseIdx = s.rxPulseIdx := rfl
@[simp] theorem State.unlock_rxUnitsLeft : (s.unlock).rxUnitsLeft = s.rxUnitsLeft := rfl
@[simp] theorem State.unlock_rxLevel : (s.unlock).rxLevel = s.rxLevel := rfl
@[simp] theorem State.unlock_seqState : (s.unlock).seqState = s.seqState := rfl
@[simp] theorem State.unlock_reqId : (s.unlock).reqId = s.reqId := rfl
@[simp] theorem State.unlock_cmdLen : (s.unlock).cmdLen = s.cmdLen := rfl
@[simp] theorem State.unlock_requireCrc : (s.unlock).requireCrc = s.requireCrc := rfl
@[simp] theorem State.unlock_timeout : (s.unlock).timeout = s.timeout := rfl
@[simp] theorem State.unlock_rspCap : (s.unlock).rspCap = s.rspCap := rfl
@[simp] theorem State.unlock_status : (s.unlock).status = s.status := rfl
@[simp] theorem State.unlock_rspLen : (s.unlock).rspLen = s.rspLen := rfl
@[simp] theorem State.unlock_srqLen : (s.unlock).srqLen = s.srqLen := rfl
@[simp] theorem State.unlock_tRem : (s.unlock).tRem = s.tRem := rfl
@[simp] theorem State.unlock_seconds : (s.unlock).seconds = s.seconds := rfl
@[simp] theorem State.unlock_crc : (s.unlock).crc = s.crc := rfl
@[simp] theorem State.unlock_cmd : (s.unlock).cmd = s.cmd := rfl
@[simp] theorem State.unlock_rsp : (s.unlock).rsp = s.rsp := rfl
@[simp] theorem State.unlock_srq : (s.unlock).srq = s.srq := rfl
@[simp] theorem State.unlock_txq : (s.unlock).txq = s.txq := rfl
@[simp] theorem State.unlock_rxq : (s.unlock).rxq = s.rxq := rfl
@[simp] theorem State.unlock_ports : (s.unlock).ports = s.ports := rfl
@[simp] theorem State.unlock_sessions : (s.unlock).sessions = s.sessions := rfl
@[simp] theorem State.unlock_inputs : (s.unlock).inputs = s.inputs := rfl
@[simp] theorem State.unlock_script : (s.unlock).script = s.script := rfl
@[simp] theorem State.unlock_draws : (s.unlock).draws = s.draws := rfl
@[simp] theorem State.unlock_ret : (s.unlock).ret = s.ret := rfl
@[simp] theorem State.unlock_envLog : (s.unlock).envLog = s.envLog := rfl

/-! ### `raise` -/

@[simp] theorem State.raise_cfg (st : Status) : (s.raise st).cfg = s.cfg := rfl
@[simp] theorem State.raise_busValid (st : Status) : (s.raise st).busValid = s.busValid := rfl
@[simp] theorem State.raise_lineId (st : Status) : (s.raise st).lineId = s.lineId := rfl
@[simp] theorem State.raise_tp (st : Status) : (s.raise st).tp = s.tp := rfl
@[simp] theorem State.raise_dirMode (st : Status) : (s.raise st).dirMode = s.dirMode := rfl
@[simp] theorem State.raise_dirFailed (st : Status) : (s.raise st).dirFailed = s.dirFailed := rfl
@[simp] theorem State.raise_lockHeld (st : Status) : (s.raise st).lockHeld = s.lockHeld := rfl
@[simp] theorem State.raise_lockOwner (st : Status) : (s.raise st).lockOwner = s.lockOwner := rfl
@[simp] theorem State.raise_lockWaiters (st : Status) : (s.raise st).lockWaiters = s.lockWaiters := rfl
@[simp] theorem State.raise_txIdx (st : Status) : (s.raise st).txIdx = s.txIdx := rfl
@[simp] theorem State.raise_txUnit (st : Status) : (s.raise st).txUnit = s.txUnit := rfl
@[simp] theorem State.raise_txPar (st : Status) : (s.raise st).txPar = s.txPar := rfl
@[simp] theorem State.raise_decState (st : Status) : (s.raise st).decState = s.decState := rfl
@[simp] theorem State.raise_acc (st : Status) : (s.raise st).acc = s.acc := rfl
@[simp] theorem State.raise_rxPar (st : Status) : (s.raise st).rxPar = s.rxPar := rfl
@[simp] theorem State.raise_rxPulseIdx (st : Status) : (s.raise st).rxPulseIdx = s.rxPulseIdx := rfl
@[simp] theorem State.raise_rxUnitsLeft (st : Status) : (s.raise st).rxUnitsLeft = s.rxUnitsLeft := rfl
@[simp] theorem State.raise_rxLevel (st : Status) : (s.raise st).rxLevel = s.rxLevel := rfl
@[simp] theorem State.raise_seqState (st : Status) : (s.raise st).seqState = .restore := rfl
@[simp] theorem State.raise_reqId (st : Status) : (s.raise st).reqId = s.reqId := rfl
@[simp] theorem State.raise_cmdLen (st : Status) : (s.raise st).cmdLen = s.cmdLen := rfl
@[simp] theorem State.raise_requireCrc (st : Status) : (s.raise st).requireCrc = s.requireCrc := rfl
@[simp] theorem State.raise_timeout (st : Status) : (s.raise st).timeout = s.timeout := rfl
@[simp] theorem State.raise_rspCap (st : Status) : (s.raise st).rspCap = s.rspCap := rfl
@[simp] theorem State.raise_status (st : Status) :
    (s.raise st).status =
      (if s.status = .ok then st else s.status) := rfl
@[simp] theorem State.raise_rspLen (st : Status) : (s.raise st).rspLen = s.rspLen := rfl
@[simp] theorem State.raise_srqLen (st : Status) : (s.raise st).srqLen = s.srqLen := rfl
@[simp] theorem State.raise_tRem (st : Status) : (s.raise st).tRem = s.tRem := rfl
@[simp] theorem State.raise_seconds (st : Status) : (s.raise st).seconds = s.seconds := rfl
@[simp] theorem State.raise_crc (st : Status) : (s.raise st).crc = s.crc := rfl
@[simp] theorem State.raise_cmd (st : Status) : (s.raise st).cmd = s.cmd := rfl
@[simp] theorem State.raise_rsp (st : Status) : (s.raise st).rsp = s.rsp := rfl
@[simp] theorem State.raise_srq (st : Status) : (s.raise st).srq = s.srq := rfl
@[simp] theorem State.raise_txq (st : Status) : (s.raise st).txq = s.txq := rfl
@[simp] theorem State.raise_rxq (st : Status) : (s.raise st).rxq = s.rxq := rfl
@[simp] theorem State.raise_ports (st : Status) : (s.raise st).ports = s.ports := rfl
@[simp] theorem State.raise_sessions (st : Status) : (s.raise st).sessions = s.sessions := rfl
@[simp] theorem State.raise_inputs (st : Status) : (s.raise st).inputs = s.inputs := rfl
@[simp] theorem State.raise_script (st : Status) : (s.raise st).script = s.script := rfl
@[simp] theorem State.raise_draws (st : Status) : (s.raise st).draws = s.draws := rfl
@[simp] theorem State.raise_ret (st : Status) : (s.raise st).ret = s.ret := rfl
@[simp] theorem State.raise_envLog (st : Status) : (s.raise st).envLog = s.envLog := rfl

/-! ### `toRestore` -/

@[simp] theorem State.toRestore_cfg : (s.toRestore).cfg = s.cfg := rfl
@[simp] theorem State.toRestore_busValid : (s.toRestore).busValid = s.busValid := rfl
@[simp] theorem State.toRestore_lineId : (s.toRestore).lineId = s.lineId := rfl
@[simp] theorem State.toRestore_tp : (s.toRestore).tp = s.tp := rfl
@[simp] theorem State.toRestore_dirMode : (s.toRestore).dirMode = s.dirMode := rfl
@[simp] theorem State.toRestore_dirFailed : (s.toRestore).dirFailed = s.dirFailed := rfl
@[simp] theorem State.toRestore_lockHeld : (s.toRestore).lockHeld = s.lockHeld := rfl
@[simp] theorem State.toRestore_lockOwner : (s.toRestore).lockOwner = s.lockOwner := rfl
@[simp] theorem State.toRestore_lockWaiters : (s.toRestore).lockWaiters = s.lockWaiters := rfl
@[simp] theorem State.toRestore_txIdx : (s.toRestore).txIdx = s.txIdx := rfl
@[simp] theorem State.toRestore_txUnit : (s.toRestore).txUnit = s.txUnit := rfl
@[simp] theorem State.toRestore_txPar : (s.toRestore).txPar = s.txPar := rfl
@[simp] theorem State.toRestore_decState : (s.toRestore).decState = s.decState := rfl
@[simp] theorem State.toRestore_acc : (s.toRestore).acc = s.acc := rfl
@[simp] theorem State.toRestore_rxPar : (s.toRestore).rxPar = s.rxPar := rfl
@[simp] theorem State.toRestore_rxPulseIdx : (s.toRestore).rxPulseIdx = s.rxPulseIdx := rfl
@[simp] theorem State.toRestore_rxUnitsLeft : (s.toRestore).rxUnitsLeft = s.rxUnitsLeft := rfl
@[simp] theorem State.toRestore_rxLevel : (s.toRestore).rxLevel = s.rxLevel := rfl
@[simp] theorem State.toRestore_seqState : (s.toRestore).seqState = .restore := rfl
@[simp] theorem State.toRestore_reqId : (s.toRestore).reqId = s.reqId := rfl
@[simp] theorem State.toRestore_cmdLen : (s.toRestore).cmdLen = s.cmdLen := rfl
@[simp] theorem State.toRestore_requireCrc : (s.toRestore).requireCrc = s.requireCrc := rfl
@[simp] theorem State.toRestore_timeout : (s.toRestore).timeout = s.timeout := rfl
@[simp] theorem State.toRestore_rspCap : (s.toRestore).rspCap = s.rspCap := rfl
@[simp] theorem State.toRestore_status : (s.toRestore).status = s.status := rfl
@[simp] theorem State.toRestore_rspLen : (s.toRestore).rspLen = s.rspLen := rfl
@[simp] theorem State.toRestore_srqLen : (s.toRestore).srqLen = s.srqLen := rfl
@[simp] theorem State.toRestore_tRem : (s.toRestore).tRem = s.tRem := rfl
@[simp] theorem State.toRestore_seconds : (s.toRestore).seconds = s.seconds := rfl
@[simp] theorem State.toRestore_crc : (s.toRestore).crc = s.crc := rfl
@[simp] theorem State.toRestore_cmd : (s.toRestore).cmd = s.cmd := rfl
@[simp] theorem State.toRestore_rsp : (s.toRestore).rsp = s.rsp := rfl
@[simp] theorem State.toRestore_srq : (s.toRestore).srq = s.srq := rfl
@[simp] theorem State.toRestore_txq : (s.toRestore).txq = s.txq := rfl
@[simp] theorem State.toRestore_rxq : (s.toRestore).rxq = s.rxq := rfl
@[simp] theorem State.toRestore_ports : (s.toRestore).ports = s.ports := rfl
@[simp] theorem State.toRestore_sessions : (s.toRestore).sessions = s.sessions := rfl
@[simp] theorem State.toRestore_inputs : (s.toRestore).inputs = s.inputs := rfl
@[simp] theorem State.toRestore_script : (s.toRestore).script = s.script := rfl
@[simp] theorem State.toRestore_draws : (s.toRestore).draws = s.draws := rfl
@[simp] theorem State.toRestore_ret : (s.toRestore).ret = s.ret := rfl
@[simp] theorem State.toRestore_envLog : (s.toRestore).envLog = s.envLog := rfl

/-! ### `deliver` -/

@[simp] theorem State.deliver_cfg (r : Nat) (st : Status) (n : Nat) : (s.deliver r st n).cfg = s.cfg := rfl
@[simp] theorem State.deliver_busValid (r : Nat) (st : Status) (n : Nat) :
    (s.deliver r st n).busValid =
      s.busValid := rfl
@[simp] theorem State.deliver_lineId (r : Nat) (st : Status) (n : Nat) : (s.deliver r st n).lineId = s.lineId := rfl
@[simp] theorem State.deliver_tp (r : Nat) (st : Status) (n : Nat) : (s.deliver r st n).tp = s.tp := rfl
@[simp] theorem State.deliver_dirMode (r : Nat) (st : Status) (n : Nat) :
    (s.deliver r st n).dirMode =
      s.dirMode := rfl
@[simp] theorem State.deliver_dirFailed (r : Nat) (st : Status) (n : Nat) :
    (s.deliver r st n).dirFailed =
      s.dirFailed := rfl
@[simp] theorem State.deliver_lockHeld (r : Nat) (st : Status) (n : Nat) :
    (s.deliver r st n).lockHeld =
      s.lockHeld := rfl
@[simp] theorem State.deliver_lockOwner (r : Nat) (st : Status) (n : Nat) :
    (s.deliver r st n).lockOwner =
      s.lockOwner := rfl
@[simp] theorem State.deliver_lockWaiters (r : Nat) (st : Status) (n : Nat) :
    (s.deliver r st n).lockWaiters =
      s.lockWaiters := rfl
@[simp] theorem State.deliver_txIdx (r : Nat) (st : Status) (n : Nat) : (s.deliver r st n).txIdx = s.txIdx := rfl
@[simp] theorem State.deliver_txUnit (r : Nat) (st : Status) (n : Nat) : (s.deliver r st n).txUnit = s.txUnit := rfl
@[simp] theorem State.deliver_txPar (r : Nat) (st : Status) (n : Nat) : (s.deliver r st n).txPar = s.txPar := rfl
@[simp] theorem State.deliver_decState (r : Nat) (st : Status) (n : Nat) :
    (s.deliver r st n).decState =
      s.decState := rfl
@[simp] theorem State.deliver_acc (r : Nat) (st : Status) (n : Nat) : (s.deliver r st n).acc = s.acc := rfl
@[simp] theorem State.deliver_rxPar (r : Nat) (st : Status) (n : Nat) : (s.deliver r st n).rxPar = s.rxPar := rfl
@[simp] theorem State.deliver_rxPulseIdx (r : Nat) (st : Status) (n : Nat) :
    (s.deliver r st n).rxPulseIdx =
      s.rxPulseIdx := rfl
@[simp] theorem State.deliver_rxUnitsLeft (r : Nat) (st : Status) (n : Nat) :
    (s.deliver r st n).rxUnitsLeft =
      s.rxUnitsLeft := rfl
@[simp] theorem State.deliver_rxLevel (r : Nat) (st : Status) (n : Nat) :
    (s.deliver r st n).rxLevel =
      s.rxLevel := rfl
@[simp] theorem State.deliver_seqState (r : Nat) (st : Status) (n : Nat) :
    (s.deliver r st n).seqState =
      s.seqState := rfl
@[simp] theorem State.deliver_reqId (r : Nat) (st : Status) (n : Nat) : (s.deliver r st n).reqId = s.reqId := rfl
@[simp] theorem State.deliver_cmdLen (r : Nat) (st : Status) (n : Nat) : (s.deliver r st n).cmdLen = s.cmdLen := rfl
@[simp] theorem State.deliver_requireCrc (r : Nat) (st : Status) (n : Nat) :
    (s.deliver r st n).requireCrc =
      s.requireCrc := rfl
@[simp] theorem State.deliver_timeout (r : Nat) (st : Status) (n : Nat) :
    (s.deliver r st n).timeout =
      s.timeout := rfl
@[simp] theorem State.deliver_rspCap (r : Nat) (st : Status) (n : Nat) : (s.deliver r st n).rspCap = s.rspCap := rfl
@[simp] theorem State.deliver_status (r : Nat) (st : Status) (n : Nat) : (s.deliver r st n).status = s.status := rfl
@[simp] theorem State.deliver_rspLen (r : Nat) (st : Status) (n : Nat) : (s.deliver r st n).rspLen = s.rspLen := rfl
@[simp] theorem State.deliver_srqLen (r : Nat) (st : Status) (n : Nat) : (s.deliver r st n).srqLen = s.srqLen := rfl
@[simp] theorem State.deliver_tRem (r : Nat) (st : Status) (n : Nat) : (s.deliver r st n).tRem = s.tRem := rfl
@[simp] theorem State.deliver_seconds (r : Nat) (st : Status) (n : Nat) :
    (s.deliver r st n).seconds =
      s.seconds := rfl
@[simp] theorem State.deliver_crc (r : Nat) (st : Status) (n : Nat) : (s.deliver r st n).crc = s.crc := rfl
@[simp] theorem State.deliver_cmd (r : Nat) (st : Status) (n : Nat) : (s.deliver r st n).cmd = s.cmd := rfl
@[simp] theorem State.deliver_rsp (r : Nat) (st : Status) (n : Nat) : (s.deliver r st n).rsp = s.rsp := rfl
@[simp] theorem State.deliver_srq (r : Nat) (st : Status) (n : Nat) : (s.deliver r st n).srq = s.srq := rfl
@[simp] theorem State.deliver_txq (r : Nat) (st : Status) (n : Nat) : (s.deliver r st n).txq = s.txq := rfl
@[simp] theorem State.deliver_rxq (r : Nat) (st : Status) (n : Nat) : (s.deliver r st n).rxq = s.rxq := rfl
@[simp] theorem State.deliver_ports (r : Nat) (st : Status) (n : Nat) :
    (s.deliver r st n).ports =
      s.ports.modify r (fun p => { p with act := .free, result := some (st, n) }) := rfl
@[simp] theorem State.deliver_sessions (r : Nat) (st : Status) (n : Nat) :
    (s.deliver r st n).sessions =
      s.sessions := rfl
@[simp] theorem State.deliver_inputs (r : Nat) (st : Status) (n : Nat) : (s.deliver r st n).inputs = s.inputs := rfl
@[simp] theorem State.deliver_script (r : Nat) (st : Status) (n : Nat) : (s.deliver r st n).script = s.script := rfl
@[simp] theorem State.deliver_draws (r : Nat) (st : Status) (n : Nat) : (s.deliver r st n).draws = s.draws := rfl
@[simp] theorem State.deliver_ret (r : Nat) (st : Status) (n : Nat) : (s.deliver r st n).ret = s.ret := rfl
@[simp] theorem State.deliver_envLog (r : Nat) (st : Status) (n : Nat) : (s.deliver r st n).envLog = s.envLog := rfl

/-! ### `endEncode` -/

@[simp] theorem State.endEncode_cfg : (s.endEncode).cfg = s.cfg := rfl
@[simp] theorem State.endEncode_busValid : (s.endEncode).busValid = s.busValid := rfl
@[simp] theorem State.endEncode_lineId : (s.endEncode).lineId = s.lineId := rfl
@[simp] theorem State.endEncode_tp : (s.endEncode).tp = s.tp := rfl
@[simp] theorem State.endEncode_dirMode : (s.endEncode).dirMode = s.dirMode := rfl
@[simp] theorem State.endEncode_dirFailed : (s.endEncode).dirFailed = s.dirFailed := rfl
@[simp] theorem State.endEncode_lockHeld : (s.endEncode).lockHeld = s.lockHeld := rfl
@[simp] theorem State.endEncode_lockOwner : (s.endEncode).lockOwner = s.lockOwner := rfl
@[simp] theorem State.endEncode_lockWaiters : (s.endEncode).lockWaiters = s.lockWaiters := rfl
@[simp] theorem State.endEncode_txIdx : (s.endEncode).txIdx = Config.freeTxIdx s.draws := rfl
@[simp] theorem State.endEncode_txUnit : (s.endEncode).txUnit = Config.freeTxUnit s.draws := rfl
@[simp] theorem State.endEncode_txPar : (s.endEncode).txPar = Config.freeTxPar s.draws := rfl
@[simp] theorem State.endEncode_decState : (s.endEncode).decState = s.decState := rfl
@[simp] theorem State.endEncode_acc : (s.endEncode).acc = s.acc := rfl
@[simp] theorem State.endEncode_rxPar : (s.endEncode).rxPar = s.rxPar := rfl
@[simp] theorem State.endEncode_rxPulseIdx : (s.endEncode).rxPulseIdx = s.rxPulseIdx := rfl
@[simp] theorem State.endEncode_rxUnitsLeft : (s.endEncode).rxUnitsLeft = s.rxUnitsLeft := rfl
@[simp] theorem State.endEncode_rxLevel : (s.endEncode).rxLevel = s.rxLevel := rfl
@[simp] theorem State.endEncode_seqState : (s.endEncode).seqState = s.seqState := rfl
@[simp] theorem State.endEncode_reqId : (s.endEncode).reqId = s.reqId := rfl
@[simp] theorem State.endEncode_cmdLen : (s.endEncode).cmdLen = s.cmdLen := rfl
@[simp] theorem State.endEncode_requireCrc : (s.endEncode).requireCrc = s.requireCrc := rfl
@[simp] theorem State.endEncode_timeout : (s.endEncode).timeout = s.timeout := rfl
@[simp] theorem State.endEncode_rspCap : (s.endEncode).rspCap = s.rspCap := rfl
@[simp] theorem State.endEncode_status : (s.endEncode).status = s.status := rfl
@[simp] theorem State.endEncode_rspLen : (s.endEncode).rspLen = s.rspLen := rfl
@[simp] theorem State.endEncode_srqLen : (s.endEncode).srqLen = s.srqLen := rfl
@[simp] theorem State.endEncode_tRem : (s.endEncode).tRem = s.tRem := rfl
@[simp] theorem State.endEncode_seconds : (s.endEncode).seconds = s.seconds := rfl
@[simp] theorem State.endEncode_crc : (s.endEncode).crc = s.crc := rfl
@[simp] theorem State.endEncode_cmd : (s.endEncode).cmd = s.cmd := rfl
@[simp] theorem State.endEncode_rsp : (s.endEncode).rsp = s.rsp := rfl
@[simp] theorem State.endEncode_srq : (s.endEncode).srq = s.srq := rfl
@[simp] theorem State.endEncode_txq : (s.endEncode).txq = s.txq := rfl
@[simp] theorem State.endEncode_rxq : (s.endEncode).rxq = s.rxq := rfl
@[simp] theorem State.endEncode_ports : (s.endEncode).ports = s.ports := rfl
@[simp] theorem State.endEncode_sessions : (s.endEncode).sessions = s.sessions := rfl
@[simp] theorem State.endEncode_inputs : (s.endEncode).inputs = s.inputs := rfl
@[simp] theorem State.endEncode_script : (s.endEncode).script = s.script := rfl
@[simp] theorem State.endEncode_draws : (s.endEncode).draws = s.draws + 1 := rfl
@[simp] theorem State.endEncode_ret : (s.endEncode).ret = s.ret := rfl
@[simp] theorem State.endEncode_envLog : (s.endEncode).envLog = s.envLog := rfl

/-! ### `encodeCommand` -/

@[simp] theorem State.encodeCommand_cfg : (s.encodeCommand).cfg = s.cfg := rfl
@[simp] theorem State.encodeCommand_busValid : (s.encodeCommand).busValid = s.busValid := rfl
@[simp] theorem State.encodeCommand_lineId : (s.encodeCommand).lineId = s.lineId := rfl
@[simp] theorem State.encodeCommand_tp : (s.encodeCommand).tp = s.tp := rfl
@[simp] theorem State.encodeCommand_dirMode : (s.encodeCommand).dirMode = s.dirMode := rfl
@[simp] theorem State.encodeCommand_dirFailed : (s.encodeCommand).dirFailed = s.dirFailed := rfl
@[simp] theorem State.encodeCommand_lockHeld : (s.encodeCommand).lockHeld = s.lockHeld := rfl
@[simp] theorem State.encodeCommand_lockOwner : (s.encodeCommand).lockOwner = s.lockOwner := rfl
@[simp] theorem State.encodeCommand_lockWaiters : (s.encodeCommand).lockWaiters = s.lockWaiters := rfl
@[simp] theorem State.encodeCommand_txIdx : (s.encodeCommand).txIdx = Config.freeTxIdx s.draws := rfl
@[simp] theorem State.encodeCommand_txUnit : (s.encodeCommand).txUnit = Config.freeTxUnit s.draws := rfl
@[simp] theorem State.encodeCommand_txPar : (s.encodeCommand).txPar = Config.freeTxPar s.draws := rfl
@[simp] theorem State.encodeCommand_decState : (s.encodeCommand).decState = s.decState := rfl
@[simp] theorem State.encodeCommand_acc : (s.encodeCommand).acc = s.acc := rfl
@[simp] theorem State.encodeCommand_rxPar : (s.encodeCommand).rxPar = s.rxPar := rfl
@[simp] theorem State.encodeCommand_rxPulseIdx : (s.encodeCommand).rxPulseIdx = s.rxPulseIdx := rfl
@[simp] theorem State.encodeCommand_rxUnitsLeft : (s.encodeCommand).rxUnitsLeft = s.rxUnitsLeft := rfl
@[simp] theorem State.encodeCommand_rxLevel : (s.encodeCommand).rxLevel = s.rxLevel := rfl
@[simp] theorem State.encodeCommand_seqState : (s.encodeCommand).seqState = s.seqState := rfl
@[simp] theorem State.encodeCommand_reqId : (s.encodeCommand).reqId = s.reqId := rfl
@[simp] theorem State.encodeCommand_cmdLen : (s.encodeCommand).cmdLen = s.cmdLen := rfl
@[simp] theorem State.encodeCommand_requireCrc : (s.encodeCommand).requireCrc = s.requireCrc := rfl
@[simp] theorem State.encodeCommand_timeout : (s.encodeCommand).timeout = s.timeout := rfl
@[simp] theorem State.encodeCommand_rspCap : (s.encodeCommand).rspCap = s.rspCap := rfl
@[simp] theorem State.encodeCommand_status : (s.encodeCommand).status = s.status := rfl
@[simp] theorem State.encodeCommand_rspLen : (s.encodeCommand).rspLen = s.rspLen := rfl
@[simp] theorem State.encodeCommand_srqLen : (s.encodeCommand).srqLen = s.srqLen := rfl
@[simp] theorem State.encodeCommand_tRem : (s.encodeCommand).tRem = s.tRem := rfl
@[simp] theorem State.encodeCommand_seconds : (s.encodeCommand).seconds = s.seconds := rfl
@[simp] theorem State.encodeCommand_crc : (s.encodeCommand).crc = s.crc := rfl
@[simp] theorem State.encodeCommand_cmd : (s.encodeCommand).cmd = s.cmd := rfl
@[simp] theorem State.encodeCommand_rsp : (s.encodeCommand).rsp = s.rsp := rfl
@[simp] theorem State.encodeCommand_srq : (s.encodeCommand).srq = s.srq := rfl
@[simp] theorem State.encodeCommand_txq :
    (s.encodeCommand).txq = s.encoded := rfl
@[simp] theorem State.encodeCommand_rxq : (s.encodeCommand).rxq = s.rxq := rfl
@[simp] theorem State.encodeCommand_ports : (s.encodeCommand).ports = s.ports := rfl
@[simp] theorem State.encodeCommand_sessions : (s.encodeCommand).sessions = s.sessions := rfl
@[simp] theorem State.encodeCommand_inputs : (s.encodeCommand).inputs = s.inputs := rfl
@[simp] theorem State.encodeCommand_script : (s.encodeCommand).script = s.script := rfl
@[simp] theorem State.encodeCommand_draws : (s.encodeCommand).draws = s.draws + 1 := rfl
@[simp] theorem State.encodeCommand_ret : (s.encodeCommand).ret = s.ret := rfl
@[simp] theorem State.encodeCommand_envLog : (s.encodeCommand).envLog = s.envLog := rfl

/-! ### `afterVerify` -/

@[simp] theorem State.afterVerify_cfg : (s.afterVerify).cfg = s.cfg := rfl
@[simp] theorem State.afterVerify_busValid : (s.afterVerify).busValid = s.busValid := rfl
@[simp] theorem State.afterVerify_lineId : (s.afterVerify).lineId = s.lineId := rfl
@[simp] theorem State.afterVerify_tp : (s.afterVerify).tp = s.tp := rfl
@[simp] theorem State.afterVerify_dirMode : (s.afterVerify).dirMode = s.dirMode := rfl
@[simp] theorem State.afterVerify_dirFailed : (s.afterVerify).dirFailed = s.dirFailed := rfl
@[simp] theorem State.afterVerify_lockHeld : (s.afterVerify).lockHeld = s.lockHeld := rfl
@[simp] theorem State.afterVerify_lockOwner : (s.afterVerify).lockOwner = s.lockOwner := rfl
@[simp] theorem State.afterVerify_lockWaiters : (s.afterVerify).lockWaiters = s.lockWaiters := rfl
@[simp] theorem State.afterVerify_txIdx : (s.afterVerify).txIdx = s.txIdx := rfl
@[simp] theorem State.afterVerify_txUnit : (s.afterVerify).txUnit = s.txUnit := rfl
@[simp] theorem State.afterVerify_txPar : (s.afterVerify).txPar = s.txPar := rfl
@[simp] theorem State.afterVerify_decState : (s.afterVerify).decState = s.decState := rfl
@[simp] theorem State.afterVerify_acc : (s.afterVerify).acc = s.acc := rfl
@[simp] theorem State.afterVerify_rxPar : (s.afterVerify).rxPar = s.rxPar := rfl
@[simp] theorem State.afterVerify_rxPulseIdx : (s.afterVerify).rxPulseIdx = s.rxPulseIdx := rfl
@[simp] theorem State.afterVerify_rxUnitsLeft : (s.afterVerify).rxUnitsLeft = s.rxUnitsLeft := rfl
@[simp] theorem State.afterVerify_rxLevel : (s.afterVerify).rxLevel = s.rxLevel := rfl
@[simp] theorem State.afterVerify_seqState : (s.afterVerify).seqState = s.seqState := rfl
@[simp] theorem State.afterVerify_reqId : (s.afterVerify).reqId = s.reqId := rfl
@[simp] theorem State.afterVerify_cmdLen : (s.afterVerify).cmdLen = s.cmdLen := rfl
@[simp] theorem State.afterVerify_requireCrc : (s.afterVerify).requireCrc = s.requireCrc := rfl
@[simp] theorem State.afterVerify_timeout : (s.afterVerify).timeout = s.timeout := rfl
@[simp] theorem State.afterVerify_rspCap : (s.afterVerify).rspCap = s.rspCap := rfl
@[simp] theorem State.afterVerify_status : (s.afterVerify).status = s.status := rfl
@[simp] theorem State.afterVerify_rspLen : (s.afterVerify).rspLen = s.rspLen := rfl
@[simp] theorem State.afterVerify_srqLen : (s.afterVerify).srqLen = s.srqLen := rfl
@[simp] theorem State.afterVerify_tRem : (s.afterVerify).tRem = s.tRem := rfl
@[simp] theorem State.afterVerify_seconds : (s.afterVerify).seconds = s.seconds := rfl
@[simp] theorem State.afterVerify_crc :
    (s.afterVerify).crc =
      (if s.rspLen < 3 then s.crc else crcOf (s.rspLine.take (s.rspLen - 3))) := rfl
@[simp] theorem State.afterVerify_cmd : (s.afterVerify).cmd = s.cmd := rfl
@[simp] theorem State.afterVerify_rsp : (s.afterVerify).rsp = s.rsp := rfl
@[simp] theorem State.afterVerify_srq : (s.afterVerify).srq = s.srq := rfl
@[simp] theorem State.afterVerify_txq : (s.afterVerify).txq = s.txq := rfl
@[simp] theorem State.afterVerify_rxq : (s.afterVerify).rxq = s.rxq := rfl
@[simp] theorem State.afterVerify_ports : (s.afterVerify).ports = s.ports := rfl
@[simp] theorem State.afterVerify_sessions : (s.afterVerify).sessions = s.sessions := rfl
@[simp] theorem State.afterVerify_inputs : (s.afterVerify).inputs = s.inputs := rfl
@[simp] theorem State.afterVerify_script : (s.afterVerify).script = s.script := rfl
@[simp] theorem State.afterVerify_draws : (s.afterVerify).draws = s.draws := rfl
@[simp] theorem State.afterVerify_ret : (s.afterVerify).ret = s.ret := rfl
@[simp] theorem State.afterVerify_envLog : (s.afterVerify).envLog = s.envLog := rfl

/-! ### `strip` -/

@[simp] theorem State.strip_cfg : (s.strip).cfg = s.cfg := rfl
@[simp] theorem State.strip_busValid : (s.strip).busValid = s.busValid := rfl
@[simp] theorem State.strip_lineId : (s.strip).lineId = s.lineId := rfl
@[simp] theorem State.strip_tp : (s.strip).tp = s.tp := rfl
@[simp] theorem State.strip_dirMode : (s.strip).dirMode = s.dirMode := rfl
@[simp] theorem State.strip_dirFailed : (s.strip).dirFailed = s.dirFailed := rfl
@[simp] theorem State.strip_lockHeld : (s.strip).lockHeld = s.lockHeld := rfl
@[simp] theorem State.strip_lockOwner : (s.strip).lockOwner = s.lockOwner := rfl
@[simp] theorem State.strip_lockWaiters : (s.strip).lockWaiters = s.lockWaiters := rfl
@[simp] theorem State.strip_txIdx : (s.strip).txIdx = s.txIdx := rfl
@[simp] theorem State.strip_txUnit : (s.strip).txUnit = s.txUnit := rfl
@[simp] theorem State.strip_txPar : (s.strip).txPar = s.txPar := rfl
@[simp] theorem State.strip_decState : (s.strip).decState = s.decState := rfl
@[simp] theorem State.strip_acc : (s.strip).acc = s.acc := rfl
@[simp] theorem State.strip_rxPar : (s.strip).rxPar = s.rxPar := rfl
@[simp] theorem State.strip_rxPulseIdx : (s.strip).rxPulseIdx = s.rxPulseIdx := rfl
@[simp] theorem State.strip_rxUnitsLeft : (s.strip).rxUnitsLeft = s.rxUnitsLeft := rfl
@[simp] theorem State.strip_rxLevel : (s.strip).rxLevel = s.rxLevel := rfl
@[simp] theorem State.strip_seqState : (s.strip).seqState = s.seqState := rfl
@[simp] theorem State.strip_reqId : (s.strip).reqId = s.reqId := rfl
@[simp] theorem State.strip_cmdLen : (s.strip).cmdLen = s.cmdLen := rfl
@[simp] theorem State.strip_requireCrc : (s.strip).requireCrc = s.requireCrc := rfl
@[simp] theorem State.strip_timeout : (s.strip).timeout = s.timeout := rfl
@[simp] theorem State.strip_rspCap : (s.strip).rspCap = s.rspCap := rfl
@[simp] theorem State.strip_status : (s.strip).status = s.status := rfl
@[simp] theorem State.strip_rspLen : (s.strip).rspLen = s.rspLen - 3 := rfl
@[simp] theorem State.strip_srqLen : (s.strip).srqLen = s.srqLen := rfl
@[simp] theorem State.strip_tRem : (s.strip).tRem = s.tRem := rfl
@[simp] theorem State.strip_seconds : (s.strip).seconds = s.seconds := rfl
@[simp] theorem State.strip_crc : (s.strip).crc = s.crc := rfl
@[simp] theorem State.strip_cmd : (s.strip).cmd = s.cmd := rfl
@[simp] theorem State.strip_rsp : (s.strip).rsp = Memory.write s.rsp (s.rspLen - 3) chNul := rfl
@[simp] theorem State.strip_srq : (s.strip).srq = s.srq := rfl
@[simp] theorem State.strip_txq : (s.strip).txq = s.txq := rfl
@[simp] theorem State.strip_rxq : (s.strip).rxq = s.rxq := rfl
@[simp] theorem State.strip_ports : (s.strip).ports = s.ports := rfl
@[simp] theorem State.strip_sessions : (s.strip).sessions = s.sessions := rfl
@[simp] theorem State.strip_inputs : (s.strip).inputs = s.inputs := rfl
@[simp] theorem State.strip_script : (s.strip).script = s.script := rfl
@[simp] theorem State.strip_draws : (s.strip).draws = s.draws := rfl
@[simp] theorem State.strip_ret : (s.strip).ret = s.ret := rfl
@[simp] theorem State.strip_envLog : (s.strip).envLog = s.envLog := rfl

/-! ### `answer` -/

@[simp] theorem State.answer_cfg (st : Status) : (s.answer st).cfg = s.cfg := rfl
@[simp] theorem State.answer_busValid (st : Status) : (s.answer st).busValid = s.busValid := rfl
@[simp] theorem State.answer_lineId (st : Status) : (s.answer st).lineId = s.lineId := rfl
@[simp] theorem State.answer_tp (st : Status) : (s.answer st).tp = s.tp := rfl
@[simp] theorem State.answer_dirMode (st : Status) : (s.answer st).dirMode = s.dirMode := rfl
@[simp] theorem State.answer_dirFailed (st : Status) : (s.answer st).dirFailed = s.dirFailed := rfl
@[simp] theorem State.answer_lockHeld (st : Status) : (s.answer st).lockHeld = s.lockHeld := rfl
@[simp] theorem State.answer_lockOwner (st : Status) : (s.answer st).lockOwner = s.lockOwner := rfl
@[simp] theorem State.answer_lockWaiters (st : Status) : (s.answer st).lockWaiters = s.lockWaiters := rfl
@[simp] theorem State.answer_txIdx (st : Status) : (s.answer st).txIdx = s.txIdx := rfl
@[simp] theorem State.answer_txUnit (st : Status) : (s.answer st).txUnit = s.txUnit := rfl
@[simp] theorem State.answer_txPar (st : Status) : (s.answer st).txPar = s.txPar := rfl
@[simp] theorem State.answer_decState (st : Status) : (s.answer st).decState = s.decState := rfl
@[simp] theorem State.answer_acc (st : Status) : (s.answer st).acc = s.acc := rfl
@[simp] theorem State.answer_rxPar (st : Status) : (s.answer st).rxPar = s.rxPar := rfl
@[simp] theorem State.answer_rxPulseIdx (st : Status) : (s.answer st).rxPulseIdx = s.rxPulseIdx := rfl
@[simp] theorem State.answer_rxUnitsLeft (st : Status) : (s.answer st).rxUnitsLeft = s.rxUnitsLeft := rfl
@[simp] theorem State.answer_rxLevel (st : Status) : (s.answer st).rxLevel = s.rxLevel := rfl
@[simp] theorem State.answer_seqState (st : Status) : (s.answer st).seqState = s.seqState := rfl
@[simp] theorem State.answer_reqId (st : Status) : (s.answer st).reqId = s.reqId := rfl
@[simp] theorem State.answer_cmdLen (st : Status) : (s.answer st).cmdLen = s.cmdLen := rfl
@[simp] theorem State.answer_requireCrc (st : Status) : (s.answer st).requireCrc = s.requireCrc := rfl
@[simp] theorem State.answer_timeout (st : Status) : (s.answer st).timeout = s.timeout := rfl
@[simp] theorem State.answer_rspCap (st : Status) : (s.answer st).rspCap = s.rspCap := rfl
@[simp] theorem State.answer_status (st : Status) : (s.answer st).status = s.status := rfl
@[simp] theorem State.answer_rspLen (st : Status) : (s.answer st).rspLen = s.rspLen := rfl
@[simp] theorem State.answer_srqLen (st : Status) : (s.answer st).srqLen = s.srqLen := rfl
@[simp] theorem State.answer_tRem (st : Status) : (s.answer st).tRem = s.tRem := rfl
@[simp] theorem State.answer_seconds (st : Status) : (s.answer st).seconds = s.seconds := rfl
@[simp] theorem State.answer_crc (st : Status) : (s.answer st).crc = s.crc := rfl
@[simp] theorem State.answer_cmd (st : Status) : (s.answer st).cmd = s.cmd := rfl
@[simp] theorem State.answer_rsp (st : Status) : (s.answer st).rsp = s.rsp := rfl
@[simp] theorem State.answer_srq (st : Status) : (s.answer st).srq = s.srq := rfl
@[simp] theorem State.answer_txq (st : Status) : (s.answer st).txq = s.txq := rfl
@[simp] theorem State.answer_rxq (st : Status) : (s.answer st).rxq = s.rxq := rfl
@[simp] theorem State.answer_ports (st : Status) : (s.answer st).ports = s.ports := rfl
@[simp] theorem State.answer_sessions (st : Status) : (s.answer st).sessions = s.sessions := rfl
@[simp] theorem State.answer_inputs (st : Status) : (s.answer st).inputs = s.inputs := rfl
@[simp] theorem State.answer_script (st : Status) : (s.answer st).script = s.script := rfl
@[simp] theorem State.answer_draws (st : Status) : (s.answer st).draws = s.draws := rfl
@[simp] theorem State.answer_ret (st : Status) : (s.answer st).ret = .status st := rfl
@[simp] theorem State.answer_envLog (st : Status) : (s.answer st).envLog = s.envLog := rfl

/-! ### `verbAnswer` -/

@[simp] theorem State.verbAnswer_cfg (r : Nat) (st : Status) : (s.verbAnswer r st).cfg = s.cfg := rfl
@[simp] theorem State.verbAnswer_busValid (r : Nat) (st : Status) : (s.verbAnswer r st).busValid = s.busValid := rfl
@[simp] theorem State.verbAnswer_lineId (r : Nat) (st : Status) : (s.verbAnswer r st).lineId = s.lineId := rfl
@[simp] theorem State.verbAnswer_tp (r : Nat) (st : Status) : (s.verbAnswer r st).tp = s.tp := rfl
@[simp] theorem State.verbAnswer_dirMode (r : Nat) (st : Status) : (s.verbAnswer r st).dirMode = s.dirMode := rfl
@[simp] theorem State.verbAnswer_dirFailed (r : Nat) (st : Status) : (s.verbAnswer r st).dirFailed = s.dirFailed := rfl
@[simp] theorem State.verbAnswer_lockHeld (r : Nat) (st : Status) : (s.verbAnswer r st).lockHeld = s.lockHeld := rfl
@[simp] theorem State.verbAnswer_lockOwner (r : Nat) (st : Status) :
    (s.verbAnswer r st).lockOwner =
      s.lockOwner := rfl
@[simp] theorem State.verbAnswer_lockWaiters (r : Nat) (st : Status) :
    (s.verbAnswer r st).lockWaiters =
      s.lockWaiters := rfl
@[simp] theorem State.verbAnswer_txIdx (r : Nat) (st : Status) : (s.verbAnswer r st).txIdx = s.txIdx := rfl
@[simp] theorem State.verbAnswer_txUnit (r : Nat) (st : Status) : (s.verbAnswer r st).txUnit = s.txUnit := rfl
@[simp] theorem State.verbAnswer_txPar (r : Nat) (st : Status) : (s.verbAnswer r st).txPar = s.txPar := rfl
@[simp] theorem State.verbAnswer_decState (r : Nat) (st : Status) : (s.verbAnswer r st).decState = s.decState := rfl
@[simp] theorem State.verbAnswer_acc (r : Nat) (st : Status) : (s.verbAnswer r st).acc = s.acc := rfl
@[simp] theorem State.verbAnswer_rxPar (r : Nat) (st : Status) : (s.verbAnswer r st).rxPar = s.rxPar := rfl
@[simp] theorem State.verbAnswer_rxPulseIdx (r : Nat) (st : Status) :
    (s.verbAnswer r st).rxPulseIdx =
      s.rxPulseIdx := rfl
@[simp] theorem State.verbAnswer_rxUnitsLeft (r : Nat) (st : Status) :
    (s.verbAnswer r st).rxUnitsLeft =
      s.rxUnitsLeft := rfl
@[simp] theorem State.verbAnswer_rxLevel (r : Nat) (st : Status) : (s.verbAnswer r st).rxLevel = s.rxLevel := rfl
@[simp] theorem State.verbAnswer_seqState (r : Nat) (st : Status) : (s.verbAnswer r st).seqState = s.seqState := rfl
@[simp] theorem State.verbAnswer_reqId (r : Nat) (st : Status) : (s.verbAnswer r st).reqId = s.reqId := rfl
@[simp] theorem State.verbAnswer_cmdLen (r : Nat) (st : Status) : (s.verbAnswer r st).cmdLen = s.cmdLen := rfl
@[simp] theorem State.verbAnswer_requireCrc (r : Nat) (st : Status) :
    (s.verbAnswer r st).requireCrc =
      s.requireCrc := rfl
@[simp] theorem State.verbAnswer_timeout (r : Nat) (st : Status) : (s.verbAnswer r st).timeout = s.timeout := rfl
@[simp] theorem State.verbAnswer_rspCap (r : Nat) (st : Status) : (s.verbAnswer r st).rspCap = s.rspCap := rfl
@[simp] theorem State.verbAnswer_status (r : Nat) (st : Status) : (s.verbAnswer r st).status = s.status := rfl
@[simp] theorem State.verbAnswer_rspLen (r : Nat) (st : Status) : (s.verbAnswer r st).rspLen = s.rspLen := rfl
@[simp] theorem State.verbAnswer_srqLen (r : Nat) (st : Status) : (s.verbAnswer r st).srqLen = s.srqLen := rfl
@[simp] theorem State.verbAnswer_tRem (r : Nat) (st : Status) : (s.verbAnswer r st).tRem = s.tRem := rfl
@[simp] theorem State.verbAnswer_seconds (r : Nat) (st : Status) : (s.verbAnswer r st).seconds = s.seconds := rfl
@[simp] theorem State.verbAnswer_crc (r : Nat) (st : Status) : (s.verbAnswer r st).crc = s.crc := rfl
@[simp] theorem State.verbAnswer_cmd (r : Nat) (st : Status) : (s.verbAnswer r st).cmd = s.cmd := rfl
@[simp] theorem State.verbAnswer_rsp (r : Nat) (st : Status) : (s.verbAnswer r st).rsp = s.rsp := rfl
@[simp] theorem State.verbAnswer_srq (r : Nat) (st : Status) : (s.verbAnswer r st).srq = s.srq := rfl
@[simp] theorem State.verbAnswer_txq (r : Nat) (st : Status) : (s.verbAnswer r st).txq = s.txq := rfl
@[simp] theorem State.verbAnswer_rxq (r : Nat) (st : Status) : (s.verbAnswer r st).rxq = s.rxq := rfl
@[simp] theorem State.verbAnswer_ports (r : Nat) (st : Status) : (s.verbAnswer r st).ports = s.ports.modify r
      (fun p => { p with result := none, verb := none, verbResult := some (st, .nothing) }) := rfl
@[simp] theorem State.verbAnswer_sessions (r : Nat) (st : Status) : (s.verbAnswer r st).sessions = s.sessions := rfl
@[simp] theorem State.verbAnswer_inputs (r : Nat) (st : Status) : (s.verbAnswer r st).inputs = s.inputs := rfl
@[simp] theorem State.verbAnswer_script (r : Nat) (st : Status) : (s.verbAnswer r st).script = s.script := rfl
@[simp] theorem State.verbAnswer_draws (r : Nat) (st : Status) : (s.verbAnswer r st).draws = s.draws := rfl
@[simp] theorem State.verbAnswer_ret (r : Nat) (st : Status) : (s.verbAnswer r st).ret = s.ret := rfl
@[simp] theorem State.verbAnswer_envLog (r : Nat) (st : Status) : (s.verbAnswer r st).envLog = s.envLog := rfl

/-! ### `latch` -/

@[simp] theorem State.latch_cfg (r : Nat) (q : Request) (v : Option Verb) : (s.latch r q v).cfg = s.cfg := rfl
@[simp] theorem State.latch_busValid (r : Nat) (q : Request) (v : Option Verb) :
    (s.latch r q v).busValid = s.busValid := rfl
@[simp] theorem State.latch_lineId (r : Nat) (q : Request) (v : Option Verb) : (s.latch r q v).lineId = s.lineId := rfl
@[simp] theorem State.latch_tp (r : Nat) (q : Request) (v : Option Verb) : (s.latch r q v).tp = s.tp := rfl
@[simp] theorem State.latch_dirMode (r : Nat) (q : Request) (v : Option Verb) :
    (s.latch r q v).dirMode = s.dirMode := rfl
@[simp] theorem State.latch_dirFailed (r : Nat) (q : Request) (v : Option Verb) :
    (s.latch r q v).dirFailed = s.dirFailed := rfl
@[simp] theorem State.latch_lockHeld (r : Nat) (q : Request) (v : Option Verb) :
    (s.latch r q v).lockHeld = s.lockHeld := rfl
@[simp] theorem State.latch_lockOwner (r : Nat) (q : Request) (v : Option Verb) :
    (s.latch r q v).lockOwner = s.lockOwner := rfl
@[simp] theorem State.latch_lockWaiters (r : Nat) (q : Request) (v : Option Verb) :
    (s.latch r q v).lockWaiters = s.lockWaiters := rfl
@[simp] theorem State.latch_txIdx (r : Nat) (q : Request) (v : Option Verb) : (s.latch r q v).txIdx = s.txIdx := rfl
@[simp] theorem State.latch_txUnit (r : Nat) (q : Request) (v : Option Verb) : (s.latch r q v).txUnit = s.txUnit := rfl
@[simp] theorem State.latch_txPar (r : Nat) (q : Request) (v : Option Verb) : (s.latch r q v).txPar = s.txPar := rfl
@[simp] theorem State.latch_decState (r : Nat) (q : Request) (v : Option Verb) :
    (s.latch r q v).decState = s.decState := rfl
@[simp] theorem State.latch_acc (r : Nat) (q : Request) (v : Option Verb) : (s.latch r q v).acc = s.acc := rfl
@[simp] theorem State.latch_rxPar (r : Nat) (q : Request) (v : Option Verb) : (s.latch r q v).rxPar = s.rxPar := rfl
@[simp] theorem State.latch_rxPulseIdx (r : Nat) (q : Request) (v : Option Verb) :
    (s.latch r q v).rxPulseIdx = s.rxPulseIdx := rfl
@[simp] theorem State.latch_rxUnitsLeft (r : Nat) (q : Request) (v : Option Verb) :
    (s.latch r q v).rxUnitsLeft = s.rxUnitsLeft := rfl
@[simp] theorem State.latch_rxLevel (r : Nat) (q : Request) (v : Option Verb) :
    (s.latch r q v).rxLevel = s.rxLevel := rfl
@[simp] theorem State.latch_seqState (r : Nat) (q : Request) (v : Option Verb) :
    (s.latch r q v).seqState = s.seqState := rfl
@[simp] theorem State.latch_reqId (r : Nat) (q : Request) (v : Option Verb) : (s.latch r q v).reqId = s.reqId := rfl
@[simp] theorem State.latch_cmdLen (r : Nat) (q : Request) (v : Option Verb) : (s.latch r q v).cmdLen = s.cmdLen := rfl
@[simp] theorem State.latch_requireCrc (r : Nat) (q : Request) (v : Option Verb) :
    (s.latch r q v).requireCrc = s.requireCrc := rfl
@[simp] theorem State.latch_timeout (r : Nat) (q : Request) (v : Option Verb) :
    (s.latch r q v).timeout = s.timeout := rfl
@[simp] theorem State.latch_rspCap (r : Nat) (q : Request) (v : Option Verb) : (s.latch r q v).rspCap = s.rspCap := rfl
@[simp] theorem State.latch_status (r : Nat) (q : Request) (v : Option Verb) : (s.latch r q v).status = s.status := rfl
@[simp] theorem State.latch_rspLen (r : Nat) (q : Request) (v : Option Verb) : (s.latch r q v).rspLen = s.rspLen := rfl
@[simp] theorem State.latch_srqLen (r : Nat) (q : Request) (v : Option Verb) : (s.latch r q v).srqLen = s.srqLen := rfl
@[simp] theorem State.latch_tRem (r : Nat) (q : Request) (v : Option Verb) : (s.latch r q v).tRem = s.tRem := rfl
@[simp] theorem State.latch_seconds (r : Nat) (q : Request) (v : Option Verb) :
    (s.latch r q v).seconds = s.seconds := rfl
@[simp] theorem State.latch_crc (r : Nat) (q : Request) (v : Option Verb) : (s.latch r q v).crc = s.crc := rfl
@[simp] theorem State.latch_cmd (r : Nat) (q : Request) (v : Option Verb) : (s.latch r q v).cmd = s.cmd := rfl
@[simp] theorem State.latch_rsp (r : Nat) (q : Request) (v : Option Verb) : (s.latch r q v).rsp = s.rsp := rfl
@[simp] theorem State.latch_srq (r : Nat) (q : Request) (v : Option Verb) : (s.latch r q v).srq = s.srq := rfl
@[simp] theorem State.latch_txq (r : Nat) (q : Request) (v : Option Verb) : (s.latch r q v).txq = s.txq := rfl
@[simp] theorem State.latch_rxq (r : Nat) (q : Request) (v : Option Verb) : (s.latch r q v).rxq = s.rxq := rfl
@[simp] theorem State.latch_ports (r : Nat) (q : Request) (v : Option Verb) :
    (s.latch r q v).ports = s.ports.modify r (fun p => { p with req := q, result := none, verb := v, verbResult := none }) := rfl
@[simp] theorem State.latch_sessions (r : Nat) (q : Request) (v : Option Verb) :
    (s.latch r q v).sessions = s.sessions := rfl
@[simp] theorem State.latch_inputs (r : Nat) (q : Request) (v : Option Verb) : (s.latch r q v).inputs = s.inputs := rfl
@[simp] theorem State.latch_script (r : Nat) (q : Request) (v : Option Verb) : (s.latch r q v).script = s.script := rfl
@[simp] theorem State.latch_draws (r : Nat) (q : Request) (v : Option Verb) : (s.latch r q v).draws = s.draws := rfl
@[simp] theorem State.latch_ret (r : Nat) (q : Request) (v : Option Verb) : (s.latch r q v).ret = s.ret := rfl
@[simp] theorem State.latch_envLog (r : Nat) (q : Request) (v : Option Verb) : (s.latch r q v).envLog = s.envLog := rfl

/-! ### `setLen` -/

@[simp] theorem State.setLen_cfg (d : Dst) (n : Nat) : (s.setLen d n).cfg = s.cfg := by cases d <;> rfl
@[simp] theorem State.setLen_busValid (d : Dst) (n : Nat) : (s.setLen d n).busValid = s.busValid := by cases d <;> rfl
@[simp] theorem State.setLen_lineId (d : Dst) (n : Nat) : (s.setLen d n).lineId = s.lineId := by cases d <;> rfl
@[simp] theorem State.setLen_tp (d : Dst) (n : Nat) : (s.setLen d n).tp = s.tp := by cases d <;> rfl
@[simp] theorem State.setLen_dirMode (d : Dst) (n : Nat) : (s.setLen d n).dirMode = s.dirMode := by cases d <;> rfl
@[simp] theorem State.setLen_dirFailed (d : Dst) (n : Nat) : (s.setLen d n).dirFailed = s.dirFailed := by cases d <;> rfl
@[simp] theorem State.setLen_lockHeld (d : Dst) (n : Nat) : (s.setLen d n).lockHeld = s.lockHeld := by cases d <;> rfl
@[simp] theorem State.setLen_lockOwner (d : Dst) (n : Nat) : (s.setLen d n).lockOwner = s.lockOwner := by cases d <;> rfl
@[simp] theorem State.setLen_lockWaiters (d : Dst) (n : Nat) : (s.setLen d n).lockWaiters = s.lockWaiters := by cases d <;> rfl
@[simp] theorem State.setLen_txIdx (d : Dst) (n : Nat) : (s.setLen d n).txIdx = s.txIdx := by cases d <;> rfl
@[simp] theorem State.setLen_txUnit (d : Dst) (n : Nat) : (s.setLen d n).txUnit = s.txUnit := by cases d <;> rfl
@[simp] theorem State.setLen_txPar (d : Dst) (n : Nat) : (s.setLen d n).txPar = s.txPar := by cases d <;> rfl
@[simp] theorem State.setLen_decState (d : Dst) (n : Nat) : (s.setLen d n).decState = s.decState := by cases d <;> rfl
@[simp] theorem State.setLen_acc (d : Dst) (n : Nat) : (s.setLen d n).acc = s.acc := by cases d <;> rfl
@[simp] theorem State.setLen_rxPar (d : Dst) (n : Nat) : (s.setLen d n).rxPar = s.rxPar := by cases d <;> rfl
@[simp] theorem State.setLen_rxPulseIdx (d : Dst) (n : Nat) : (s.setLen d n).rxPulseIdx = s.rxPulseIdx := by cases d <;> rfl
@[simp] theorem State.setLen_rxUnitsLeft (d : Dst) (n : Nat) : (s.setLen d n).rxUnitsLeft = s.rxUnitsLeft := by cases d <;> rfl
@[simp] theorem State.setLen_rxLevel (d : Dst) (n : Nat) : (s.setLen d n).rxLevel = s.rxLevel := by cases d <;> rfl
@[simp] theorem State.setLen_seqState (d : Dst) (n : Nat) : (s.setLen d n).seqState = s.seqState := by cases d <;> rfl
@[simp] theorem State.setLen_reqId (d : Dst) (n : Nat) : (s.setLen d n).reqId = s.reqId := by cases d <;> rfl
@[simp] theorem State.setLen_cmdLen (d : Dst) (n : Nat) : (s.setLen d n).cmdLen = s.cmdLen := by cases d <;> rfl
@[simp] theorem State.setLen_requireCrc (d : Dst) (n : Nat) : (s.setLen d n).requireCrc = s.requireCrc := by cases d <;> rfl
@[simp] theorem State.setLen_timeout (d : Dst) (n : Nat) : (s.setLen d n).timeout = s.timeout := by cases d <;> rfl
@[simp] theorem State.setLen_rspCap (d : Dst) (n : Nat) : (s.setLen d n).rspCap = s.rspCap := by cases d <;> rfl
@[simp] theorem State.setLen_status (d : Dst) (n : Nat) : (s.setLen d n).status = s.status := by cases d <;> rfl
@[simp] theorem State.setLen_tRem (d : Dst) (n : Nat) : (s.setLen d n).tRem = s.tRem := by cases d <;> rfl
@[simp] theorem State.setLen_seconds (d : Dst) (n : Nat) : (s.setLen d n).seconds = s.seconds := by cases d <;> rfl
@[simp] theorem State.setLen_crc (d : Dst) (n : Nat) : (s.setLen d n).crc = s.crc := by cases d <;> rfl
@[simp] theorem State.setLen_cmd (d : Dst) (n : Nat) : (s.setLen d n).cmd = s.cmd := by cases d <;> rfl
@[simp] theorem State.setLen_rsp (d : Dst) (n : Nat) : (s.setLen d n).rsp = s.rsp := by cases d <;> rfl
@[simp] theorem State.setLen_srq (d : Dst) (n : Nat) : (s.setLen d n).srq = s.srq := by cases d <;> rfl
@[simp] theorem State.setLen_txq (d : Dst) (n : Nat) : (s.setLen d n).txq = s.txq := by cases d <;> rfl
@[simp] theorem State.setLen_rxq (d : Dst) (n : Nat) : (s.setLen d n).rxq = s.rxq := by cases d <;> rfl
@[simp] theorem State.setLen_ports (d : Dst) (n : Nat) : (s.setLen d n).ports = s.ports := by cases d <;> rfl
@[simp] theorem State.setLen_sessions (d : Dst) (n : Nat) : (s.setLen d n).sessions = s.sessions := by cases d <;> rfl
@[simp] theorem State.setLen_inputs (d : Dst) (n : Nat) : (s.setLen d n).inputs = s.inputs := by cases d <;> rfl
@[simp] theorem State.setLen_script (d : Dst) (n : Nat) : (s.setLen d n).script = s.script := by cases d <;> rfl
@[simp] theorem State.setLen_draws (d : Dst) (n : Nat) : (s.setLen d n).draws = s.draws := by cases d <;> rfl
@[simp] theorem State.setLen_ret (d : Dst) (n : Nat) : (s.setLen d n).ret = s.ret := by cases d <;> rfl
@[simp] theorem State.setLen_envLog (d : Dst) (n : Nat) : (s.setLen d n).envLog = s.envLog := by cases d <;> rfl

@[simp] theorem State.setLen_len (d : Dst) (n : Nat) : (s.setLen d n).len d = n := by cases d <;> rfl

/-! ### `setDst` -/

@[simp] theorem State.setDst_cfg (d : Dst) (m : Memory) (n : Nat) : (s.setDst d m n).cfg = s.cfg := by cases d <;> rfl
@[simp] theorem State.setDst_busValid (d : Dst) (m : Memory) (n : Nat) : (s.setDst d m n).busValid = s.busValid := by cases d <;> rfl
@[simp] theorem State.setDst_lineId (d : Dst) (m : Memory) (n : Nat) : (s.setDst d m n).lineId = s.lineId := by cases d <;> rfl
@[simp] theorem State.setDst_tp (d : Dst) (m : Memory) (n : Nat) : (s.setDst d m n).tp = s.tp := by cases d <;> rfl
@[simp] theorem State.setDst_dirMode (d : Dst) (m : Memory) (n : Nat) : (s.setDst d m n).dirMode = s.dirMode := by cases d <;> rfl
@[simp] theorem State.setDst_dirFailed (d : Dst) (m : Memory) (n : Nat) : (s.setDst d m n).dirFailed = s.dirFailed := by cases d <;> rfl
@[simp] theorem State.setDst_lockHeld (d : Dst) (m : Memory) (n : Nat) : (s.setDst d m n).lockHeld = s.lockHeld := by cases d <;> rfl
@[simp] theorem State.setDst_lockOwner (d : Dst) (m : Memory) (n : Nat) : (s.setDst d m n).lockOwner = s.lockOwner := by cases d <;> rfl
@[simp] theorem State.setDst_lockWaiters (d : Dst) (m : Memory) (n : Nat) : (s.setDst d m n).lockWaiters = s.lockWaiters := by cases d <;> rfl
@[simp] theorem State.setDst_txIdx (d : Dst) (m : Memory) (n : Nat) : (s.setDst d m n).txIdx = s.txIdx := by cases d <;> rfl
@[simp] theorem State.setDst_txUnit (d : Dst) (m : Memory) (n : Nat) : (s.setDst d m n).txUnit = s.txUnit := by cases d <;> rfl
@[simp] theorem State.setDst_txPar (d : Dst) (m : Memory) (n : Nat) : (s.setDst d m n).txPar = s.txPar := by cases d <;> rfl
@[simp] theorem State.setDst_decState (d : Dst) (m : Memory) (n : Nat) : (s.setDst d m n).decState = s.decState := by cases d <;> rfl
@[simp] theorem State.setDst_acc (d : Dst) (m : Memory) (n : Nat) : (s.setDst d m n).acc = s.acc := by cases d <;> rfl
@[simp] theorem State.setDst_rxPar (d : Dst) (m : Memory) (n : Nat) : (s.setDst d m n).rxPar = s.rxPar := by cases d <;> rfl
@[simp] theorem State.setDst_rxPulseIdx (d : Dst) (m : Memory) (n : Nat) : (s.setDst d m n).rxPulseIdx = s.rxPulseIdx := by cases d <;> rfl
@[simp] theorem State.setDst_rxUnitsLeft (d : Dst) (m : Memory) (n : Nat) : (s.setDst d m n).rxUnitsLeft = s.rxUnitsLeft := by cases d <;> rfl
@[simp] theorem State.setDst_rxLevel (d : Dst) (m : Memory) (n : Nat) : (s.setDst d m n).rxLevel = s.rxLevel := by cases d <;> rfl
@[simp] theorem State.setDst_seqState (d : Dst) (m : Memory) (n : Nat) : (s.setDst d m n).seqState = s.seqState := by cases d <;> rfl
@[simp] theorem State.setDst_reqId (d : Dst) (m : Memory) (n : Nat) : (s.setDst d m n).reqId = s.reqId := by cases d <;> rfl
@[simp] theorem State.setDst_cmdLen (d : Dst) (m : Memory) (n : Nat) : (s.setDst d m n).cmdLen = s.cmdLen := by cases d <;> rfl
@[simp] theorem State.setDst_requireCrc (d : Dst) (m : Memory) (n : Nat) : (s.setDst d m n).requireCrc = s.requireCrc := by cases d <;> rfl
@[simp] theorem State.setDst_timeout (d : Dst) (m : Memory) (n : Nat) : (s.setDst d m n).timeout = s.timeout := by cases d <;> rfl
@[simp] theorem State.setDst_rspCap (d : Dst) (m : Memory) (n : Nat) : (s.setDst d m n).rspCap = s.rspCap := by cases d <;> rfl
@[simp] theorem State.setDst_status (d : Dst) (m : Memory) (n : Nat) : (s.setDst d m n).status = s.status := by cases d <;> rfl
@[simp] theorem State.setDst_tRem (d : Dst) (m : Memory) (n : Nat) : (s.setDst d m n).tRem = s.tRem := by cases d <;> rfl
@[simp] theorem State.setDst_seconds (d : Dst) (m : Memory) (n : Nat) : (s.setDst d m n).seconds = s.seconds := by cases d <;> rfl
@[simp] theorem State.setDst_crc (d : Dst) (m : Memory) (n : Nat) : (s.setDst d m n).crc = s.crc := by cases d <;> rfl
@[simp] theorem State.setDst_cmd (d : Dst) (m : Memory) (n : Nat) : (s.setDst d m n).cmd = s.cmd := by cases d <;> rfl
@[simp] theorem State.setDst_txq (d : Dst) (m : Memory) (n : Nat) : (s.setDst d m n).txq = s.txq := by cases d <;> rfl
@[simp] theorem State.setDst_rxq (d : Dst) (m : Memory) (n : Nat) : (s.setDst d m n).rxq = s.rxq := by cases d <;> rfl
@[simp] theorem State.setDst_ports (d : Dst) (m : Memory) (n : Nat) : (s.setDst d m n).ports = s.ports := by cases d <;> rfl
@[simp] theorem State.setDst_sessions (d : Dst) (m : Memory) (n : Nat) : (s.setDst d m n).sessions = s.sessions := by cases d <;> rfl
@[simp] theorem State.setDst_inputs (d : Dst) (m : Memory) (n : Nat) : (s.setDst d m n).inputs = s.inputs := by cases d <;> rfl
@[simp] theorem State.setDst_script (d : Dst) (m : Memory) (n : Nat) : (s.setDst d m n).script = s.script := by cases d <;> rfl
@[simp] theorem State.setDst_draws (d : Dst) (m : Memory) (n : Nat) : (s.setDst d m n).draws = s.draws := by cases d <;> rfl
@[simp] theorem State.setDst_ret (d : Dst) (m : Memory) (n : Nat) : (s.setDst d m n).ret = s.ret := by cases d <;> rfl
@[simp] theorem State.setDst_envLog (d : Dst) (m : Memory) (n : Nat) : (s.setDst d m n).envLog = s.envLog := by cases d <;> rfl

@[simp] theorem State.setDst_len (d : Dst) (m : Memory) (n : Nat) : (s.setDst d m n).len d = n := by cases d <;> rfl
@[simp] theorem State.setDst_buf (d : Dst) (m : Memory) (n : Nat) : (s.setDst d m n).buf (dstBuf d) = m := by cases d <;> rfl

/-! ### `decodeInto` -/

@[simp] theorem State.decodeInto_cfg (n : Nat) (d : Dst) (cap : Nat) :
    (s.decodeInto n d cap).cfg = s.cfg := by cases d <;> rfl
@[simp] theorem State.decodeInto_busValid (n : Nat) (d : Dst) (cap : Nat) :
    (s.decodeInto n d cap).busValid = s.busValid := by cases d <;> rfl
@[simp] theorem State.decodeInto_lineId (n : Nat) (d : Dst) (cap : Nat) :
    (s.decodeInto n d cap).lineId = s.lineId := by cases d <;> rfl
@[simp] theorem State.decodeInto_tp (n : Nat) (d : Dst) (cap : Nat) :
    (s.decodeInto n d cap).tp = s.tp := by cases d <;> rfl
@[simp] theorem State.decodeInto_dirMode (n : Nat) (d : Dst) (cap : Nat) :
    (s.decodeInto n d cap).dirMode = s.dirMode := by cases d <;> rfl
@[simp] theorem State.decodeInto_dirFailed (n : Nat) (d : Dst) (cap : Nat) :
    (s.decodeInto n d cap).dirFailed = s.dirFailed := by cases d <;> rfl
@[simp] theorem State.decodeInto_lockHeld (n : Nat) (d : Dst) (cap : Nat) :
    (s.decodeInto n d cap).lockHeld = s.lockHeld := by cases d <;> rfl
@[simp] theorem State.decodeInto_lockOwner (n : Nat) (d : Dst) (cap : Nat) :
    (s.decodeInto n d cap).lockOwner = s.lockOwner := by cases d <;> rfl
@[simp] theorem State.decodeInto_lockWaiters (n : Nat) (d : Dst) (cap : Nat) :
    (s.decodeInto n d cap).lockWaiters = s.lockWaiters := by cases d <;> rfl
@[simp] theorem State.decodeInto_txIdx (n : Nat) (d : Dst) (cap : Nat) :
    (s.decodeInto n d cap).txIdx = s.txIdx := by cases d <;> rfl
@[simp] theorem State.decodeInto_txUnit (n : Nat) (d : Dst) (cap : Nat) :
    (s.decodeInto n d cap).txUnit = s.txUnit := by cases d <;> rfl
@[simp] theorem State.decodeInto_txPar (n : Nat) (d : Dst) (cap : Nat) :
    (s.decodeInto n d cap).txPar = s.txPar := by cases d <;> rfl
@[simp] theorem State.decodeInto_decState (n : Nat) (d : Dst) (cap : Nat) :
    (s.decodeInto n d cap).decState = (s.decodeRun n d cap).1.st := by cases d <;> rfl
@[simp] theorem State.decodeInto_acc (n : Nat) (d : Dst) (cap : Nat) :
    (s.decodeInto n d cap).acc = (s.decodeRun n d cap).1.acc := by cases d <;> rfl
@[simp] theorem State.decodeInto_rxPar (n : Nat) (d : Dst) (cap : Nat) :
    (s.decodeInto n d cap).rxPar = (s.decodeRun n d cap).1.par := by cases d <;> rfl
@[simp] theorem State.decodeInto_rxPulseIdx (n : Nat) (d : Dst) (cap : Nat) :
    (s.decodeInto n d cap).rxPulseIdx = Config.freeRxPulseIdx s.draws := by cases d <;> rfl
@[simp] theorem State.decodeInto_rxUnitsLeft (n : Nat) (d : Dst) (cap : Nat) :
    (s.decodeInto n d cap).rxUnitsLeft = Config.freeRxUnitsLeft s.draws := by cases d <;> rfl
@[simp] theorem State.decodeInto_rxLevel (n : Nat) (d : Dst) (cap : Nat) :
    (s.decodeInto n d cap).rxLevel = Config.freeRxLevel s.draws := by cases d <;> rfl
@[simp] theorem State.decodeInto_seqState (n : Nat) (d : Dst) (cap : Nat) :
    (s.decodeInto n d cap).seqState = s.seqState := by cases d <;> rfl
@[simp] theorem State.decodeInto_reqId (n : Nat) (d : Dst) (cap : Nat) :
    (s.decodeInto n d cap).reqId = s.reqId := by cases d <;> rfl
@[simp] theorem State.decodeInto_cmdLen (n : Nat) (d : Dst) (cap : Nat) :
    (s.decodeInto n d cap).cmdLen = s.cmdLen := by cases d <;> rfl
@[simp] theorem State.decodeInto_requireCrc (n : Nat) (d : Dst) (cap : Nat) :
    (s.decodeInto n d cap).requireCrc = s.requireCrc := by cases d <;> rfl
@[simp] theorem State.decodeInto_timeout (n : Nat) (d : Dst) (cap : Nat) :
    (s.decodeInto n d cap).timeout = s.timeout := by cases d <;> rfl
@[simp] theorem State.decodeInto_rspCap (n : Nat) (d : Dst) (cap : Nat) :
    (s.decodeInto n d cap).rspCap = s.rspCap := by cases d <;> rfl
@[simp] theorem State.decodeInto_status (n : Nat) (d : Dst) (cap : Nat) :
    (s.decodeInto n d cap).status = s.status := by cases d <;> rfl
@[simp] theorem State.decodeInto_tRem (n : Nat) (d : Dst) (cap : Nat) :
    (s.decodeInto n d cap).tRem = s.tRem := by cases d <;> rfl
@[simp] theorem State.decodeInto_seconds (n : Nat) (d : Dst) (cap : Nat) :
    (s.decodeInto n d cap).seconds = s.seconds := by cases d <;> rfl
@[simp] theorem State.decodeInto_crc (n : Nat) (d : Dst) (cap : Nat) :
    (s.decodeInto n d cap).crc = s.crc := by cases d <;> rfl
@[simp] theorem State.decodeInto_cmd (n : Nat) (d : Dst) (cap : Nat) :
    (s.decodeInto n d cap).cmd = s.cmd := by cases d <;> rfl
@[simp] theorem State.decodeInto_txq (n : Nat) (d : Dst) (cap : Nat) :
    (s.decodeInto n d cap).txq = s.txq := by cases d <;> rfl
@[simp] theorem State.decodeInto_rxq (n : Nat) (d : Dst) (cap : Nat) :
    (s.decodeInto n d cap).rxq = s.rxq := by cases d <;> rfl
@[simp] theorem State.decodeInto_ports (n : Nat) (d : Dst) (cap : Nat) :
    (s.decodeInto n d cap).ports = s.ports := by cases d <;> rfl
@[simp] theorem State.decodeInto_sessions (n : Nat) (d : Dst) (cap : Nat) :
    (s.decodeInto n d cap).sessions = s.sessions := by cases d <;> rfl
@[simp] theorem State.decodeInto_inputs (n : Nat) (d : Dst) (cap : Nat) :
    (s.decodeInto n d cap).inputs = s.inputs := by cases d <;> rfl
@[simp] theorem State.decodeInto_script (n : Nat) (d : Dst) (cap : Nat) :
    (s.decodeInto n d cap).script = s.script := by cases d <;> rfl
@[simp] theorem State.decodeInto_draws (n : Nat) (d : Dst) (cap : Nat) :
    (s.decodeInto n d cap).draws = s.draws + 1 := by cases d <;> rfl
@[simp] theorem State.decodeInto_ret (n : Nat) (d : Dst) (cap : Nat) :
    (s.decodeInto n d cap).ret = s.ret := by cases d <;> rfl
@[simp] theorem State.decodeInto_envLog (n : Nat) (d : Dst) (cap : Nat) :
    (s.decodeInto n d cap).envLog = s.envLog := by cases d <;> rfl

@[simp] theorem State.decodeInto_len (n : Nat) (d : Dst) (cap : Nat) :
    (s.decodeInto n d cap).len d = (s.decodeRun n d cap).1.len (s.decodeRun n d cap).2 := by cases d <;> rfl
@[simp] theorem State.decodeInto_buf (n : Nat) (d : Dst) (cap : Nat) :
    (s.decodeInto n d cap).buf (dstBuf d) = (s.decodeRun n d cap).1.buf := by cases d <;> rfl
/-- DECODE writes no byte buffer but the one it is given (R31). -/
theorem State.decodeInto_otherBuf (n : Nat) (d : Dst) (cap : Nat) (b : Buf) (h : b ≠ dstBuf d) :
    (s.decodeInto n d cap).buf b = s.buf b := by cases d <;> cases b <;> first | rfl | exact absurd rfl h

/-! ### What an operation finds in a buffer: `byteAt`, `bytes`, `pulses`, `asked`

Where the buffer holds what is asked for these are its contents; elsewhere nothing is known of them. -/

theorem State.byteAt_valid {s : State} {b : Buf} {i : Nat} (h : i < s.valid b) :
    s.byteAt b i = Memory.read (s.buf b) i := if_pos h

@[simp] theorem State.bytes_length (b : Buf) (n : Nat) : (s.bytes b n).length = n := by simp [State.bytes]

theorem State.bytes_getElem? {s : State} {b : Buf} {i n : Nat} (h : i < n) : (s.bytes b n)[i]? = some (s.byteAt b i) := by
  simp [State.bytes, h]

theorem State.bytes_valid {s : State} {b : Buf} {n : Nat} (h : n ≤ s.valid b) :
    s.bytes b n = Memory.slice (s.buf b) 0 n := by
  refine List.map_congr_left fun i hi => ?_
  rw [State.byteAt_valid (Nat.lt_of_lt_of_le (List.mem_range.1 hi) h), Nat.zero_add]

@[simp] theorem State.pulses_length (n : Nat) : (s.pulses n).length = n := by simp [State.pulses]

@[simp] theorem State.valid_rsp : s.valid .rsp = s.rspLen := rfl
theorem State.valid_cmd {s : State} (h : s.lockHeld = true) : s.valid .cmd = min s.cmdLen s.cfg.cmdMax := if_pos h
theorem State.valid_srq {s : State} (h : s.lockHeld = true) : s.valid .srq = min s.srqLen s.cfg.srqCap := if_pos h
/-- Without the lock no byte of the shared buffers is used (R56). -/
theorem State.valid_cmd_of_free {s : State} (h : s.lockHeld = false) : s.valid .cmd = 0 := if_neg (by simp [h])
theorem State.valid_srq_of_free {s : State} (h : s.lockHeld = false) : s.valid .srq = 0 := if_neg (by simp [h])
theorem State.heard_of_lock {s : State} (h : s.lockHeld = true) : s.heard = s.rxq := if_pos h
theorem State.heard_of_free {s : State} (h : s.lockHeld = false) : s.heard = [] := if_neg (by simp [h])

/-- DECODE, under the lock, of no more pulses than `RXQ` holds is DECODE of those. -/
theorem State.pulses_valid {s : State} {n : Nat} (hl : s.lockHeld = true) (h : n ≤ s.rxq.length) :
    s.pulses n = s.rxq.take n := by
  refine List.ext_getElem (by simp; omega) fun i h1 h2 => ?_
  have hi : i < s.rxq.length := by simp at h2; omega
  simp [State.pulses, State.heard_of_lock hl, List.getElem?_eq_getElem hi]

theorem State.asked_valid {s : State} (h : 0 < s.valid .cmd) : s.asked = Memory.read s.cmd 0 := if_pos h

/-! ### `onBus`, `underLock`, `forget`, `updateSession` -/

theorem State.onBus_of_bus {s : State} (h : s.busValid = true) (t : State) : s.onBus t = t := if_pos h
theorem State.onBus_of_no_bus {s : State} (h : s.busValid = false) (t : State) :
    s.onBus t = { s with draws := t.draws, ret := t.ret } := if_neg (by simp [h])
/-- What an operation that is a function leaves: its effect on a Bus, its answer without one (R8, R250). -/
theorem State.onBus_cases (s t : State) :
    (s.busValid = true ∧ s.onBus t = t) ∨
      (s.busValid = false ∧ s.onBus t = { s with draws := t.draws, ret := t.ret }) := by
  rcases Bool.eq_false_or_eq_true s.busValid with h | h
  · exact .inl ⟨h, State.onBus_of_bus h t⟩
  · exact .inr ⟨h, State.onBus_of_no_bus h t⟩
@[simp] theorem State.onBus_ret (t : State) : (s.onBus t).ret = t.ret := by
  rcases State.onBus_cases s t with ⟨-, h⟩ | ⟨-, h⟩ <;> rw [h]
@[simp] theorem State.onBus_draws (t : State) : (s.onBus t).draws = t.draws := by
  rcases State.onBus_cases s t with ⟨-, h⟩ | ⟨-, h⟩ <;> rw [h]

theorem State.underLock_of_lock {s : State} (hb : s.busValid = true) (hl : s.lockHeld = true) (t : State) :
    s.underLock t = t := by rw [State.underLock, State.onBus_of_bus hb, if_pos hl]
theorem State.underLock_of_free {s : State} (h : s.busValid = false ∨ s.lockHeld = false) (t : State) :
    s.underLock t = { s with draws := t.draws, ret := t.ret } := by
  unfold State.underLock
  rcases State.onBus_cases s (if s.lockHeld then t else { s with draws := t.draws, ret := t.ret }) with
    ⟨hb, he⟩ | ⟨-, he⟩ <;> rw [he] <;> cases hl : s.lockHeld <;> simp_all
/-- What an operation on the shared buffers leaves: its effect on a Bus under the lock, its answer without either (R56). -/
theorem State.underLock_cases (s t : State) :
    (s.busValid = true ∧ s.lockHeld = true ∧ s.underLock t = t) ∨
      ((s.busValid = false ∨ s.lockHeld = false) ∧ s.underLock t = { s with draws := t.draws, ret := t.ret }) := by
  by_cases h : s.busValid = false ∨ s.lockHeld = false
  · exact .inr ⟨h, State.underLock_of_free h t⟩
  · simp only [not_or, Bool.not_eq_false] at h
    exact .inl ⟨h.1, h.2, State.underLock_of_lock h.1 h.2 t⟩
@[simp] theorem State.underLock_ret (t : State) : (s.underLock t).ret = t.ret := by
  rcases State.underLock_cases s t with ⟨-, -, h⟩ | ⟨-, h⟩ <;> rw [h]
@[simp] theorem State.underLock_draws (t : State) : (s.underLock t).draws = t.draws := by
  rcases State.underLock_cases s t with ⟨-, -, h⟩ | ⟨-, h⟩ <;> rw [h]

@[simp] theorem State.forget_busValid : s.forget.busValid = false := rfl
@[simp] theorem State.forget_draws : s.forget.draws = s.draws + 1 := rfl
@[simp] theorem State.forget_cfg : s.forget.cfg = s.cfg := rfl
@[simp] theorem State.forget_dirMode : s.forget.dirMode = s.dirMode := rfl
@[simp] theorem State.forget_dirFailed : s.forget.dirFailed = s.dirFailed := rfl
@[simp] theorem State.forget_lockHeld : s.forget.lockHeld = s.lockHeld := rfl
@[simp] theorem State.forget_lockWaiters : s.forget.lockWaiters = s.lockWaiters := rfl
@[simp] theorem State.forget_seqState : s.forget.seqState = s.seqState := rfl
@[simp] theorem State.forget_ports : s.forget.ports = s.ports := rfl
@[simp] theorem State.forget_sessions : s.forget.sessions = s.sessions := rfl
@[simp] theorem State.forget_inputs : s.forget.inputs = s.inputs := rfl
@[simp] theorem State.forget_script : s.forget.script = s.script := rfl
@[simp] theorem State.forget_ret : s.forget.ret = s.ret := rfl
@[simp] theorem State.forget_envLog : s.forget.envLog = s.envLog := rfl

@[simp] theorem State.updateSession_sessions (h : Nat) (f : Session → Session) :
    (s.updateSession h f).sessions = s.sessions.modify h (Option.map f) := rfl
@[simp] theorem State.updateSession_cfg (h : Nat) (f : Session → Session) : (s.updateSession h f).cfg = s.cfg := rfl
@[simp] theorem State.updateSession_busValid (h : Nat) (f : Session → Session) : (s.updateSession h f).busValid = s.busValid := rfl
@[simp] theorem State.updateSession_lineId (h : Nat) (f : Session → Session) : (s.updateSession h f).lineId = s.lineId := rfl
@[simp] theorem State.updateSession_tp (h : Nat) (f : Session → Session) : (s.updateSession h f).tp = s.tp := rfl
@[simp] theorem State.updateSession_dirMode (h : Nat) (f : Session → Session) : (s.updateSession h f).dirMode = s.dirMode := rfl
@[simp] theorem State.updateSession_dirFailed (h : Nat) (f : Session → Session) : (s.updateSession h f).dirFailed = s.dirFailed := rfl
@[simp] theorem State.updateSession_lockHeld (h : Nat) (f : Session → Session) : (s.updateSession h f).lockHeld = s.lockHeld := rfl
@[simp] theorem State.updateSession_lockOwner (h : Nat) (f : Session → Session) : (s.updateSession h f).lockOwner = s.lockOwner := rfl
@[simp] theorem State.updateSession_lockWaiters (h : Nat) (f : Session → Session) : (s.updateSession h f).lockWaiters = s.lockWaiters := rfl
@[simp] theorem State.updateSession_txIdx (h : Nat) (f : Session → Session) : (s.updateSession h f).txIdx = s.txIdx := rfl
@[simp] theorem State.updateSession_txUnit (h : Nat) (f : Session → Session) : (s.updateSession h f).txUnit = s.txUnit := rfl
@[simp] theorem State.updateSession_txPar (h : Nat) (f : Session → Session) : (s.updateSession h f).txPar = s.txPar := rfl
@[simp] theorem State.updateSession_decState (h : Nat) (f : Session → Session) : (s.updateSession h f).decState = s.decState := rfl
@[simp] theorem State.updateSession_acc (h : Nat) (f : Session → Session) : (s.updateSession h f).acc = s.acc := rfl
@[simp] theorem State.updateSession_rxPar (h : Nat) (f : Session → Session) : (s.updateSession h f).rxPar = s.rxPar := rfl
@[simp] theorem State.updateSession_rxPulseIdx (h : Nat) (f : Session → Session) : (s.updateSession h f).rxPulseIdx = s.rxPulseIdx := rfl
@[simp] theorem State.updateSession_rxUnitsLeft (h : Nat) (f : Session → Session) : (s.updateSession h f).rxUnitsLeft = s.rxUnitsLeft := rfl
@[simp] theorem State.updateSession_rxLevel (h : Nat) (f : Session → Session) : (s.updateSession h f).rxLevel = s.rxLevel := rfl
@[simp] theorem State.updateSession_seqState (h : Nat) (f : Session → Session) : (s.updateSession h f).seqState = s.seqState := rfl
@[simp] theorem State.updateSession_reqId (h : Nat) (f : Session → Session) : (s.updateSession h f).reqId = s.reqId := rfl
@[simp] theorem State.updateSession_cmdLen (h : Nat) (f : Session → Session) : (s.updateSession h f).cmdLen = s.cmdLen := rfl
@[simp] theorem State.updateSession_requireCrc (h : Nat) (f : Session → Session) : (s.updateSession h f).requireCrc = s.requireCrc := rfl
@[simp] theorem State.updateSession_timeout (h : Nat) (f : Session → Session) : (s.updateSession h f).timeout = s.timeout := rfl
@[simp] theorem State.updateSession_rspCap (h : Nat) (f : Session → Session) : (s.updateSession h f).rspCap = s.rspCap := rfl
@[simp] theorem State.updateSession_status (h : Nat) (f : Session → Session) : (s.updateSession h f).status = s.status := rfl
@[simp] theorem State.updateSession_rspLen (h : Nat) (f : Session → Session) : (s.updateSession h f).rspLen = s.rspLen := rfl
@[simp] theorem State.updateSession_srqLen (h : Nat) (f : Session → Session) : (s.updateSession h f).srqLen = s.srqLen := rfl
@[simp] theorem State.updateSession_tRem (h : Nat) (f : Session → Session) : (s.updateSession h f).tRem = s.tRem := rfl
@[simp] theorem State.updateSession_seconds (h : Nat) (f : Session → Session) : (s.updateSession h f).seconds = s.seconds := rfl
@[simp] theorem State.updateSession_crc (h : Nat) (f : Session → Session) : (s.updateSession h f).crc = s.crc := rfl
@[simp] theorem State.updateSession_cmd (h : Nat) (f : Session → Session) : (s.updateSession h f).cmd = s.cmd := rfl
@[simp] theorem State.updateSession_rsp (h : Nat) (f : Session → Session) : (s.updateSession h f).rsp = s.rsp := rfl
@[simp] theorem State.updateSession_srq (h : Nat) (f : Session → Session) : (s.updateSession h f).srq = s.srq := rfl
@[simp] theorem State.updateSession_txq (h : Nat) (f : Session → Session) : (s.updateSession h f).txq = s.txq := rfl
@[simp] theorem State.updateSession_rxq (h : Nat) (f : Session → Session) : (s.updateSession h f).rxq = s.rxq := rfl
@[simp] theorem State.updateSession_ports (h : Nat) (f : Session → Session) : (s.updateSession h f).ports = s.ports := rfl
@[simp] theorem State.updateSession_inputs (h : Nat) (f : Session → Session) : (s.updateSession h f).inputs = s.inputs := rfl
@[simp] theorem State.updateSession_script (h : Nat) (f : Session → Session) : (s.updateSession h f).script = s.script := rfl
@[simp] theorem State.updateSession_draws (h : Nat) (f : Session → Session) : (s.updateSession h f).draws = s.draws := rfl
@[simp] theorem State.updateSession_ret (h : Nat) (f : Session → Session) : (s.updateSession h f).ret = s.ret := rfl
@[simp] theorem State.updateSession_envLog (h : Nat) (f : Session → Session) : (s.updateSession h f).envLog = s.envLog := rfl

end Sys2Proof.Machine
end

