-- ==== Sys2Proof/Laws/Checksum.lean ====
section
/-! SUPPORT. The Checksum Unit's steps: each is injective in the running value, and a byte step in the byte. -/

namespace Sys2Proof.Machine

/-- The bit shifted out comes back as bit 15 (R130: the polynomial has bit 15 set and the shift is logical). -/
theorem crcBit_msb (x : Word16) : (crcBit x).getLsbD 15 = x.getLsbD 0 := by
  unfold crcBit
  split
  · next h => simp [h]
  · next h => simpa using h

/-- One iteration loses nothing. -/
theorem crcBit_injective {x y : Word16} (h : crcBit x = crcBit y) : x = y := by
  have h0 : x.getLsbD 0 = y.getLsbD 0 := by rw [← crcBit_msb x, ← crcBit_msb y, h]
  have hs : x >>> 1 = y >>> 1 := by
    unfold crcBit at h
    rw [h0] at h
    split at h
    · have := congrArg (· ^^^ 0xA001#16) h
      simpa [BitVec.xor_assoc] using this
    · exact h
  apply BitVec.eq_of_getLsbD_eq
  intro i hi
  rcases Nat.eq_zero_or_pos i with rfl | hp
  · exact h0
  · have := congrArg (fun v : Word16 => v.getLsbD (i - 1)) hs
    simpa [BitVec.getLsbD_ushiftRight, show 1 + (i - 1) = i by omega] using this

/-- The eight iterations lose nothing. -/
theorem crcEight_injective {x y : Word16} (h : crcEight x = crcEight y) : x = y := by
  unfold crcEight at h
  exact crcBit_injective (crcBit_injective (crcBit_injective (crcBit_injective (crcBit_injective (crcBit_injective
    (crcBit_injective (crcBit_injective h)))))))

/-- A byte step is injective in the running value. -/
theorem crcByte_injective_crc {x y : Word16} {b : Byte} (h : crcByte x b = crcByte y b) : x = y := by
  have := congrArg (· ^^^ b.setWidth 16) (crcEight_injective h)
  simpa [BitVec.xor_assoc] using this

/-- A byte step is injective in the byte. -/
theorem crcByte_injective_byte {x : Word16} {b c : Byte} (h : crcByte x b = crcByte x c) : b = c := by
  have h1 := congrArg (x ^^^ ·) (crcEight_injective h)
  have h2 : b.setWidth 16 = c.setWidth 16 := by simpa [← BitVec.xor_assoc] using h1
  have h3 := congrArg (BitVec.setWidth 8) h2
  simpa using h3

theorem crcOf_append (bs cs : List Byte) : crcOf (bs ++ cs) = cs.foldl crcByte (crcOf bs) := by
  simp [crcOf, List.foldl_append]

@[simp] theorem crcChars_length (v : Word16) : (crcChars v).length = 3 := rfl

end Sys2Proof.Machine
end

