-- ==== Sys2Proof/Laws/Memory.lean ====
section
/-! SUPPORT. The laws of a byte buffer: a read after a write, the canonical form kept by every operation, and extensionality
(two canonical buffers that read alike are equal). -/

namespace Sys2Proof.Machine

@[simp] theorem Memory.read_nil (i : Nat) : Memory.read [] i = Memory.unlisted := rfl

theorem Memory.read_erase_same (m : Memory) (i : Nat) : Memory.read (Memory.erase m i) i = Memory.unlisted := by
  induction m with
  | nil => rfl
  | cons c m ih =>
    by_cases h : c.1 = i
    · simpa [Memory.erase, h] using ih
    · simpa [Memory.erase, Memory.read, h] using ih

theorem Memory.read_erase_ne (m : Memory) {i j : Nat} (h : j ≠ i) :
    Memory.read (Memory.erase m i) j = Memory.read m j := by
  induction m with
  | nil => rfl
  | cons c m ih =>
    by_cases hc : c.1 = i
    · have : c.1 ≠ j := fun e => h (e.symm.trans hc)
      simpa [Memory.erase, Memory.read, hc, this, show i ≠ j from fun e => h e.symm] using ih
    · by_cases hj : c.1 = j
      · simp [Memory.erase, Memory.read, hj, h]
      · simpa [Memory.erase, Memory.read, hc, hj] using ih

/-- An erased index is listed nowhere. -/
theorem Memory.erase_not_listed (m : Memory) (i : Nat) : ∀ c ∈ Memory.erase m i, c.1 ≠ i := by
  simp [Memory.erase]

theorem Memory.read_insert_same (m : Memory) (i : Nat) (v : Byte) (h : ∀ c ∈ m, c.1 ≠ i) :
    Memory.read (Memory.insert i v m) i = v := by
  induction m with
  | nil => simp [Memory.insert, Memory.read]
  | cons c m ih =>
    have hc : c.1 ≠ i := h c (by simp)
    by_cases hi : i < c.1
    · simp [Memory.insert, hi, Memory.read]
    · simp [Memory.insert, hi, Memory.read, hc, ih (fun x hx => h x (by simp [hx]))]

theorem Memory.read_insert_ne (m : Memory) {i j : Nat} (v : Byte) (h : j ≠ i) :
    Memory.read (Memory.insert i v m) j = Memory.read m j := by
  induction m with
  | nil => simp [Memory.insert, Memory.read, Ne.symm h]
  | cons c m ih =>
    by_cases hi : i < c.1
    · simp [Memory.insert, hi, Memory.read, Ne.symm h]
    · simp only [Memory.insert, hi, if_false, Memory.read, ih]

/-- A read after a write to the same index gives the value written. -/
@[simp] theorem Memory.read_write_same (m : Memory) (i : Nat) (v : Byte) :
    Memory.read (Memory.write m i v) i = v := by
  unfold Memory.write
  split
  · next h => rw [h]; exact Memory.read_erase_same m i
  · exact Memory.read_insert_same _ i v (Memory.erase_not_listed m i)

/-- A write leaves every other index alone. -/
theorem Memory.read_write_ne (m : Memory) {i j : Nat} (v : Byte) (h : j ≠ i) :
    Memory.read (Memory.write m i v) j = Memory.read m j := by
  unfold Memory.write
  split
  · exact Memory.read_erase_ne m h
  · rw [Memory.read_insert_ne _ v h, Memory.read_erase_ne m h]

/-- Both in one: what a read after a write gives. -/
theorem Memory.read_write (m : Memory) (i j : Nat) (v : Byte) :
    Memory.read (Memory.write m i v) j = if j = i then v else Memory.read m j := by
  split
  · next h => rw [h, Memory.read_write_same]
  · next h => exact Memory.read_write_ne m v h

/-- What a read after a string was written gives. -/
theorem Memory.read_writeFrom (bs : List Byte) :
    ∀ (m : Memory) (i j : Nat), Memory.read (Memory.writeFrom m i bs) j =
      if i ≤ j then (bs[j - i]?).getD (Memory.read m j) else Memory.read m j := by
  induction bs with
  | nil => intro m i j; simp [Memory.writeFrom]
  | cons v vs ih =>
    intro m i j
    rw [Memory.writeFrom, ih, Memory.read_write]
    by_cases h1 : i + 1 ≤ j
    · have h2 : i ≤ j := by omega
      have h3 : j ≠ i := by omega
      obtain ⟨k, hk⟩ : ∃ k, j - i = k + 1 := ⟨j - i - 1, by omega⟩
      have h4 : j - (i + 1) = k := by omega
      simp [h1, h2, h3, h4, hk]
    · by_cases h2 : j = i
      · subst h2; simp
      · have h3 : ¬i ≤ j := by omega
        simp [h1, h2, h3]

theorem Memory.wf_nil : Memory.wf [] := ⟨.nil, fun _ h => nomatch h⟩

theorem Memory.wf_erase {m : Memory} (h : Memory.wf m) (i : Nat) : Memory.wf (Memory.erase m i) :=
  ⟨h.1.filter _, fun c hc => h.2 c (List.mem_filter.1 hc).1⟩

theorem Memory.mem_insert {m : Memory} {i : Nat} {v : Byte} {c : Host.Cell} :
    c ∈ Memory.insert i v m ↔ c = (i, v) ∨ c ∈ m := by
  induction m with
  | nil => simp [Memory.insert]
  | cons d m ih =>
    by_cases hi : i < d.1
    · simp [Memory.insert, hi]
    · simp only [Memory.insert, hi, if_false, List.mem_cons, ih]
      tauto

theorem Memory.rising_insert {m : Memory} {i : Nat} {v : Byte} (h : m.Pairwise (fun a b => a.1 < b.1))
    (hi : ∀ c ∈ m, c.1 ≠ i) : (Memory.insert i v m).Pairwise (fun a b => a.1 < b.1) := by
  induction m with
  | nil => simp [Memory.insert]
  | cons d m ih =>
    rw [List.pairwise_cons] at h
    have hd : d.1 ≠ i := hi d (by simp)
    by_cases hlt : i < d.1
    · simp only [Memory.insert, hlt, if_true, List.pairwise_cons]
      refine ⟨?_, h.1, h.2⟩
      intro c hc
      rcases List.mem_cons.1 hc with rfl | hc
      · exact hlt
      · exact lt_trans hlt (h.1 c hc)
    · simp only [Memory.insert, hlt, if_false, List.pairwise_cons]
      refine ⟨?_, ih h.2 (fun c hc => hi c (by simp [hc]))⟩
      intro c hc
      rcases Memory.mem_insert.1 hc with rfl | hc
      · exact lt_of_le_of_ne (Nat.le_of_not_lt hlt) hd
      · exact h.1 c hc

/-- A write keeps the canonical form. -/
theorem Memory.wf_write {m : Memory} (h : Memory.wf m) (i : Nat) (v : Byte) : Memory.wf (Memory.write m i v) := by
  unfold Memory.write
  split
  · exact Memory.wf_erase h i
  · next hv =>
    have he := Memory.wf_erase h i
    refine ⟨Memory.rising_insert he.1 (Memory.erase_not_listed m i), ?_⟩
    intro c hc
    rcases Memory.mem_insert.1 hc with rfl | hc
    · exact hv
    · exact he.2 c hc

/-- Writing a string keeps the canonical form. -/
theorem Memory.wf_writeFrom (bs : List Byte) :
    ∀ {m : Memory} (_ : Memory.wf m) (i : Nat), Memory.wf (Memory.writeFrom m i bs) := by
  induction bs with
  | nil => intro m h i; exact h
  | cons v vs ih => intro m h i; exact ih (Memory.wf_write h i v) (i + 1)

@[simp] theorem Memory.slice_length (m : Memory) (i n : Nat) : (Memory.slice m i n).length = n := by
  simp [Memory.slice]

theorem Memory.slice_getElem? (m : Memory) (i n k : Nat) (h : k < n) :
    (Memory.slice m i n)[k]? = some (Memory.read m (i + k)) := by
  simp [Memory.slice, h]

theorem Memory.slice_succ (m : Memory) (i n : Nat) :
    Memory.slice m i (n + 1) = Memory.slice m i n ++ [Memory.read m (i + n)] := by
  simp [Memory.slice, List.range_succ]

/-- A slice sees only the indices it covers. -/
theorem Memory.slice_congr {m m' : Memory} {i n : Nat} (h : ∀ k < n, Memory.read m (i + k) = Memory.read m' (i + k)) :
    Memory.slice m i n = Memory.slice m' i n := by
  unfold Memory.slice
  exact List.map_congr_left (fun k hk => h k (List.mem_range.1 hk))

end Sys2Proof.Machine
end

