-- ==== Sys2Proof/Laws/Codec.lean ====
section
/-! SUPPORT. What the codec's functions do, said once: the quantiser, the units of a frame, one unit of the decoder, a run of
units, and a whole frame. -/

namespace Sys2Proof.Machine

/-! ## UNITS and the window -/

theorem unitCount_eq (d : Nat) : unitCount d = (2 * d + 833) / 1666 := rfl

/-- The thresholds of R106. -/
theorem unitCount_eq_iff (d k : Nat) : unitCount d = k ↔ 833 * k ≤ d + 416 ∧ d ≤ 833 * k + 416 := by
  rw [unitCount_eq]
  omega

/-- A pulse outside the window presents no unit (R107). -/
theorem pulseUnits_ignored {p : Pulse} (h : p.dur < 417 ∨ 7913 < p.dur) : pulseUnits p = [] := by
  have : ¬(1 ≤ unitCount p.dur ∧ unitCount p.dur ≤ 9) := by rw [unitCount_eq]; omega
  simp [pulseUnits, inWindow, this]

/-- A pulse of the nominal length of `k` units presents `k` units. -/
theorem pulseUnits_nominal (l : Level) {k : Nat} (h : 1 ≤ k ∧ k ≤ 9) :
    pulseUnits ⟨l, k * Config.bitWidth⟩ = List.replicate k l := by
  have : unitCount (k * Config.bitWidth) = k := (unitCount_eq_iff _ _).2 (by simp only [Config.bitWidth]; omega)
  simp [pulseUnits, inWindow, this, h]

theorem unitsOf_append (ps qs : List Pulse) : unitsOf (ps ++ qs) = unitsOf ps ++ unitsOf qs := by
  simp [unitsOf]

@[simp] theorem unitsOf_nil : unitsOf [] = [] := rfl

@[simp] theorem unitsOf_cons (p : Pulse) (ps : List Pulse) : unitsOf (p :: ps) = pulseUnits p ++ unitsOf ps := by
  simp [unitsOf]

/-- A list of unit pulses presents its levels. -/
theorem unitsOf_unitPulses (ls : List Level) : unitsOf (ls.map (fun l => ⟨l, Config.bitWidth⟩)) = ls := by
  induction ls with
  | nil => rfl
  | cons l ls ih =>
    have h := pulseUnits_nominal l (k := 1) (by omega)
    rw [Nat.one_mul] at h
    simp [h, ih]

theorem unitsOf_framePulses (c : Byte) : unitsOf (framePulses c) = frameLevels c := unitsOf_unitPulses _

theorem unitsOf_frames (cs : List Byte) : unitsOf (cs.flatMap framePulses) = cs.flatMap frameLevels := by
  induction cs with
  | nil => rfl
  | cons c cs ih => rw [List.flatMap_cons, unitsOf_append, unitsOf_framePulses, ih, List.flatMap_cons]

/-! ## One unit -/

@[simp] theorem Decoder.put_st (d : Decoder) (i : Nat) (v : Byte) : (d.put i v).st = d.st := by
  unfold Decoder.put; split <;> rfl
@[simp] theorem Decoder.put_acc (d : Decoder) (i : Nat) (v : Byte) : (d.put i v).acc = d.acc := by
  unfold Decoder.put; split <;> rfl
@[simp] theorem Decoder.put_par (d : Decoder) (i : Nat) (v : Byte) : (d.put i v).par = d.par := by
  unfold Decoder.put; split <;> rfl
@[simp] theorem Decoder.put_cnt (d : Decoder) (i : Nat) (v : Byte) : (d.put i v).cnt = d.cnt := by
  unfold Decoder.put; split <;> rfl
@[simp] theorem Decoder.put_room (d : Decoder) (i : Nat) (v : Byte) : (d.put i v).room = d.room := by
  unfold Decoder.put; split <;> rfl
@[simp] theorem Decoder.put_draw (d : Decoder) (i : Nat) (v : Byte) : (d.put i v).draw = d.draw := by
  unfold Decoder.put; split <;> rfl

/-- A write changes the element it names, where there is one, and no other. -/
theorem Decoder.put_read (d : Decoder) (i : Nat) (v : Byte) (j : Nat) :
    Memory.read (d.put i v).buf j = if j = i ∧ i < d.room then v else Memory.read d.buf j := by
  unfold Decoder.put
  split
  · next h =>
    by_cases hj : j = i
    · subst hj; simp [h, Memory.read_write_same]
    · simp [hj, Memory.read_write_ne _ _ hj]
  · next h => simp [h]

theorem Decoder.put_wf {d : Decoder} (h : Memory.wf d.buf) (i : Nat) (v : Byte) : Memory.wf (d.put i v).buf := by
  unfold Decoder.put
  split
  · exact Memory.wf_write h i v
  · exact h

/-- An element that the destination has is the buffer's. -/
theorem Decoder.elem_inside {d : Decoder} {i : Nat} (h : i < d.room) : d.elem i = Memory.read d.buf i := if_pos h

/-- Everything an append can do (R110, R114): the character is put, and where the last two are then `CR` `LF` the call
ends with the terminator put in the place of the `CR`. -/
theorem appendChar_cases (d : Decoder) : ∃ e : Decoder,
    e = { d.put d.cnt (d.acc.setWidth 8) with st := .waitStart, cnt := d.cnt + 1 } ∧
    ((1 ≤ d.cnt ∧ e.elem (d.cnt - 1) = chCr ∧ e.elem d.cnt = chLf ∧ appendChar d = (e.put (d.cnt - 1) chNul, some .ok)) ∨
     (¬(1 ≤ d.cnt ∧ e.elem (d.cnt - 1) = chCr ∧ e.elem d.cnt = chLf) ∧ appendChar d = (e, none))) := by
  refine ⟨_, rfl, ?_⟩
  by_cases h : 2 ≤ d.cnt + 1 ∧
      Decoder.elem { d.put d.cnt (d.acc.setWidth 8) with st := .waitStart, cnt := d.cnt + 1 } (d.cnt + 1 - 2) = chCr ∧
      Decoder.elem { d.put d.cnt (d.acc.setWidth 8) with st := .waitStart, cnt := d.cnt + 1 } (d.cnt + 1 - 1) = chLf
  · exact .inl ⟨by omega, h.2.1, h.2.2, if_pos h⟩
  · refine .inr ⟨fun g => h ⟨by omega, g.2.1, g.2.2⟩, if_neg h⟩

/-- An append where the destination has the element works on the buffer alone. -/
theorem appendChar_inside {d : Decoder} (h : d.cnt < d.room) :
    appendChar d =
      let buf := Memory.write d.buf d.cnt (d.acc.setWidth 8)
      if 2 ≤ d.cnt + 1 ∧ Memory.read buf (d.cnt + 1 - 2) = chCr ∧ Memory.read buf (d.cnt + 1 - 1) = chLf then
        ({ d with st := .waitStart, cnt := d.cnt + 1, buf := Memory.write buf (d.cnt + 1 - 2) chNul }, some .ok)
      else ({ d with st := .waitStart, cnt := d.cnt + 1, buf := buf }, none) := by
  have h1 : d.cnt + 1 - 2 < d.room := by omega
  have h2 : d.cnt + 1 - 1 < d.room := by omega
  simp only [appendChar, Decoder.put, Decoder.elem, h, h1, h2, if_true]

@[simp] theorem appendChar_cnt (d : Decoder) : (appendChar d).1.cnt = d.cnt + 1 := by
  obtain ⟨e, rfl, ⟨-, -, -, h⟩ | ⟨-, h⟩⟩ := appendChar_cases d <;> simp [h]

@[simp] theorem appendChar_st (d : Decoder) : (appendChar d).1.st = .waitStart := by
  obtain ⟨e, rfl, ⟨-, -, -, h⟩ | ⟨-, h⟩⟩ := appendChar_cases d <;> simp [h]

@[simp] theorem appendChar_room (d : Decoder) : (appendChar d).1.room = d.room := by
  obtain ⟨e, rfl, ⟨-, -, -, h⟩ | ⟨-, h⟩⟩ := appendChar_cases d <;> simp [h]

/-- An append writes the buffer at the count and, where the line ends, at the index below it (R110, R114), and nothing
where the buffer has no element. -/
theorem appendChar_read (d : Decoder) (i : Nat) (h : d.cnt < i ∨ d.room ≤ i) :
    Memory.read (appendChar d).1.buf i = Memory.read d.buf i := by
  obtain ⟨e, rfl, ⟨-, -, -, he⟩ | ⟨-, he⟩⟩ := appendChar_cases d
  · rw [he]
    simp only [Decoder.put_read]
    rw [if_neg (by simp only [Decoder.put_room]; omega), if_neg (by omega)]
  · rw [he]
    simp only [Decoder.put_read]
    rw [if_neg (by omega)]

theorem appendChar_wf {d : Decoder} (h : Memory.wf d.buf) : Memory.wf (appendChar d).1.buf := by
  obtain ⟨e, rfl, ⟨-, -, -, he⟩ | ⟨-, he⟩⟩ := appendChar_cases d <;> rw [he]
  · exact Decoder.put_wf (d := { d.put d.cnt (d.acc.setWidth 8) with st := .waitStart, cnt := d.cnt + 1 })
      (Decoder.put_wf h _ _) _ _
  · exact Decoder.put_wf h _ _

/-- An append ends the call with `OK` or not at all. -/
theorem appendChar_status (d : Decoder) : (appendChar d).2 = none ∨ (appendChar d).2 = some .ok := by
  obtain ⟨e, -, ⟨-, -, -, h⟩ | ⟨-, h⟩⟩ := appendChar_cases d <;> simp [h]

/-- Everything one unit can do (R105): it goes on without touching the destination, it appends a character that fits,
or it ends the call with an error and the decoder as it was. -/
theorem decodeUnit_cases (cap : Nat) (d : Decoder) (l : Level) :
    ((decodeUnit cap d l).2 = none ∧ (decodeUnit cap d l).1.cnt = d.cnt ∧ (decodeUnit cap d l).1.buf = d.buf ∧
      (decodeUnit cap d l).1.room = d.room) ∨
    (d.st = .stop ∧ d.cnt ≠ cap ∧ decodeUnit cap d l = appendChar d) ∨
    (decodeUnit cap d l = (d, some .fail)) ∨
    (d.st = .stop ∧ d.cnt = cap ∧ decodeUnit cap d l = (d, some .invalidSize)) := by
  obtain ⟨st, acc, par, cnt, buf, room, draw⟩ := d
  cases st with
  | waitStart => cases l <;> simp [decodeUnit]
  | bit k => simp [decodeUnit]
  | parity =>
    by_cases h : levelBit l = par
    · left; simp [decodeUnit, h]
    · right; right; left; simp [decodeUnit, h]
  | stop =>
    cases l with
    | spacing => right; right; left; simp [decodeUnit]
    | marking =>
      by_cases h : cnt = cap
      · right; right; right; simp [decodeUnit, h]
      · right; left; simp [decodeUnit, h]

/-- The decoder stays within its capacity. -/
theorem decodeUnit_cnt_le {cap : Nat} {d : Decoder} (l : Level) (h : d.cnt ≤ cap) : (decodeUnit cap d l).1.cnt ≤ cap := by
  rcases decodeUnit_cases cap d l with ⟨-, hc, -, -⟩ | ⟨-, hne, he⟩ | he | ⟨-, -, he⟩
  · omega
  · rw [he, appendChar_cnt]; omega
  · rw [he]; exact h
  · rw [he]; exact h

theorem decodeUnit_wf {cap : Nat} {d : Decoder} (l : Level) (h : Memory.wf d.buf) :
    Memory.wf (decodeUnit cap d l).1.buf := by
  rcases decodeUnit_cases cap d l with ⟨-, -, hb, -⟩ | ⟨-, -, he⟩ | he | ⟨-, -, he⟩
  · rw [hb]; exact h
  · rw [he]; exact appendChar_wf h
  · rw [he]; exact h
  · rw [he]; exact h

theorem decodeUnit_room (cap : Nat) (d : Decoder) (l : Level) : (decodeUnit cap d l).1.room = d.room := by
  rcases decodeUnit_cases cap d l with ⟨-, -, -, hr⟩ | ⟨-, -, he⟩ | he | ⟨-, -, he⟩
  · exact hr
  · rw [he, appendChar_room]
  · rw [he]
  · rw [he]

/-- Nothing is written at or beyond the capacity, or where the destination has no element. -/
theorem decodeUnit_read {cap : Nat} {d : Decoder} (l : Level) (h : d.cnt ≤ cap) {i : Nat} (hi : cap ≤ i ∨ d.room ≤ i) :
    Memory.read (decodeUnit cap d l).1.buf i = Memory.read d.buf i := by
  rcases decodeUnit_cases cap d l with ⟨-, -, hb, -⟩ | ⟨-, hne, he⟩ | he | ⟨-, -, he⟩
  · rw [hb]
  · rw [he]; exact appendChar_read d i (by omega)
  · rw [he]
  · rw [he]

theorem decodeUnit_status (cap : Nat) (d : Decoder) (l : Level) :
    (decodeUnit cap d l).2 = none ∨ (decodeUnit cap d l).2 = some .ok ∨ (decodeUnit cap d l).2 = some .fail ∨
      (decodeUnit cap d l).2 = some .invalidSize := by
  rcases decodeUnit_cases cap d l with ⟨h, -, -, -⟩ | ⟨-, -, he⟩ | he | ⟨-, -, he⟩
  · exact .inl h
  · rw [he]; rcases appendChar_status d with h | h
    · exact .inl h
    · exact .inr (.inl h)
  · rw [he]; exact .inr (.inr (.inl rfl))
  · rw [he]; exact .inr (.inr (.inr rfl))

/-- A call that ends with `OK` counted at least two characters (R114). -/
theorem decodeUnit_ok {cap : Nat} {d : Decoder} {l : Level} (h : (decodeUnit cap d l).2 = some .ok) :
    2 ≤ (decodeUnit cap d l).1.cnt := by
  rcases decodeUnit_cases cap d l with ⟨hn, -, -, -⟩ | ⟨-, -, he⟩ | he | ⟨-, -, he⟩
  · rw [hn] at h; cases h
  · rw [he] at h ⊢
    rw [appendChar_cnt]
    obtain ⟨e, -, ⟨h1, -, -, -⟩ | ⟨-, he⟩⟩ := appendChar_cases d
    · omega
    · rw [he] at h; cases h
  · rw [he] at h; cases h
  · rw [he] at h; cases h

@[simp] theorem State.decoderFor_cnt (s : State) (d : Dst) (cap : Nat) : (s.decoderFor d cap).cnt = 0 := rfl
@[simp] theorem State.decoderFor_st (s : State) (d : Dst) (cap : Nat) : (s.decoderFor d cap).st = .waitStart := rfl
@[simp] theorem State.decoderFor_room (s : State) (d : Dst) (cap : Nat) : (s.decoderFor d cap).room = s.room d cap := rfl
@[simp] theorem State.decoderFor_buf (s : State) (d : Dst) (cap : Nat) : (s.decoderFor d cap).buf = s.buf (dstBuf d) := rfl
@[simp] theorem State.decoderFor_draw (s : State) (d : Dst) (cap : Nat) : (s.decoderFor d cap).draw = s.draws := rfl

/-! ## A run of units -/

theorem decodeUnits_cons (cap : Nat) (l : Level) (ls : List Level) (d : Decoder) :
    decodeUnits cap (l :: ls) d =
      if (decodeUnit cap d l).2 = none then decodeUnits cap ls (decodeUnit cap d l).1 else decodeUnit cap d l := by
  rw [decodeUnits]
  rcases decodeUnit cap d l with ⟨d', _ | st⟩ <;> simp

/-- Units in two runs: the second is walked only if the first did not end the call. -/
theorem decodeUnits_append (cap : Nat) (ls ms : List Level) :
    ∀ d, decodeUnits cap (ls ++ ms) d =
      if (decodeUnits cap ls d).2 = none then decodeUnits cap ms (decodeUnits cap ls d).1 else decodeUnits cap ls d := by
  induction ls with
  | nil => intro d; simp [decodeUnits]
  | cons l ls ih =>
    intro d
    rw [List.cons_append, decodeUnits_cons, decodeUnits_cons]
    by_cases h : (decodeUnit cap d l).2 = none
    · simp only [h, if_true]; exact ih _
    · simp [h]

/-- What holds of the decoder at the start and after every unit holds at the end of a run. -/
theorem decodeUnits_induct {P : Decoder → Prop} {cap : Nat} (step : ∀ d l, P d → P (decodeUnit cap d l).1)
    (ls : List Level) : ∀ d, P d → P (decodeUnits cap ls d).1 := by
  induction ls with
  | nil => intro d h; exact h
  | cons l ls ih =>
    intro d h
    rw [decodeUnits_cons]
    split
    · exact ih _ (step d l h)
    · exact step d l h

theorem decodeUnits_cnt_le {cap : Nat} (ls : List Level) {d : Decoder} (h : d.cnt ≤ cap) :
    (decodeUnits cap ls d).1.cnt ≤ cap :=
  decodeUnits_induct (P := fun d => d.cnt ≤ cap) (fun _ l h => decodeUnit_cnt_le l h) ls d h

theorem decodeUnits_wf {cap : Nat} (ls : List Level) {d : Decoder} (h : Memory.wf d.buf) :
    Memory.wf (decodeUnits cap ls d).1.buf :=
  decodeUnits_induct (P := fun d => Memory.wf d.buf) (fun _ l h => decodeUnit_wf l h) ls d h

theorem decodeUnits_room (cap : Nat) (ls : List Level) (d : Decoder) : (decodeUnits cap ls d).1.room = d.room :=
  decodeUnits_induct (P := fun e => e.room = d.room) (fun e l h => (decodeUnit_room cap e l).trans h) ls d rfl

theorem decodeUnits_read {cap : Nat} (ls : List Level) {d : Decoder} (h : d.cnt ≤ cap) {i : Nat}
    (hi : cap ≤ i ∨ d.room ≤ i) : Memory.read (decodeUnits cap ls d).1.buf i = Memory.read d.buf i :=
  (decodeUnits_induct (P := fun e => e.cnt ≤ cap ∧ e.room = d.room ∧ Memory.read e.buf i = Memory.read d.buf i)
    (fun e l h => ⟨decodeUnit_cnt_le l h.1, (decodeUnit_room cap e l).trans h.2.1,
      (decodeUnit_read l h.1 (by rw [h.2.1]; exact hi)).trans h.2.2⟩) ls d ⟨h, rfl, rfl⟩).2.2

theorem decodeUnits_status (cap : Nat) (ls : List Level) :
    ∀ d, (decodeUnits cap ls d).2 = none ∨ (decodeUnits cap ls d).2 = some .ok ∨
      (decodeUnits cap ls d).2 = some .fail ∨ (decodeUnits cap ls d).2 = some .invalidSize := by
  induction ls with
  | nil => intro d; exact .inl rfl
  | cons l ls ih =>
    intro d
    rw [decodeUnits_cons]
    split
    · exact ih _
    · exact decodeUnit_status cap d l

theorem decodeUnits_ok {cap : Nat} (ls : List Level) :
    ∀ d, (decodeUnits cap ls d).2 = some .ok → 2 ≤ (decodeUnits cap ls d).1.cnt := by
  induction ls with
  | nil => intro d h; cases h
  | cons l ls ih =>
    intro d h
    rw [decodeUnits_cons] at h ⊢
    split at h
    · next hn => rw [if_pos hn]; exact ih _ h
    · next hn => rw [if_neg hn]; exact decodeUnit_ok h

/-- DECODE ends in one of its four statuses (R121). -/
theorem decodePulses_status (ps : List Pulse) (cap : Nat) (d : Decoder) :
    (decodePulses ps cap d).2 = .ok ∨ (decodePulses ps cap d).2 = .fail ∨ (decodePulses ps cap d).2 = .invalidSize ∨
      (decodePulses ps cap d).2 = .notFound := by
  unfold decodePulses
  rcases decodeUnits_status cap (unitsOf ps) d with h | h | h | h <;> simp [h]

/-- The length DECODE ends with is within the capacity (R117). -/
theorem decodePulses_len_le (ps : List Pulse) {cap : Nat} {d : Decoder} (h : d.cnt ≤ cap) :
    (decodePulses ps cap d).1.len (decodePulses ps cap d).2 ≤ cap := by
  have := decodeUnits_cnt_le (unitsOf ps) h
  unfold Decoder.len
  split
  · exact le_trans (Nat.sub_le _ _) this
  · exact this

/-- A pulse outside the window may stand anywhere without effect (R107). -/
theorem decodePulses_ignored (ps qs : List Pulse) {p : Pulse} (hp : p.dur < 417 ∨ 7913 < p.dur) (cap : Nat)
    (d : Decoder) : decodePulses (ps ++ p :: qs) cap d = decodePulses (ps ++ qs) cap d := by
  unfold decodePulses
  rw [unitsOf_append, unitsOf_append, unitsOf_cons, pulseUnits_ignored hp, List.nil_append]

/-! ## A frame -/

/-- The accumulator after the seven data units of a character (R111). -/
def accAfter (c : Byte) : BitVec 7 :=
  (List.finRange 7).foldl (fun acc k => if dataLevel (c.getLsbD k.val) = .marking then setAcc acc k else acc) 0#7

/-- `rx_par` after the seven data units of a character (R111). -/
def rxParAfter (c : Byte) : Bool :=
  (List.finRange 7).foldl (fun par k => rxParStep par (dataLevel (c.getLsbD k.val))) false

/-- The decoder assembles the seven bits that were sent (R73). -/
theorem accAfter_eq : ∀ c : BitVec 8, accAfter c = c.setWidth 7 := by decide +kernel

/-- The decoder's running parity is the encoder's (R64, R112). -/
theorem rxParAfter_eq : ∀ c : BitVec 8, rxParAfter c = txParity c := by decide +kernel

/-- The start unit and the data units of a character, from `WAIT_START`. -/
theorem decodeUnits_body (cap : Nat) (c : Byte) (ls : List Level) (acc : BitVec 7) (par : Bool) (cnt : Nat)
    (buf : Memory) (room draw : Nat) :
    decodeUnits cap (.spacing :: ((List.range 7).map (fun k => dataLevel (c.getLsbD k)) ++ ls))
        ⟨.waitStart, acc, par, cnt, buf, room, draw⟩ =
      decodeUnits cap ls ⟨.parity, accAfter c, rxParAfter c, cnt, buf, room, draw⟩ := rfl

/-- A whole frame, from `WAIT_START` with room in the destination: the character's seven bits are appended (R92, R105,
R58). -/
theorem decodeUnits_frame (cap : Nat) (c : Byte) (acc : BitVec 7) (par : Bool) (cnt : Nat) (buf : Memory)
    (room draw : Nat) (hcap : cnt ≠ cap) :
    decodeUnits cap (frameLevels c) ⟨.waitStart, acc, par, cnt, buf, room, draw⟩ =
      appendChar ⟨.stop, c.setWidth 7, txParity c, cnt, buf, room, draw⟩ := by
  rw [frameLevels, decodeUnits_body, accAfter_eq, rxParAfter_eq, decodeUnits_cons]
  have hp : levelBit (flagLevel (txParity c)) = txParity c := by cases txParity c <;> rfl
  simp only [decodeUnit, hp, ne_eq, not_true_eq_false, if_false, if_true, hcap, decodeUnits]
  split
  · next h => rw [← h]
  · next h => rw [← h]

end Sys2Proof.Machine
end

