-- ==== Sys2Proof/Laws/PerInstr.lean ====
section
/-! SUPPORT. The per-operation law: the form of the packet that presents an operation, constructor by constructor. -/

/-- The packet of an operation is one of the four forms of the interface: a frame's ten units, the number of its row with
its operands, a checksum character with its position, or the second character of a command; the first field says
which (R80). -/
def Sys2Proof.Laws.PacketForm.Statement (i : Sys2Proof.Instr) : Prop :=
  (∃ w, w < 1024 ∧ Sys2Proof.encode i = [0, 10, w]) ∨ (∃ row fs, row < 42 ∧ Sys2Proof.encode i = 1 :: row :: fs) ∨
    (∃ k b, k < 3 ∧ b < 256 ∧ Sys2Proof.encode i = [2, k, b]) ∨ (∃ b, b < 256 ∧ Sys2Proof.encode i = [3, b])

open Sys2Proof

theorem Sys2Proof.Laws.PacketForm.send :
    ∀ r req, Laws.PacketForm.Statement (.send r req) := fun _ _ => .inr (.inl ⟨0, _, by omega, rfl⟩)

theorem Sys2Proof.Laws.PacketForm.valid :
    ∀ req, Laws.PacketForm.Statement (.valid req) := fun _ => .inr (.inl ⟨1, _, by omega, rfl⟩)

theorem Sys2Proof.Laws.PacketForm.readline :
    ∀ d cap budget, Laws.PacketForm.Statement (.readline d cap budget) :=
  fun _ _ _ => .inr (.inl ⟨2, _, by omega, rfl⟩)

theorem Sys2Proof.Laws.PacketForm.classify :
    Laws.PacketForm.Statement (.classify) := .inr (.inl ⟨3, _, by omega, rfl⟩)

theorem Sys2Proof.Laws.PacketForm.encode :
    Laws.PacketForm.Statement (.encode) := .inr (.inl ⟨4, _, by omega, rfl⟩)

theorem Sys2Proof.Laws.PacketForm.preamble :
    Laws.PacketForm.Statement (.preamble) := .inr (.inl ⟨5, _, by omega, rfl⟩)

theorem Sys2Proof.Laws.PacketForm.frame :
    ∀ c, Laws.PacketForm.Statement (.frame c) := fun c => by
  cases h : c.msb
  · exact .inl ⟨_, (frameWord c).isLt, if_neg (by simp [h])⟩
  · exact .inr (.inl ⟨6, [c.toNat], by omega, if_pos h⟩)

theorem Sys2Proof.Laws.PacketForm.decode :
    ∀ n d cap, Laws.PacketForm.Statement (.decode n d cap) := fun _ _ _ => .inr (.inl ⟨7, _, by omega, rfl⟩)

theorem Sys2Proof.Laws.PacketForm.units :
    ∀ d, Laws.PacketForm.Statement (.units d) := fun _ => .inr (.inl ⟨8, _, by omega, rfl⟩)

theorem Sys2Proof.Laws.PacketForm.crc16 :
    ∀ b m, Laws.PacketForm.Statement (.crc16 b m) := fun _ _ => .inr (.inl ⟨9, _, by omega, rfl⟩)

theorem Sys2Proof.Laws.PacketForm.crcenc :
    ∀ v, Laws.PacketForm.Statement (.crcenc v) := fun _ => .inr (.inl ⟨10, _, by omega, rfl⟩)

theorem Sys2Proof.Laws.PacketForm.crc3k0 :
    ∀ f, Laws.PacketForm.Statement (.crc3k0 f) := fun f => .inr (.inr (.inl ⟨0, _, by omega, BitVec.isLt _, rfl⟩))

theorem Sys2Proof.Laws.PacketForm.crc3k1 :
    ∀ f, Laws.PacketForm.Statement (.crc3k1 f) := fun f => .inr (.inr (.inl ⟨1, _, by omega, BitVec.isLt _, rfl⟩))

theorem Sys2Proof.Laws.PacketForm.crc3k2 :
    ∀ f, Laws.PacketForm.Statement (.crc3k2 f) := fun f => .inr (.inr (.inl ⟨2, _, by omega, BitVec.isLt _, rfl⟩))

theorem Sys2Proof.Laws.PacketForm.verify :
    Laws.PacketForm.Statement (.verify) := .inr (.inl ⟨14, _, by omega, rfl⟩)

theorem Sys2Proof.Laws.PacketForm.create :
    ∀ line brk mark, Laws.PacketForm.Statement (.create line brk mark) :=
  fun _ _ _ => .inr (.inl ⟨15, _, by omega, rfl⟩)

theorem Sys2Proof.Laws.PacketForm.destroy :
    Laws.PacketForm.Statement (.destroy) := .inr (.inl ⟨16, _, by omega, rfl⟩)

theorem Sys2Proof.Laws.PacketForm.lock :
    ∀ r, Laws.PacketForm.Statement (.lock r) := fun _ => .inr (.inl ⟨17, _, by omega, rfl⟩)

theorem Sys2Proof.Laws.PacketForm.unlock :
    ∀ r, Laws.PacketForm.Statement (.unlock r) := fun _ => .inr (.inl ⟨18, _, by omega, rfl⟩)

theorem Sys2Proof.Laws.PacketForm.setdir :
    ∀ m, Laws.PacketForm.Statement (.setdir m) := fun _ => .inr (.inl ⟨19, _, by omega, rfl⟩)

theorem Sys2Proof.Laws.PacketForm.envEmit :
    Laws.PacketForm.Statement (.envEmit) := .inr (.inl ⟨20, _, by omega, rfl⟩)

theorem Sys2Proof.Laws.PacketForm.envCapture :
    ∀ budget, Laws.PacketForm.Statement (.envCapture budget) := fun _ => .inr (.inl ⟨21, _, by omega, rfl⟩)

theorem Sys2Proof.Laws.PacketForm.envSetdir :
    ∀ m, Laws.PacketForm.Statement (.envSetdir m) := fun _ => .inr (.inl ⟨22, _, by omega, rfl⟩)

theorem Sys2Proof.Laws.PacketForm.cmdM :
    Laws.PacketForm.Statement (.cmdM) := .inr (.inr (.inr ⟨_, by decide, rfl⟩))

theorem Sys2Proof.Laws.PacketForm.cmdV :
    Laws.PacketForm.Statement (.cmdV) := .inr (.inr (.inr ⟨_, by decide, rfl⟩))

theorem Sys2Proof.Laws.PacketForm.cmdH :
    Laws.PacketForm.Statement (.cmdH) := .inr (.inr (.inr ⟨_, by decide, rfl⟩))

theorem Sys2Proof.Laws.PacketForm.cmdC :
    Laws.PacketForm.Statement (.cmdC) := .inr (.inr (.inr ⟨_, by decide, rfl⟩))

theorem Sys2Proof.Laws.PacketForm.cmdD :
    Laws.PacketForm.Statement (.cmdD) := .inr (.inr (.inr ⟨_, by decide, rfl⟩))

theorem Sys2Proof.Laws.PacketForm.cmdR :
    Laws.PacketForm.Statement (.cmdR) := .inr (.inr (.inr ⟨_, by decide, rfl⟩))

theorem Sys2Proof.Laws.PacketForm.cmdDefault :
    ∀ v, Laws.PacketForm.Statement (.cmdDefault v) := fun v => .inr (.inr (.inr ⟨_, v.isLt, rfl⟩))

theorem Sys2Proof.Laws.PacketForm.newSession :
    ∀ via a, Laws.PacketForm.Statement (.newSession via a) := fun _ _ => .inr (.inl ⟨30, _, by omega, rfl⟩)

theorem Sys2Proof.Laws.PacketForm.ackActive :
    ∀ via h, Laws.PacketForm.Statement (.ackActive via h) := fun _ _ => .inr (.inl ⟨31, _, by omega, rfl⟩)

theorem Sys2Proof.Laws.PacketForm.addressQuery :
    ∀ via, Laws.PacketForm.Statement (.addressQuery via) := fun _ => .inr (.inl ⟨32, _, by omega, rfl⟩)

theorem Sys2Proof.Laws.PacketForm.changeAddress :
    ∀ via h b, Laws.PacketForm.Statement (.changeAddress via h b) := fun _ _ _ => .inr (.inl ⟨33, _, by omega, rfl⟩)

theorem Sys2Proof.Laws.PacketForm.readIdentification :
    ∀ via h, Laws.PacketForm.Statement (.readIdentification via h) := fun _ _ => .inr (.inl ⟨34, _, by omega, rfl⟩)

theorem Sys2Proof.Laws.PacketForm.startMeasurement :
    ∀ via h c x, Laws.PacketForm.Statement (.startMeasurement via h c x) :=
  fun _ _ _ _ => .inr (.inl ⟨35, _, by omega, rfl⟩)

theorem Sys2Proof.Laws.PacketForm.startConcurrent :
    ∀ via h c x, Laws.PacketForm.Statement (.startConcurrent via h c x) :=
  fun _ _ _ _ => .inr (.inl ⟨36, _, by omega, rfl⟩)

theorem Sys2Proof.Laws.PacketForm.readData :
    ∀ via h x c, Laws.PacketForm.Statement (.readData via h x c) := fun _ _ _ _ => .inr (.inl ⟨37, _, by omega, rfl⟩)

theorem Sys2Proof.Laws.PacketForm.readContinuous :
    ∀ via h x c, Laws.PacketForm.Statement (.readContinuous via h x c) :=
  fun _ _ _ _ => .inr (.inl ⟨38, _, by omega, rfl⟩)

theorem Sys2Proof.Laws.PacketForm.startVerification :
    ∀ via h, Laws.PacketForm.Statement (.startVerification via h) := fun _ _ => .inr (.inl ⟨39, _, by omega, rfl⟩)

theorem Sys2Proof.Laws.PacketForm.identifyExtended :
    ∀ via h cmd, Laws.PacketForm.Statement (.identifyExtended via h cmd) :=
  fun _ _ _ => .inr (.inl ⟨40, _, by omega, rfl⟩)

theorem Sys2Proof.Laws.PacketForm.rawExtended :
    ∀ via h cmd c, Laws.PacketForm.Statement (.rawExtended via h cmd c) :=
  fun _ _ _ _ => .inr (.inl ⟨41, _, by omega, rfl⟩)
end

