-- ==== Sys2Proof/Laws/Transport.lean ====
section
/-! SUPPORT. What the lock, READLINE's loop, the end of a transaction and SEND's call can do, said once. -/

namespace Sys2Proof.Machine

/-! ## The lock -/

/-- Everything `tryGrant` can do: nothing, or the grant to one of the waiters. -/
theorem State.tryGrant_cases (s : State) :
    (s.tryGrant = s ∧ (s.lockHeld = true ∨ s.lockWaiters = [])) ∨
    (s.lockHeld = false ∧ ∃ r, r ∈ s.lockWaiters ∧ (s.tryGrant = s.grantTo r ∨ s.tryGrant = s.dropGrant.grantTo r)) := by
  unfold State.tryGrant
  split
  · next h => exact .inl ⟨rfl, .inl h⟩
  · next h =>
    have hf : s.lockHeld = false := Bool.eq_false_iff.2 h
    split
    · next hw => exact .inl ⟨rfl, .inr hw⟩
    · next r hw => exact .inr ⟨hf, r, by simp [hw], .inl rfl⟩
    · next r w ws hw =>
      refine .inr ⟨hf, _, ?_, .inr rfl⟩
      have hlt : s.grantIndex < s.lockWaiters.length := Nat.mod_lt _ (by simp [hw])
      rw [List.getD_eq_getElem _ _ hlt]
      exact List.getElem_mem hlt

/-- Everything `grantTo` can do (R184, R166): a waiting SEND's transaction begins, or the requester, whatever else it
waits with, holds the lock. -/
theorem State.grantTo_cases (r : Nat) (s : State) :
    (∃ p, s.ports[r]? = some p ∧ p.act = .sending ∧
      s.grantTo r = State.loadRequest r p
        { s with lockWaiters := s.lockWaiters.filter (· ≠ r), lockHeld := true, lockOwner := r }) ∨
    (∃ p, s.ports[r]? = some p ∧ p.act ≠ .sending ∧
      s.grantTo r =
        { s with lockWaiters := s.lockWaiters.filter (· ≠ r), lockHeld := true, lockOwner := r,
                 ports := s.ports.modify r (fun p => { p with act := .holding }) }) ∨
    (s.ports[r]? = none ∧
      s.grantTo r = { s with lockWaiters := s.lockWaiters.filter (· ≠ r), lockHeld := true, lockOwner := r }) := by
  unfold State.grantTo
  dsimp only
  split
  · next h => exact .inr (.inr ⟨h, rfl⟩)
  · next p h =>
    split
    · next ha => exact .inl ⟨p, h, ha, rfl⟩
    · next ha => exact .inr (.inl ⟨p, h, ha, rfl⟩)

theorem mem_insertWaiter {r x : Nat} : ∀ {ws : List Nat}, x ∈ insertWaiter r ws ↔ x = r ∨ x ∈ ws
  | [] => by simp [insertWaiter]
  | w :: ws => by
    unfold insertWaiter
    split
    · simp
    · split
      · next h => subst h; simp
      · simp only [List.mem_cons, mem_insertWaiter (ws := ws)]; tauto

theorem insertWaiter_rising {r : Nat} : ∀ {ws : List Nat}, ws.Pairwise (· < ·) → (insertWaiter r ws).Pairwise (· < ·)
  | [], _ => by simp [insertWaiter]
  | w :: ws, h => by
    unfold insertWaiter
    rw [List.pairwise_cons] at h
    split
    · next hr =>
      rw [List.pairwise_cons]
      refine ⟨?_, List.pairwise_cons.2 h⟩
      intro x hx
      rcases List.mem_cons.1 hx with rfl | hx
      · exact hr
      · exact lt_trans hr (h.1 x hx)
    · split
      · exact List.pairwise_cons.2 h
      · next h1 h2 =>
        rw [List.pairwise_cons]
        refine ⟨?_, insertWaiter_rising h.2⟩
        intro x hx
        rcases mem_insertWaiter.1 hx with rfl | hx
        · omega
        · exact h.1 x hx

/-! ## READLINE -/

/-- Everything one turn of READLINE's loop can do (R151): the budget is used up, the environment reports nothing or a
failure, or a capture was taken and decoded. -/
theorem State.readTurn_cases (d : Dst) (cap : Nat) (s : State) :
    (s.tRem = 0 ∧ s.readTurn d cap = (some .timeout, s.setLen d 0)) ∨
    (s.tRem ≠ 0 ∧ s.captureAnswer s.tRem = .timeout ∧
      s.readTurn d cap = (some .timeout, (s.envCapture s.tRem).setLen d 0)) ∨
    (s.tRem ≠ 0 ∧ s.captureAnswer s.tRem = .fail ∧
      s.readTurn d cap = (some .fail, (s.envCapture s.tRem).setLen d 0)) ∨
    (s.tRem ≠ 0 ∧ ∃ ps e, s.captureAnswer s.tRem = .captured ps e ∧
      s.readTurn d cap =
        (lineStatus (s.takenStatus d cap ps) ((s.takeCapture d cap ps e).len d), s.takeCapture d cap ps e)) := by
  unfold State.readTurn
  split
  · next h => exact .inl ⟨h, rfl⟩
  · next h =>
    split
    · next ha => exact .inr (.inr (.inl ⟨h, ha, rfl⟩))
    · next ha => exact .inr (.inl ⟨h, ha, rfl⟩)
    · next ps e ha => exact .inr (.inr (.inr ⟨h, ps, e, ha, rfl⟩))

/-- A retried turn uses an answer of the script, or at least 1 TT of the budget (R190, R240). -/
theorem State.readTurn_measure {d : Dst} {cap : Nat} {s t : State} (h : s.readTurn d cap = (none, t)) :
    t.tRem + t.script.captures.length < s.tRem + s.script.captures.length := by
  rcases State.readTurn_cases d cap s with ⟨-, he⟩ | ⟨-, -, he⟩ | ⟨-, -, he⟩ | ⟨h0, ps, e, ha, he⟩
  · rw [he] at h; cases h
  · rw [he] at h; cases h
  · rw [he] at h; cases h
  · rw [he, Prod.mk.injEq] at h
    rw [← h.2]
    simp only [State.takeCapture, State.decodeInto_tRem, State.decodeInto_script, State.envCapture_script]
    cases hs : s.script.captures with
    | cons c cs => simp only [List.tail_cons, List.length_cons]; omega
    | nil =>
      have hb : 1 ≤ e := by
        rw [State.captureAnswer, hs, List.headD_nil] at ha
        cases hc : Config.freeCapture s.draws with
        | captured qs f => rw [hc] at ha; simp only [boundElapsed, Capture.captured.injEq] at ha; omega
        | timeout => rw [hc] at ha; cases ha
        | fail => rw [hc] at ha; cases ha
      simp only [List.tail_nil, List.length_nil]
      omega

/-- More turns than enough change nothing (R240): the loop ends by itself. -/
theorem State.readLoop_enough (d : Dst) (cap : Nat) :
    ∀ (n : Nat) (s : State) (m : Nat), s.readFuel ≤ n → n ≤ m → s.readLoop d cap n = s.readLoop d cap m := by
  intro n
  induction n with
  | zero => intro s m h; simp [State.readFuel] at h
  | succ n ih =>
    intro s m h hm
    obtain ⟨m, rfl⟩ : ∃ k, m = k + 1 := ⟨m - 1, by omega⟩
    unfold State.readLoop
    split
    · rfl
    · next t he =>
      have := State.readTurn_measure he
      exact ih t m (by simp only [State.readFuel] at h ⊢; omega) (by omega)

/-- READLINE's loop unfolded once, its turns being enough. -/
theorem State.readLoop_unfold (d : Dst) (cap : Nat) (s : State) :
    s.readLoop d cap s.readFuel =
      match s.readTurn d cap with
      | (some st, t) => (st, t)
      | (none, t) => t.readLoop d cap t.readFuel := by
  have hf : s.readFuel = (s.tRem + s.script.captures.length) + 1 := rfl
  rw [hf, State.readLoop]
  rcases he : s.readTurn d cap with ⟨_ | st, t⟩
  · have := State.readTurn_measure he
    exact (State.readLoop_enough d cap t.readFuel t _ le_rfl (by simp only [State.readFuel]; omega)).symm
  · rfl

/-! ## The end of a transaction and SEND's call -/

/-- The end of a transaction as one update (R163, R164): what each field becomes. -/
theorem State.release_eq (s : State) :
    s.release =
      { s.setDir .idle with
        status := if s.setDirAnswer = false ∧ s.status = .ok then .fail else s.status
        seqState := .idle
        lockHeld := false
        ports := (s.ports.modify s.reqId (fun p => { p with rsp := s.rsp })).modify s.reqId (fun p =>
          { p with act := .free
                   result := some (if s.setDirAnswer = false ∧ s.status = .ok then .fail else s.status, s.rspLen) }) } :=
  rfl

/-- Validation reads the record that the call has latched (R20). -/
theorem State.latch_recordValid {s : State} {r : Nat} {p : Port} (hp : s.ports[r]? = some p) (req : Request)
    (v : Option Verb) : (s.latch r req v).recordValid r = validRequest s.busValid s.cfg req := by
  simp [State.recordValid, hp]

/-- Everything SEND's call can do (R20, R146, R147): the request is latched, an invalid one is answered, with a valid one
the requester waits for the lock. -/
theorem State.sendBy_cases {s : State} {r : Nat} {p : Port} (hp : s.ports[r]? = some p) (req : Request) (v : Option Verb) :
    (validRequest s.busValid s.cfg req = false ∧
      s.sendBy r req v = ((s.latch r req v).deliver r .invalidArg 0).finishCall r .invalidArg 0) ∨
    (validRequest s.busValid s.cfg req = true ∧ s.sendBy r req v = (s.latch r req v).lockBy r .sending) := by
  unfold State.sendBy
  rw [← State.latch_recordValid hp req v]
  cases h : (s.latch r req v).recordValid r <;> simp [h]

end Sys2Proof.Machine
end

