-- ==== Sys2Proof/Tests/Slice0.lean ====
section
/-! SUPPORT. Tests on fixed values: the words and packets of every constructor, the ill-formed operations, one-step checks whose
expected values come from the spec, and for every statement with hypotheses a state that meets them. -/

namespace Sys2Proof.Tests

set_option Elab.async false

open Sys2Proof Sys2Proof.Machine

/-! ## Decoding: bit patterns written out from the spec -/

/-- FRAME, R81: character 0x30 is `S SSSSMMS S M`, unit 0 first and `S` = 1, the word 1111100110. -/
theorem test_decode_frame : decodeTableWord 10 0b1111100110 = some (.frame 0x30#8) := by decide +kernel

/-- The same frame in the two bytes that hold its ten bits. -/
theorem test_decode_frame_two_bytes : decodeTableWord 16 0b1111100110 = some (.frame 0x30#8) := by decide +kernel

/-- R62: a frame that does not begin at spacing, or end at marking, is none. -/
theorem test_decode_frame_framing :
    decodeTableWord 10 0b0111100110 = none ∧ decodeTableWord 10 0b1111100111 = none := by decide +kernel

/-- R64: a frame whose parity unit is wrong is none. -/
theorem test_decode_frame_parity : decodeTableWord 10 0b1111100100 = none := by decide +kernel

/-- R70: `0100abcd` at the first position. -/
theorem test_decode_crc3k0 : decode [2, 0, 0b01001111] = .ok (.crc3k0 0b1111#4) := by decide +kernel

/-- R70: `01abcdef` at the second position. -/
theorem test_decode_crc3k1 : decode [2, 1, 0b01110001] = .ok (.crc3k1 0b110001#6) := by decide +kernel

/-- R70: `01abcdef` at the third position. -/
theorem test_decode_crc3k2 : decode [2, 2, 0b01011010] = .ok (.crc3k2 0b011010#6) := by decide +kernel

/-- R70: a character outside 0x40 to 0x4F, or 0x40 to 0x7F, is none. -/
theorem test_decode_crc3_refused :
    decode [2, 0, 0b01010000] = .error .badChecksumCharacter ∧
    decode [2, 1, 0b10000000] = .error .badChecksumCharacter := by decide +kernel

/-- R72: the six exact rows, `M` `V` `H` `C` `D` `R`. -/
theorem test_decode_cmd_rows :
    decodeTableWord 8 0b01001101 = some .cmdM ∧ decodeTableWord 8 0b01010110 = some .cmdV ∧
    decodeTableWord 8 0b01001000 = some .cmdH ∧ decodeTableWord 8 0b01000011 = some .cmdC ∧
    decodeTableWord 8 0b01000100 = some .cmdD ∧ decodeTableWord 8 0b01010010 = some .cmdR := by decide +kernel

/-- R72: any other second character, here `'!'` and `'A'`, is the default row's. -/
theorem test_decode_cmd_default :
    decodeTableWord 8 0b00100001 = some (.cmdDefault 0x21#8) ∧ decode [3, 0x41] = .ok (.cmdDefault 0x41#8) := by
  decide +kernel

/-! ## Decoding: the packets of the rows without a bit pattern (rows of the table counted from 0) -/

theorem test_decode_send :
    decode [1, 0, 1, 1, 1000, 85, 0x30, 0x21] =
      .ok (.send 1 { cmd := [0x30#8, 0x21#8], requireCrc := true, timeout := 1000, rspCap := 85 }) := by decide +kernel

theorem test_decode_valid :
    decode [1, 1, 0, 7, 9, 0x3F] =
      .ok (.valid { cmd := [0x3F#8], requireCrc := false, timeout := 7, rspCap := 9 }) := by decide +kernel

theorem test_decode_readline_decode :
    decode [1, 2, 2, 8, 1000] = .ok (.readline .srq 8 1000) ∧ decode [1, 7, 40, 1, 85] = .ok (.decode 40 .rsp 85) := by
  decide +kernel

theorem test_decode_codec_rows :
    decode [1, 3] = .ok .classify ∧ decode [1, 4] = .ok .encode ∧ decode [1, 5] = .ok .preamble ∧
    decode [1, 6, 0xB0] = .ok (.frame 0xB0#8) ∧ decode [1, 8, 833] = .ok (.units 833) := by decide +kernel

theorem test_decode_checksum_rows :
    decode [1, 9, 1, 6] = .ok (.crc16 .rsp 6) ∧ decode [1, 10, 0xFC5A] = .ok (.crcenc 0xFC5A#16) ∧
    decode [1, 14] = .ok .verify := by decide +kernel

theorem test_decode_bus_rows :
    decode [1, 15, 7, 0, 8500] = .ok (.create 7 0 8500) ∧ decode [1, 16] = .ok .destroy ∧
    decode [1, 17, 1] = .ok (.lock 1) ∧ decode [1, 18, 0] = .ok (.unlock 0) ∧
    decode [1, 19, 2] = .ok (.setdir .receive) := by decide +kernel

theorem test_decode_env_rows :
    decode [1, 20] = .ok .envEmit ∧ decode [1, 21, 500] = .ok (.envCapture 500) ∧
    decode [1, 22, 1] = .ok (.envSetdir .transmit) := by decide +kernel

theorem test_decode_host_rows :
    decode [1, 30, 0, 0, 85, 0x3F] = .ok (.newSession ⟨0, none, 85⟩ 0x3F#8) ∧
    decode [1, 31, 1, 501, 85, 4] = .ok (.ackActive ⟨1, some 500, 85⟩ 4) ∧
    decode [1, 32, 0, 0, 85] = .ok (.addressQuery ⟨0, none, 85⟩) ∧
    decode [1, 33, 0, 0, 85, 4, 0x35] = .ok (.changeAddress ⟨0, none, 85⟩ 4 0x35#8) ∧
    decode [1, 34, 0, 0, 85, 4] = .ok (.readIdentification ⟨0, none, 85⟩ 4) ∧
    decode [1, 35, 0, 0, 85, 4, 1, 0] = .ok (.startMeasurement ⟨0, none, 85⟩ 4 true none) := by decide +kernel

theorem test_decode_host_rows_2 :
    decode [1, 36, 0, 0, 85, 4, 0, 10] = .ok (.startConcurrent ⟨0, none, 85⟩ 4 false (some 9)) ∧
    decode [1, 37, 0, 0, 85, 4, 9, 1] = .ok (.readData ⟨0, none, 85⟩ 4 9 true) ∧
    decode [1, 38, 0, 0, 85, 4, 0, 0] = .ok (.readContinuous ⟨0, none, 85⟩ 4 0 false) ∧
    decode [1, 39, 0, 0, 85, 4] = .ok (.startVerification ⟨0, none, 85⟩ 4) ∧
    decode [1, 40, 0, 0, 85, 4, 0x4D] = .ok (.identifyExtended ⟨0, none, 85⟩ 4 [0x4D#8]) ∧
    decode [1, 41, 0, 0, 85, 4, 1, 0x58] = .ok (.rawExtended ⟨0, none, 85⟩ 4 [0x58#8] true) := by decide +kernel

/-- What is no operation is refused, by name. -/
theorem test_decode_refused :
    decode [] = .error .unknownForm ∧ decode [4] = .error .unknownForm ∧ decode [0, 9, 0] = .error .unknownWidth ∧
    decode [0, 8, 256] = .error .outOfRange ∧ decode [1, 42] = .error .unknownOperation ∧
    decode [1, 19, 3] = .error .badOperands ∧ decode [1, 23] = .error .badOperands := by decide +kernel

/-! ## Well-formedness: each check refuses its ill-formed term -/

/-- R80: the default row does not match `'M'`. -/
theorem test_illformed_default : (Instr.cmdDefault 0x4D#8).illFormed? = some .verbOfAnotherRow := by decide

/-- R190: a capture has a budget. -/
theorem test_illformed_capture : (Instr.envCapture 0).illFormed? = some .captureWithoutBudget := by decide

/-- A step refuses an ill-formed operation, and a packet that is none. -/
theorem test_step_refuses :
    step { State.reset with inputs := [.call [1, 21, 0]] } = .refused (.illFormed .captureWithoutBudget) ∧
    step { State.reset with inputs := [.call [9]] } = .refused (.undecodable .unknownForm) := ⟨rfl, rfl⟩

/-! ## One step on a small state.  The expected values are those of 95_test_vectors.md, whose entry each test names. -/

/-- A part of the next state, where there is one. -/
def part {α : Type} (o : Host.Outcome State Fault Refusal) (f : State → α) : Option α :=
  match o with
  | .next t => some (f t)
  | .fault _ => none
  | .refused _ => none

/-- A block with a Bus and its default profile (V80 row 1). -/
def bus : State := { State.reset with busValid := true, lineId := 4, tp := { breakDur := 12200, markDur := 8400 } }

/-- `bus` with a line in `RSP`. -/
def withLine (cs : List Byte) : State := { bus with rsp := Memory.writeFrom [] 0 cs, rspLen := cs.length }

/-- `bus` with a command in `CMD`, and the lock held, under which `CMD` is used. -/
def withCmd (cs : List Byte) : State :=
  { bus with lockHeld := true, cmd := Memory.writeFrom [] 0 cs, cmdLen := cs.length }

/-- `bus` with a captured waveform of the frames of a string in `RXQ`, and the lock held, under which `RXQ` is used. -/
def withWave (cs : List Byte) : State := { bus with lockHeld := true, rxq := waveform (cs.flatMap framePulses) }

/-- A request of `0!`. -/
def ask : Request := { cmd := [0x30#8, 0x21#8], requireCrc := false, timeout := 1000, rspCap := 85 }

/-- A string of characters from their codes. -/
def chars (ns : List Nat) : List Byte := ns.map (BitVec.ofNat 8)

/-- V1: `'!'` is `SMSSSSMSSM`. -/
theorem test_frame :
    part (exec (.frame 0x21#8) bus) State.ret = some (.pulses ([Level.spacing, .marking, .spacing, .spacing, .spacing,
      .spacing, .marking, .spacing, .spacing, .marking].map (fun l => ⟨l, 833⟩))) := by decide +kernel

/-- V10, V11: 22 pulses in 37260 PT; merged, 12 pulses. -/
theorem test_encode :
    part (exec .encode (withCmd [0x30#8, 0x21#8])) (fun t => (t.txq.length, pulsesDur t.txq, waveform t.txq)) =
      some (22, 37260, [⟨.spacing, 12200⟩, ⟨.marking, 8400⟩, ⟨.spacing, 4165⟩, ⟨.marking, 1666⟩, ⟨.spacing, 1666⟩,
        ⟨.marking, 833⟩, ⟨.spacing, 833⟩, ⟨.marking, 833⟩, ⟨.spacing, 3332⟩, ⟨.marking, 833⟩, ⟨.spacing, 1666⟩,
        ⟨.marking, 833⟩]) := by decide +kernel

/-- V10: the break, then the post-break marking. -/
theorem test_preamble :
    part (exec .preamble bus) State.ret = some (.pulses [⟨.spacing, 12200⟩, ⟨.marking, 8400⟩]) := by decide +kernel

/-- V22: the bounds of the window. -/
theorem test_units :
    [416, 417, 1249, 1250, 7913, 7914, 12200].map (fun d => part (exec (.units d) bus) State.ret) =
      [some (.nat 0), some (.nat 1), some (.nat 1), some (.nat 2), some (.nat 9), some (.nat 10), some (.nat 15)] := by
  decide +kernel

/-- V21: the merged frames of `0` `CR` `LF` are a line of one character. -/
theorem test_decode_line :
    part (exec (.decode 16 .rsp 8) (withWave [0x30#8, 0x0D#8, 0x0A#8]))
      (fun t => (t.ret, t.rspLen, Memory.slice t.rsp 0 4)) =
      some (.line .ok 1, 1, [0x30#8, 0x00#8, 0x0A#8, 0x00#8]) := by decide +kernel

/-- What DECODE of all the pulses of a string's merged frames answers. -/
def decoded (d : Dst) (cap : Nat) (cs : List Byte) : Option Ret :=
  part (exec (.decode (withWave cs).rxq.length d cap) (withWave cs)) State.ret

/-- V26, V28: a full buffer, and no line end; R121: a line that fits, with more capacity than `SRQ` has. -/
theorem test_decode_exits :
    decoded .rsp 2 (chars [0x30, 0x30, 0x30, 0x33, 0x30, 0x0D, 0x0A]) = some (.line .invalidSize 2) ∧
    decoded .srq 8 (chars [0x30, 0x31]) = some (.line .notFound 2) ∧
    decoded .srq 9 (chars [0x30, 0x0D, 0x0A]) = some (.line .ok 1) := by decide +kernel

/-- R56: with the lock free ENCODE writes no `TXQ`, and DECODE neither reads `RXQ` nor writes `SRQ`. -/
theorem test_shared_buffers_need_lock :
    part (exec .encode { withCmd [0x30#8, 0x21#8] with lockHeld := false }) State.txq = some [] ∧
    part (exec (.decode 16 .srq 8) { withWave [0x30#8, 0x0D#8, 0x0A#8] with lockHeld := false, srqLen := 3 })
      (fun t => (t.srq, t.srqLen)) = some ([], 3) ∧
    ({ withWave [0x30#8] with lockHeld := false } : State).heard = [] ∧
    ({ withCmd [0x30#8] with lockHeld := false } : State).valid .cmd = 0 := by decide +kernel

/-- R250: at power-on an operation that is a function answers its value and writes nothing. -/
theorem test_without_bus :
    part (exec .encode State.reset) State.txq = some [] ∧
    part (exec (.decode 0 .rsp 8) { State.reset with rspLen := 3 }) (fun t => (t.rspLen, t.ret)) =
      some (3, .line .notFound 0) ∧
    part (exec .cmdM State.reset) (fun t => (t.status, t.ret)) = some (.ok, .cls .meas) := by decide +kernel

/-- V50: `0+3.14` and the byte 0xFF; R130: of any byte buffer. -/
theorem test_crc16 :
    part (exec (.crc16 .rsp 6) (withLine (chars [0x30, 0x2B, 0x33, 0x2E, 0x31, 0x34]))) State.ret =
      some (.word 0xFC5A#16) ∧
    part (exec (.crc16 .rsp 1) (withLine [0xFF#8])) State.ret = some (.word 0x4040#16) ∧
    part (exec (.crc16 .cmd 1) (withCmd [0xFF#8])) State.ret = some (.word 0x4040#16) := by decide +kernel

/-- V50, V51: `OqZ`, and the bounds. -/
theorem test_crcenc :
    part (exec (.crcenc 0xFC5A#16) bus) State.ret = some (.chars (chars [0x4F, 0x71, 0x5A])) ∧
    part (exec (.crcenc 0x0FFF#16) bus) State.ret = some (.chars (chars [0x40, 0x7F, 0x7F])) := by decide +kernel

/-- V50: the three characters of 0xFC5A one by one. -/
theorem test_crc3 :
    part (exec (.crc3k0 0xF#4) bus) State.ret = some (.chars [0x4F#8]) ∧
    part (exec (.crc3k1 0x31#6) bus) State.ret = some (.chars [0x71#8]) ∧
    part (exec (.crc3k2 0x1A#6) bus) State.ret = some (.chars [0x5A#8]) := by decide +kernel

/-- V52: `0AP@` verifies, `0@@` does not, `0+` is too short. -/
theorem test_verify :
    part (exec .verify (withLine (chars [0x30, 0x41, 0x50, 0x40]))) State.ret = some (.status .ok) ∧
    part (exec .verify (withLine (chars [0x30, 0x40, 0x40]))) State.ret = some (.status .invalidChecksum) ∧
    part (exec .verify (withLine (chars [0x30, 0x2B]))) State.ret = some (.status .invalidChecksum) := by
  decide +kernel

/-- V80: the defaults, supplied values, and a second CREATE. -/
theorem test_create :
    part (exec (.create 4 0 0) State.reset) (fun t => (t.busValid, t.lineId, t.tp, t.ret)) =
      some (true, 4, ⟨12200, 8400⟩, .status .ok) ∧
    part (exec (.create 4 13000 9000) State.reset) State.tp = some ⟨13000, 9000⟩ ∧
    part (exec (.create 5 0 0) bus) (fun t => (t.lineId, t.ret)) = some (4, .status .invalidArg) := by decide +kernel

/-- R182: without a Bus, with one, and with the lock held. -/
theorem test_destroy :
    part (exec .destroy State.reset) State.ret = some (.status .invalidArg) ∧
    part (exec .destroy bus) (fun t => (t.busValid, t.ret)) = some (false, .status .ok) ∧
    exec .destroy { bus with lockHeld := true } = .refused .busInUse := ⟨by decide +kernel, by decide +kernel, rfl⟩

/-- R184, R185: granted, waiting, released. -/
theorem test_lock :
    part (exec (.lock 1) bus) (fun t => (t.lockHeld, t.lockOwner, t.lockWaiters)) = some (true, 1, []) ∧
    part (exec (.lock 1) { bus with lockHeld := true }) (fun t => (t.lockOwner, t.lockWaiters)) = some (0, [1]) := by
  decide +kernel

theorem test_unlock :
    part (exec (.unlock 1) { bus with lockHeld := true, lockOwner := 1 }) State.lockHeld = some false ∧
    exec (.unlock 0) { bus with lockHeld := true, lockOwner := 1 } = .refused .notLockOwner ∧
    exec (.unlock 0) { bus with lockHeld := true, dirMode := .receive } = .refused .lineNotRestored :=
  ⟨by decide +kernel, rfl, rfl⟩

/-- R186, R191: acknowledged, the mode is the one asked for; the bare request leaves the mode. -/
theorem test_setdir :
    part (exec (.setdir .receive) { bus with lockHeld := true, script := { bus.script with setDirs := [true] } })
      (fun t => (t.dirMode, t.ret)) = some (.receive, .ack true) ∧
    part (exec (.envSetdir .receive) { bus with lockHeld := true, script := { bus.script with setDirs := [false] } })
      (fun t => (t.dirMode, t.ret, t.envLog)) = some (.idle, .ack false, [.setDir 4 .receive false]) := by decide +kernel

/-- R189, R190: one request, one answer, and the capture in `RXQ`. -/
theorem test_environment :
    part (exec .envEmit { bus with
        lockHeld := true, dirMode := .transmit, script := { bus.script with emits := [false] } }) State.ret =
      some (.ack false) ∧
    part (exec (.envCapture 50) { bus with
        lockHeld := true, dirMode := .receive, script := { bus.script with captures := [.captured [⟨.marking, 833⟩] 40] } })
      (fun t => (t.rxq, t.ret)) = some ([⟨.marking, 833⟩], .capture (.captured [⟨.marking, 833⟩] 40)) := by
  decide +kernel

/-- V61: `0!` and a length of 16 are valid; `!`, `0M`, a length of 17 and a capacity of 0 are not. -/
theorem test_valid :
    [chars [0x30, 0x21], List.replicate 15 0x30#8 ++ [0x21#8], chars [0x21], chars [0x30, 0x4D],
        List.replicate 16 0x30#8 ++ [0x21#8]].map
      (fun cmd => part (exec (.valid { ask with cmd := cmd }) bus) State.ret) =
      [some (.bool true), some (.bool true), some (.bool false), some (.bool false), some (.bool false)] ∧
    part (exec (.valid { ask with rspCap := 0 }) bus) State.ret = some (.bool false) := by decide +kernel

/-- V60: the class of `0M!`, `0V!`, `0HA!`, `0C!`, `0D0!`, `0R5!`, `0!`. -/
theorem test_class :
    [0x4D, 0x56, 0x48, 0x43, 0x44, 0x52, 0x21].map
      (fun v => part (exec .classify (withCmd (chars [0x30, v, 0x21]))) State.ret) =
      [some (.cls .meas), some (.cls .meas), some (.cls .meas), some (.cls .other), some (.cls .data),
        some (.cls .data), some (.cls .other)] := by decide +kernel

/-- `bus` with the lock held, in `RECEIVE`, with the environment's answers. -/
def listening (cs : List Capture) : State :=
  { bus with lockHeld := true, dirMode := .receive, script := { bus.script with captures := cs } }

/-- The merged frames of a line. -/
def lineOf (cs : List Byte) : List Pulse := waveform ((cs ++ [0x0D#8, 0x0A#8]).flatMap framePulses)

/-- V70 rows 3 and 5: a blank line is read on; two of them use the budget up. -/
theorem test_readline :
    part (exec (.readline .rsp 8 1000) (listening [.captured (lineOf []) 30, .captured (lineOf [0x30#8]) 45]))
      (fun t => (t.ret, t.tRem)) = some (.line .ok 1, 925) ∧
    part (exec (.readline .rsp 8 50) (listening [.captured (lineOf []) 30, .captured (lineOf []) 20]))
      (fun t => (t.ret, t.tRem)) = some (.line .timeout 0, 0) := by decide +kernel

/-- V70 rows 8 and 10: a line too long, and an answer past the budget. -/
theorem test_readline_2 :
    part (exec (.readline .rsp 8 1000) (listening [.captured (lineOf (chars [48, 49, 50, 51, 52, 53, 54])) 90]))
      (fun t => (t.ret, t.tRem)) = some (.line .invalidSize 8, 910) ∧
    part (exec (.readline .rsp 8 50) (listening [.captured (lineOf [0x30#8]) 70])) (fun t => (t.ret, t.tRem)) =
      some (.line .ok 1, 0) := by decide +kernel

/-- V62: `00a30`, `00005`. -/
theorem test_cmd_meas :
    part (exec .cmdM (withLine (chars [0x30, 0x30, 0x61, 0x33, 0x30]))) State.status = some .invalidResponse ∧
    part (exec .cmdV (withLine (chars [0x30, 0x30, 0x30, 0x30, 0x35]))) (fun t => (t.status, t.seconds)) =
      some (.ok, 0) := by decide +kernel

/-- X10, R160: `00030`, and the service request `0` within 3000 TT; from another sensor; none. -/
theorem test_cmd_meas_wait :
    [[Capture.captured (lineOf [0x30#8]) 2999], [.captured (lineOf [0x31#8]) 10], [.timeout]].map
      (fun cs => part (exec .cmdH { listening cs with
        cmd := Memory.writeFrom [] 0 (chars [0x30, 0x48]), cmdLen := 2, rsp := Memory.writeFrom [] 0 (chars [0x30, 0x30, 0x30, 0x33]),
        rspLen := 4 }) (fun t => (t.status, t.seconds))) =
      [some (.ok, 3), some (.invalidResponse, 3), some (.notFinished, 3)] := by decide +kernel

/-- R162, V52: the checksum of `0AP@` stripped; that of `0@@` reported, the line left as it is. -/
theorem test_cmd_data :
    part (exec .cmdD { withLine (chars [0x30, 0x41, 0x50, 0x40]) with requireCrc := true })
      (fun t => (t.status, t.rspLen, Memory.slice t.rsp 0 4)) = some (.ok, 1, chars [0x30, 0x00, 0x50, 0x40]) ∧
    part (exec .cmdR { withLine (chars [0x30, 0x40, 0x40]) with requireCrc := true })
      (fun t => (t.status, t.rspLen)) = some (.invalidChecksum, 3) := by decide +kernel

/-- V60: `C` without `C_WAITS` and any other character are class `OTHER`. -/
theorem test_cmd_other :
    part (exec .cmdC (withLine [0x30#8])) (fun t => (t.ret, t.status)) = some (.cls .other, .ok) ∧
    part (exec (.cmdDefault 0x58#8) (withLine [0x30#8])) State.ret = some (.cls .other) := by decide +kernel

/-- R20: a request that VALID refuses is latched in the requester's record too. -/
theorem test_refused_record :
    part (exec (.send 1 { ask with rspCap := 0, timeout := 7 }) bus)
      (fun t => ((t.ports.map Port.req)[1]?, t.lockWaiters)) =
      some (some { ask with rspCap := 0, timeout := 7 }, []) := by decide +kernel

/-- R146, R147: an invalid request is answered at once, a valid one begins its transaction. -/
theorem test_send :
    part (exec (.send 0 { ask with rspCap := 0 }) bus) (fun t => (t.lockHeld, (t.ports.map Port.result)[0]?)) =
      some (false, some (some (.invalidArg, 0))) ∧
    part (exec (.send 1 ask) bus) (fun t => (t.seqState, t.reqId, t.cmdLen, Memory.slice t.cmd 0 2)) =
      some (SeqState.dirTx, 1, 2, chars [0x30, 0x21]) := by constructor <;> decide +kernel

/-- `bus` with a session on address `0`. -/
def bound : State := { bus with sessions := [some { addr := 0x30#8, ident := Ident.empty }] }

/-- The command a verb sends as requester 0. -/
def sent (i : Instr) : Option (List Byte) := part (exec i bound) (fun t => Memory.slice t.cmd 0 t.cmdLen)

/-- R202 to R205: `?!`, `5!`, `0!`, `?!`, `0A5!`. -/
theorem test_host_address_verbs :
    [sent (.newSession ⟨0, none, 85⟩ 0x3F#8), sent (.newSession ⟨0, none, 85⟩ 0x35#8), sent (.ackActive ⟨0, none, 85⟩ 0),
      sent (.addressQuery ⟨0, none, 85⟩), sent (.changeAddress ⟨0, none, 85⟩ 0 0x35#8)] =
      [some (chars [0x3F, 0x21]), some (chars [0x35, 0x21]), some (chars [0x30, 0x21]), some (chars [0x3F, 0x21]),
        some (chars [0x30, 0x41, 0x35, 0x21])] := by decide +kernel

/-- R206 to R209, R211: `0I!`, `0MC3!`, `0C!`, `0V!`. -/
theorem test_host_measure_verbs :
    [sent (.readIdentification ⟨0, none, 85⟩ 0), sent (.startMeasurement ⟨0, none, 85⟩ 0 true (some 3)),
      sent (.startConcurrent ⟨0, none, 85⟩ 0 false none), sent (.startVerification ⟨0, none, 85⟩ 0)] =
      [some (chars [0x30, 0x49, 0x21]), some (chars [0x30, 0x4D, 0x43, 0x33, 0x21]), some (chars [0x30, 0x43, 0x21]),
        some (chars [0x30, 0x56, 0x21])] := by decide +kernel

/-- R210, R212: `0D0!`, `0R9!`, `0IM!`, `0XY!`. -/
theorem test_host_read_verbs :
    [sent (.readData ⟨0, none, 85⟩ 0 0 true), sent (.readContinuous ⟨0, none, 85⟩ 0 9 false),
      sent (.identifyExtended ⟨0, none, 85⟩ 0 [0x4D#8]), sent (.rawExtended ⟨0, none, 85⟩ 0 (chars [0x58, 0x59]) true)] =
      [some (chars [0x30, 0x44, 0x30, 0x21]), some (chars [0x30, 0x52, 0x39, 0x21]), some (chars [0x30, 0x49, 0x4D, 0x21]),
        some (chars [0x30, 0x58, 0x59, 0x21])] := by decide +kernel

/-- R206: an index past 9 is answered without a SEND. -/
theorem test_host_index :
    part (exec (.readData ⟨0, none, 85⟩ 0 10 true) bound)
      (fun t => (t.lockHeld, (t.ports.map Port.verbResult)[0]?)) =
      some (false, some (some (.invalidArg, .nothing))) := by decide +kernel

/-! ## Witnesses: for every statement with hypotheses, a state and operands that meet them, clause by clause -/

theorem witness_DecodeEncode :
    (Instr.cmdDefault 0x41#8).WellFormed ∧ (Instr.envCapture 1).WellFormed ∧ (Instr.frame 0xFF#8).WellFormed := by decide

theorem witness_StepRunsDecoded :
    ({ bus with inputs := [.call [1, 3]] } : State).inputs = .call [1, 3] :: [] ∧ decode [1, 3] = .ok .classify ∧
    Instr.classify.WellFormed ∧ decodeTableWord 8 0x4D = some .cmdM ∧ Instr.cmdM.WellFormed ∧ bus.inputs = [] ∧
    ({ bus with inputs := [.turn] } : State).inputs = .turn :: [] ∧
    ({ bound with inputs := [.endSession 0] } : State).inputs = .endSession 0 :: [] := by decide +kernel

theorem witness_FrameRuns : (⟨.spacing, 4165⟩ : Pulse) ∈ waveform ([0x30#8].flatMap framePulses) := by decide +kernel

theorem witness_EncodeResult :
    (withCmd [0x30#8, 0x21#8]).seqState = .idle ∧ 1 < (withCmd [0x30#8, 0x21#8]).cmdLen ∧
    1 < (withCmd [0x30#8, 0x21#8]).cfg.cmdMax ∧ (withCmd [0x30#8, 0x21#8]).lockHeld = true ∧
    (withCmd [0x30#8, 0x21#8]).busValid = true ∧ bus.lockHeld = false ∧ ({ bus with seqState := .emit } : State).seqState ≠ .idle ∧
    bus.busValid = true ∧ State.reset.busValid = false := by decide +kernel

theorem witness_FrameResult : bus.busValid = true ∧ State.reset.busValid = false := by decide

/-- The capacity of `SRQ` is 8: a length of 7 has its terminator there and no `LF`, 6 both; the exits `OK`, `INVALID_SIZE` and `NOT_FOUND` are reached. -/
theorem witness_DecodeExits :
    bus.seqState = .idle ∧ 7 < bus.cfg.srqCap ∧ 6 + 1 < bus.cfg.srqCap ∧ bus.cfg.srqCap ≤ 8 ∧
    ({ bus with seqState := .rx1 } : State).seqState ≠ .idle ∧
    (withWave [0x0D#8, 0x0A#8]).decodeStatus (withWave [0x0D#8, 0x0A#8]).rxq.length .srq 8 = .ok ∧
    bus.decodeStatus 0 .srq 8 = .notFound ∧ bus.busValid = true ∧ State.reset.busValid = false ∧ bus.lockHeld = false ∧
    (withWave [0x0D#8, 0x0A#8]).lockHeld = true ∧ (withWave [0x0D#8, 0x0A#8]).busValid = true ∧
    (withWave [0x30#8]).decodeStatus (withWave [0x30#8]).rxq.length .srq 0 = .invalidSize := by decide +kernel

theorem clean_one : ¬holdsLineEnd [0x30#8] := by
  rintro ⟨k, a, b, -, h, -, -⟩
  have := (List.getElem?_eq_some_iff.1 h).1
  simp only [List.length_cons, List.length_nil] at this
  omega

/-- V31's bounds: 417 and 1249 PT show one unit, 3749 PT five (833 · 5 - 416). -/
theorem shows_bounds :
    shows ⟨.spacing, 417⟩ ⟨.spacing, 833⟩ ∧ shows ⟨.spacing, 1249⟩ ⟨.spacing, 833⟩ ∧
    shows ⟨.marking, 3749⟩ ⟨.marking, 4165⟩ ∧ shows ⟨.spacing, 7914⟩ ⟨.spacing, 12200⟩ :=
  ⟨⟨rfl, .inr ⟨1, by decide, by decide, rfl, by decide, by decide⟩⟩,
    ⟨rfl, .inr ⟨1, by decide, by decide, rfl, by decide, by decide⟩⟩,
    ⟨rfl, .inr ⟨5, by decide, by decide, rfl, by decide, by decide⟩⟩, ⟨rfl, .inl ⟨.inr (by decide), .inr (by decide)⟩⟩⟩

/-- The preamble's pulses are outside the window (15 and 10 units); `RXQ` shows the merged frames, without a line end
pulse by pulse 416 PT too short or too long. -/
theorem witness_RoundTrip :
    (withWave []).busValid = true ∧ (withWave []).lockHeld = true ∧ (withWave []).seqState = .idle ∧
    [0x30#8].length + [0x0D#8, 0x0A#8].length ≤ 3 ∧
    [0x30#8].length + [0x0D#8, 0x0A#8].length ≤ bus.cfg.srqCap ∧
    ¬holdsLineEnd [0x30#8] ∧ outsideWindow 12200 ∧ outsideWindow 8400 ∧ outsideWindow 7914 ∧
    (withWave [0x30#8, 0x0D#8, 0x0A#8]).rxq = waveform (([0x30#8] ++ [0x0D#8, 0x0A#8]).flatMap framePulses) ∧
    (withWave [0x30#8]).rxq = waveform (([0x30#8] ++ []).flatMap framePulses) ∧
    List.Forall₂ shows [⟨.spacing, 4581⟩, ⟨.marking, 1250⟩, ⟨.spacing, 2082⟩, ⟨.marking, 417⟩]
      (waveform (([0x30#8] ++ []).flatMap framePulses)) := by
  refine ⟨rfl, rfl, rfl, by decide, by decide, clean_one, .inr (by decide), .inr (by decide), .inr (by decide), by decide +kernel,
    by decide +kernel, ?_⟩
  have h : waveform (([0x30#8] ++ []).flatMap framePulses) = [⟨.spacing, 833 * 5⟩, ⟨.marking, 833 * 2⟩,
    ⟨.spacing, 833 * 2⟩, ⟨.marking, 833 * 1⟩] := by decide +kernel
  rw [h]
  refine .cons ⟨rfl, .inr ⟨5, ?_⟩⟩ (.cons ⟨rfl, .inr ⟨2, ?_⟩⟩ (.cons ⟨rfl, .inr ⟨2, ?_⟩⟩
    (.cons ⟨rfl, .inr ⟨1, ?_⟩⟩ .nil))) <;> decide

/-- V23, V24 and V26: a wrong parity unit, a spacing stop unit, and a frame too many. -/
theorem witness_BadFrames :
    (withWave []).busValid = true ∧ (withWave []).lockHeld = true ∧ (withWave []).seqState = .idle ∧
    [0x30#8].length ≤ (withWave []).cfg.srqCap ∧ ¬holdsLineEnd [0x30#8] ∧ [0x30#8].length ≤ 1 ∧
    levelBit .marking ≠ (levelBit .spacing ^^ levelBit .spacing ^^ levelBit .spacing ^^ levelBit .spacing ^^
      levelBit .marking ^^ levelBit .marking ^^ levelBit .spacing) ∧
    levelBit .spacing = (levelBit .spacing ^^ levelBit .spacing ^^ levelBit .spacing ^^ levelBit .spacing ^^
      levelBit .marking ^^ levelBit .marking ^^ levelBit .spacing) ∧ [0x30#8].length = 1 :=
  ⟨rfl, rfl, rfl, by decide, clean_one, by decide, by decide, by decide, rfl⟩

/-- Both bounds of the window. -/
theorem witness_IgnoredPulse :
    (withWave []).busValid = true ∧ (withWave []).lockHeld = true ∧ (withWave []).seqState = .idle ∧
    outsideWindow 416 ∧ outsideWindow 7914 :=
  ⟨rfl, rfl, rfl, .inl (by decide), .inr (by decide)⟩

/-- The last valid byte of each buffer: of `CMD` and `SRQ` at the capacity too, and under the lock. -/
theorem witness_Crc16Result :
    1 < (withLine (chars [0x30, 0x2B])).rspLen ∧
    (({ bus with lockHeld := true, cmdLen := 16 } : State).lockHeld = true ∧
      15 < ({ bus with lockHeld := true, cmdLen := 16 } : State).cmdLen ∧ 15 < bus.cfg.cmdMax) ∧
    ({ bus with lockHeld := true, srqLen := 8 } : State).lockHeld = true ∧
      7 < ({ bus with lockHeld := true, srqLen := 8 } : State).srqLen ∧ 7 < bus.cfg.srqCap := by decide

/-- A command of two characters, the shortest that has a second. -/
theorem witness_ClassResult :
    (withCmd (chars [0x30, 0x21])).lockHeld = true ∧ 2 ≤ (withCmd (chars [0x30, 0x21])).cmdLen ∧
    2 ≤ (withCmd (chars [0x30, 0x21])).cfg.cmdMax := by decide +kernel

/-- Lengths 2 and 3. -/
theorem witness_VerifyResult :
    (withLine (chars [0x30, 0x2B])).rspLen < 3 ∧ 3 ≤ (withLine (chars [0x40, 0x40, 0x40])).rspLen ∧
    (withLine (chars [0x40, 0x40, 0x40])).verifies = true ∧ (withLine (chars [0x30, 0x40, 0x40])).verifies = false := by
  decide +kernel

/-- `0AP@`; one bit of the payload, the highest bit of the last checksum character, complemented. -/
theorem witness_ChecksumLaws :
    (withLine (chars [0x30, 0x41, 0x50, 0x40])).rspLine = [0x30#8] ++ crcChars (crcOf [0x30#8]) ∧
    (withLine (chars [0x31, 0x41, 0x50, 0x40])).rspLine =
      [0x30#8].set 0 (0x30#8 ^^^ (1#8 <<< 0)) ++ crcChars (crcOf [0x30#8]) ∧
    (withLine (chars [0x30, 0x41, 0x50, 0xC0])).rspLine =
      [0x30#8] ++ (crcChars (crcOf [0x30#8])).set 2 (0x40#8 ^^^ (1#8 <<< 7)) ∧
    (crcChars (crcOf [0x30#8]))[2]? = some 0x40#8 := by decide +kernel

theorem witness_CreateResult : bus.busValid = true ∧ State.reset.busValid = false := by decide

theorem witness_DestroyResult :
    State.reset.busValid = false ∧ bus.busValid = true ∧ bus.lockHeld = false ∧ bus.lockWaiters = [] ∧
    ({ bus with lockHeld := true } : State).lockHeld = true ∧ ({ bus with lockWaiters := [1] } : State).lockWaiters ≠ [] := by
  decide

theorem witness_LockResult :
    bus.busValid = true ∧ bus.ports[1]? = some Port.reset ∧ Port.reset.act = .free ∧ bus.lockHeld = false ∧
    bus.lockWaiters = [] ∧ ({ bus with lockHeld := true } : State).lockHeld = true ∧
    (∀ w ∈ ({ bus with lockWaiters := [0] } : State).lockWaiters, w < bus.ports.length) := by decide

theorem witness_UnlockResult :
    bus.busValid = true ∧ bus.ports[0]? = some Port.reset ∧ ({ bus with lockHeld := true } : State).lockOwner = 0 ∧
    bus.seqState = .idle ∧ ¬(bus.lockHeld = true ∧ bus.lockOwner = 0 ∧ bus.seqState = .idle) ∧ bus.restored ∧
    ({ bus with dirMode := .receive, dirFailed := some .idle } : State).restored ∧
    ¬({ bus with dirFailed := some .receive } : State).restored := by decide

/-- One environment answer of each kind, the lock held or free. -/
theorem witness_SetdirResult :
    bus.busValid = true ∧ bus.seqState = .idle ∧ bus.lockHeld = false ∧
    ({ bus with lockHeld := true, script := { bus.script with setDirs := [true] } } : State).setDirAnswer = true := by
  decide +kernel

theorem witness_EnvironmentRequests :
    ({ listening [] with dirMode := .transmit } : State).dirMode = .transmit ∧ (listening []).lockHeld = true ∧
    bus.lockHeld = false ∧ (listening []).dirMode = .receive ∧
    (listening [.timeout]).captureAnswer 1 = .timeout ∧ ({ bus with lockHeld := true } : State).lockHeld = true ∧
    bus.busValid = true ∧ bus.seqState = .idle := by decide +kernel

/-- Two requesters wait; the script chooses the second, the last index there is. -/
theorem witness_GrantChoice :
    let s : State := { bus with lockWaiters := [0, 1], script := { bus.script with grants := [1] } }
    s.inputs = [] ∧ s.seqState = .idle ∧ s.lockHeld = false ∧ s.lockWaiters ≠ [] ∧
    (∀ w ∈ s.lockWaiters, w < s.ports.length) ∧ 2 ≤ s.lockWaiters.length ∧ s.lockWaiters[1]? = some 1 ∧
    s.script.grants = 1 :: [] := by decide

theorem ask_accepted : bus.Accepts ask :=
  ⟨rfl, by decide, by decide, by decide, ⟨0x30#8, rfl, .inl (by decide)⟩, rfl⟩

/-- The longest command is accepted, one longer is not. -/
theorem witness_ValidResult :
    bus.Accepts ask ∧ bus.Accepts { ask with cmd := List.replicate 15 0x30#8 ++ [0x21#8] } ∧
    ¬bus.Accepts { ask with cmd := List.replicate 16 0x30#8 ++ [0x21#8] } :=
  ⟨ask_accepted, ⟨rfl, by decide, by decide, by decide, ⟨0x30#8, rfl, .inl (by decide)⟩, rfl⟩,
    fun h => absurd h.upper (by decide)⟩

theorem witness_SendInvalid :
    bus.ports[0]? = some Port.reset ∧ Port.reset.act = .free ∧ ¬bus.Accepts { ask with rspCap := 0 } :=
  ⟨rfl, rfl, fun h => absurd h.buffer (by decide)⟩

theorem witness_SendRefused :
    bus.ports[2]? = none ∧ ({ Port.reset with act := .holding } : Port).act ≠ .free := by decide

theorem witness_SendValid :
    bus.ports[1]? = some Port.reset ∧ Port.reset.act = .free ∧ bus.Accepts ask ∧ bus.lockHeld = false ∧
    bus.lockWaiters = [] ∧ ({ bus with lockHeld := true } : State).lockHeld = true ∧
    (∀ w ∈ ({ bus with lockWaiters := [0] } : State).lockWaiters, w < bus.ports.length) :=
  ⟨rfl, rfl, ask_accepted, rfl, rfl, rfl, by decide⟩

theorem witness_ReadlineResult :
    (listening []).busValid = true ∧ (listening []).seqState = .idle ∧ 8 ≤ (listening []).cfg.srqCap ∧
    (listening []).lockHeld = true ∧
    (listening []).dirMode = .receive ∧ (listening [.captured [] 1]).ScriptKeepsContract := by
  refine ⟨rfl, rfl, by decide, rfl, rfl, ?_⟩
  intro ps e h
  simp only [listening, List.mem_singleton, Capture.captured.injEq] at h
  omega

/-- The status and length that a first capture comes to, at the budget 1000. -/
def taken (cap : Nat) (ps : List Pulse) : Status × Nat :=
  let s : State := { listening [.captured ps 70] with tRem := 1000 }
  (s.takenStatus .rsp cap ps, (s.takeCapture .rsp cap ps 70).rspLen)

/-- Each first answer: nothing, a failure, a line, a codec error, a blank line, an incomplete capture. -/
theorem witness_ReadlineRule :
    (listening [.timeout]).script.captures = .timeout :: [] ∧ (listening [.fail]).script.captures = .fail :: [] ∧
    (listening [.captured [] 70]).script.captures = .captured [] 70 :: [] ∧
    taken 8 (lineOf [0x30#8]) = (.ok, 1) ∧ taken 0 (lineOf [0x30#8]) = (.invalidSize, 0) ∧
    taken 8 (List.replicate 10 ⟨.spacing, 833⟩) = (.fail, 0) ∧ taken 8 (lineOf []) = (.ok, 0) ∧
    taken 8 [] = (.notFound, 0) := by decide +kernel

/-- A line of three characters, one with a letter in the field, one with 0 seconds. -/
theorem witness_MeasRows :
    bus.busValid = true ∧ bus.seqState = .idle ∧ bus.status = .ok ∧ 0x48#8 ∈ bus.cfg.hvSet ∧
    ¬4 ≤ (withLine (chars [0x30, 0x30, 0x30])).rspLen ∧
    ¬48 ≤ (Memory.read (withLine (chars [0x30, 0x20, 0x30, 0x30])).rsp 1).toNat ∧
    (4 ≤ (withLine (chars [0x30, 0x30, 0x30, 0x30])).rspLen ∧ ∀ k < 4,
      (Memory.read (withLine (chars [0x30, 0x30, 0x30, 0x30])).rsp k).toNat = 48) ∧
    (∀ v ∈ chars [0x58, 0x44, 0x52],
      v ∈ ({ bus with cfg := { bus.cfg with hvSet := chars [0x58, 0x44, 0x52] } } : State).cfg.hvSet) ∧
    ({ bus with cfg := { bus.cfg with cWaits := true } } : State).cfg.cWaits = true := by decide +kernel

/-- Seconds 001 and 999. -/
theorem witness_MeasRowsWait :
    [chars [0x30, 0x30, 0x30, 0x31], chars [0x30, 0x39, 0x39, 0x39]].map
      (fun cs => ({ withLine cs with lockHeld := true, dirMode := .receive } : State).secondsField) =
      [some 1, some 999] ∧
    ({ withLine (chars [0x30, 0x30, 0x30, 0x31]) with lockHeld := true, dirMode := .receive } : State).busValid = true ∧
    bus.seqState = .idle ∧ bus.status = .ok ∧ 1 ≤ (withCmd [0x30#8]).cmdLen ∧ 1 ≤ bus.cfg.cmdMax := by decide +kernel

theorem witness_DataRows :
    let s : State := { withLine (chars [0x30, 0x41, 0x50, 0x40]) with requireCrc := true }
    let u : State := { withLine (chars [0x30, 0x40, 0x40]) with requireCrc := true }
    s.busValid = true ∧ s.seqState = .idle ∧ s.status = .ok ∧ 0x44#8 ∉ s.cfg.hvSet ∧ 0x52#8 ∉ s.cfg.hvSet ∧ s.verifies = true ∧
    u.verifies = false ∧ bus.requireCrc = false := by decide +kernel

theorem witness_OtherRows :
    bus.seqState = .idle ∧ 0x48#8 ∉ ({ bus with cfg := { bus.cfg with hvSet := [] } } : State).cfg.hvSet ∧
    0x43#8 ∉ bus.cfg.hvSet ∧ bus.cfg.cWaits = false ∧ 0x58#8 ∉ bus.cfg.hvSet ∧ (Instr.cmdDefault 0x58#8).WellFormed ∧
    ({ bus with status := .fail } : State).status ≠ .ok ∧ State.reset.busValid = false ∧ rowOf .cmdD 0x44#8 ∧
    (withLine (chars [0x30, 0x30, 0x30, 0x31])).secondsField = some 1 ∧
    (withLine (chars [0x30, 0x30, 0x30, 0x31])).lockHeld = false ∧ classOf bus.cfg 0x4D#8 = .meas ∧
    (listening []).lockHeld = true ∧ ({ listening [] with dirMode := .transmit } : State).dirMode ≠ .receive :=
  ⟨by decide, by decide, by decide, by decide, by decide, by decide, by decide, rfl,
    .inr (.inr (.inr (.inr (.inl ⟨rfl, rfl⟩)))), by decide +kernel, rfl, by decide, rfl, by decide⟩

/-- A transaction of requester 0 in a state of the sequencer, with the environment's answers. -/
def running (q : SeqState) (dirs : List Bool) (cs : List Capture) : State :=
  { bus with
    dirMode := .receive, lockHeld := true, seqState := q, cmdLen := 2, timeout := 1000, rspCap := 85, tRem := 1000
    cmd := Memory.writeFrom [] 0 (chars [0x30, 0x21]),
    ports := [{ Port.reset with act := .sending, req := ask }, Port.reset],
    script := { bus.script with setDirs := dirs, emits := dirs, captures := cs } }

/-- Each switch and the emission, acknowledged and failed. -/
theorem witness_TransmitSteps :
    (running .dirTx [true] []).inputs = [] ∧ (running .dirTx [true] []).seqState = .dirTx ∧
    (running .dirTx [true] []).setDirAnswer = true ∧ (running .dirTx [false] []).setDirAnswer = false ∧
    (running .emit [true] []).emitAnswer = true ∧ (running .emit [false] []).emitAnswer = false ∧
    (running .dirRx [true] []).seqState = .dirRx ∧ (running .dirTx [true] []).lockHeld = true ∧
    (running .dirTx [true] []).cmdLen ≤ (running .dirTx [true] []).cfg.cmdMax := by decide +kernel

/-- The status and length that a capture in a receive phase comes to. -/
def phase (q : SeqState) (d : Dst) (cap : Nat) (ps : List Pulse) : Status × Nat :=
  let s := running q [] [.captured ps 40]
  (s.takenStatus d cap ps, (s.takeCapture d cap ps 40).len d)

theorem witness_FirstPhaseNoLine :
    (running .rx1 [] []).inputs = [] ∧ (running .rx1 [] []).seqState = .rx1 ∧ (running .rx1 [] []).tRem ≠ 0 ∧
    ({ running .rx1 [] [] with tRem := 0 } : State).tRem = 0 ∧
    (running .rx1 [] [.timeout]).captureAnswer 1000 = .timeout ∧ (running .rx1 [] [.fail]).captureAnswer 1000 = .fail ∧
    (running .rx1 [] [.captured [] 1]).captureAnswer 1000 = .captured [] 1 ∧
    phase .rx1 .rsp 85 [] = (.notFound, 0) ∧ phase .rx1 .rsp 85 (lineOf []) = (.ok, 0) ∧
    phase .rx1 .rsp 1 (lineOf [0x30#8]) = (.invalidSize, 1) ∧
    phase .rx1 .rsp 85 (List.replicate 10 ⟨.spacing, 833⟩) = (.fail, 0) := by decide +kernel

/-- The state after a first line was captured, and the command whose second character is `v`. -/
def captured (v : Byte) (crc : Bool) (cs : List Byte) : State :=
  State.takeCapture .rsp 85 (lineOf cs) 40
    { running .rx1 [] [.captured (lineOf cs) 40] with
      requireCrc := crc, cmd := Memory.writeFrom [] 0 [0x30#8, v, 0x21#8] }

/-- Each class, a good and a wrong checksum, and the three outcomes of the seconds field. -/
theorem witness_FirstPhaseLine :
    (running .rx1 [] [.captured (lineOf [0x30#8]) 40]).captureAnswer 1000 = .captured (lineOf [0x30#8]) 40 ∧
    (running .rx1 [] [.captured (lineOf [0x30#8]) 40]).takenStatus .rsp 85 (lineOf [0x30#8]) = .ok ∧
    (captured 0x21#8 false [0x30#8]).rspLen ≠ 0 ∧ (captured 0x21#8 false [0x30#8]).cmdClass = .other ∧
    (captured 0x44#8 true (chars [0x30, 0x41, 0x50, 0x40])).cmdClass = .data ∧
    verifyLine (captured 0x44#8 true (chars [0x30, 0x41, 0x50, 0x40])).rspLine = true ∧
    verifyLine (captured 0x44#8 true [0x30#8]).rspLine = false ∧ (captured 0x44#8 false [0x30#8]).requireCrc = false ∧
    (captured 0x4D#8 false [0x30#8]).cmdClass = .meas ∧ (captured 0x4D#8 false [0x30#8]).secondsField = none ∧
    (captured 0x4D#8 false (chars [0x30, 0x30, 0x30, 0x30])).secondsField = some 0 ∧
    (captured 0x4D#8 false (chars [0x30, 0x39, 0x39, 0x39])).secondsField = some 999 := by decide +kernel

theorem witness_SecondPhase :
    (running .rx2 [] []).inputs = [] ∧ (running .rx2 [] []).seqState = .rx2 ∧ (running .rx2 [] []).tRem ≠ 0 ∧
    (running .rx2 [] [.timeout]).captureAnswer 1000 = .timeout ∧ (running .rx2 [] [.fail]).captureAnswer 1000 = .fail ∧
    phase .rx2 .srq 8 [] = (.notFound, 0) ∧ phase .rx2 .srq 8 (lineOf [0x30#8]) = (.ok, 1) ∧
    phase .rx2 .srq 8 (lineOf (chars [48, 49, 50, 51, 52, 53, 54])) = (.invalidSize, 8) ∧
    ({ running .rx2 [] [] with tRem := 0 } : State).tRem = 0 ∧ 1 ≤ (running .rx2 [] []).cmdLen ∧
    (running .rx2 [] []).lockHeld = true ∧
    1 ≤ (running .rx2 [] []).cfg.cmdMax := by decide +kernel

theorem witness_RestoreStep :
    (running .restore [true] []).inputs = [] ∧ (running .restore [true] []).seqState = .restore ∧
    (running .restore [true] []).ports[(running .restore [true] []).reqId]? =
      some { Port.reset with act := .sending, req := ask } ∧
    ({ Port.reset with act := .sending, req := ask } : Port).verb = none ∧
    (running .restore [true] []).setDirAnswer = true ∧ (running .restore [false] []).endStatus = .fail := by
  decide +kernel

theorem witness_SequencerIsSend :
    (running .dirTx [] []).inputs = [] ∧ (running .dirTx [] []).seqState = .dirTx ∧ (running .dirTx [] []).status = .ok := by
  decide

theorem witness_TransactionEnds : (running .rx1 [] []).inputs = [] ∧ (running .rx1 [] []).seqState ≠ .idle := by decide

/-! ### The invariants hold of a transaction in progress, and the machine steps from there -/

theorem running_port {q : SeqState} {dirs : List Bool} {cs : List Capture} {r : Nat} {p : Port}
    (h : (running q dirs cs).ports[r]? = some p) :
    (r = 0 ∧ p = { Port.reset with act := .sending, req := ask }) ∨ (r = 1 ∧ p = Port.reset) := by
  match r with
  | 0 => exact .inl ⟨rfl, (Option.some.inj h).symm⟩
  | 1 => exact .inr ⟨rfl, (Option.some.inj h).symm⟩
  | r + 2 => cases h

theorem running_lock (q : SeqState) (hq : q ≠ .idle) (dirs : List Bool) (cs : List Capture) :
    (running q dirs cs).LockDiscipline where
  transactionHoldsLock _ := ⟨rfl, rfl⟩
  freeMeansIdle h := by cases h
  noBusNoLock h := by cases h
  waitersRising := .nil
  waitersExist r h := by cases h
  ownerExists _ := Nat.zero_lt_two
  activities r p h := by
    rcases running_port h with ⟨rfl, rfl⟩ | ⟨rfl, rfl⟩
    · exact .inr ⟨List.not_mem_nil, ⟨rfl, rfl⟩, hq, rfl⟩
    · exact ⟨List.not_mem_nil, fun h => Nat.zero_ne_one h.2⟩

/-- A transaction that has failed goes to its end, and its status stays. -/
theorem witness_FirstErrorWins :
    let s : State := { running .restore [true] [] with status := .timeout }
    s.LockDiscipline ∧ s.seqState ≠ .idle ∧ s.status ≠ .ok ∧ ∃ t, step s = .next t :=
  ⟨{ running_lock .restore (by decide) [true] [] with }, by decide, by decide, _, rfl⟩

theorem witness_BuffersStayCanonical :
    (running .rx1 [] [.captured (lineOf [0x30#8]) 40]).BuffersCanonical ∧
    ∃ t, step (running .rx1 [] [.captured (lineOf [0x30#8]) 40]) = .next t :=
  ⟨⟨by decide +kernel, by decide +kernel, by decide +kernel, by decide +kernel⟩, _, rfl⟩

theorem witness_LockDisciplineStays :
    (running .restore [true] []).LockDiscipline ∧ ∃ t, step (running .restore [true] []) = .next t :=
  ⟨running_lock .restore (by decide) [true] [], _, rfl⟩

theorem witness_DirectionDisciplineStays :
    (running .rx1 [] [.timeout]).LockDiscipline ∧ (running .rx1 [] [.timeout]).DirectionDiscipline ∧
    ∃ t, step (running .rx1 [] [.timeout]) = .next t :=
  ⟨running_lock .rx1 (by decide) [] [.timeout], ⟨(by rintro (h | h) <;> cases h), fun _ => rfl, fun _ h => by cases h⟩, _, rfl⟩

theorem witness_RequestDisciplineStays :
    (running .restore [true] []).LockDiscipline ∧ (running .restore [true] []).RequestDiscipline ∧
    ∃ t, step (running .restore [true] []) = .next t := by
  refine ⟨running_lock .restore (by decide) [true] [],
    ⟨fun _ => ⟨_, rfl, rfl, rfl, rfl, rfl, rfl, by decide⟩, ?_, ?_⟩, _, rfl⟩
  · intro p hp st len h
    obtain ⟨r, hr⟩ := List.getElem?_of_mem hp
    rcases running_port hr with ⟨-, rfl⟩ | ⟨-, rfl⟩ <;> cases h
  · intro p hp h
    obtain ⟨r, hr⟩ := List.getElem?_of_mem hp
    rcases running_port hr with ⟨-, rfl⟩ | ⟨-, rfl⟩
    · decide
    · cases h

theorem witness_StatusDisciplineStays :
    (running .restore [true] []).LockDiscipline ∧ (running .restore [true] []).StatusDiscipline ∧
    ∃ t, step (running .restore [true] []) = .next t := by
  refine ⟨running_lock .restore (by decide) [true] [], ⟨fun _ => by decide, ?_⟩, _, rfl⟩
  intro p hp st len h
  obtain ⟨r, hr⟩ := List.getElem?_of_mem hp
  rcases running_port hr with ⟨-, rfl⟩ | ⟨-, rfl⟩ <;> cases h

theorem witness_ConfigurationStays :
    bus.TimingPositive ∧ bus.busValid = true ∧ ∃ t, step bus = .next t ∧ t.busValid = true :=
  ⟨⟨by decide, fun _ => by decide⟩, rfl, _, rfl, rfl⟩

/-- The switch to `TRANSMIT` changes the mode under the lock; CREATE changes it before. -/
theorem witness_DirModeUnderLock :
    (running .dirTx [true] []).LockDiscipline ∧
    (∃ t, step (running .dirTx [true] []) = .next t ∧ t.dirMode ≠ (running .dirTx [true] []).dirMode) ∧
    ∃ t, step { State.reset with dirMode := .receive, inputs := [.call [1, 15, 4, 0, 0]] } = .next t ∧
      t.dirMode ≠ .receive :=
  ⟨running_lock .dirTx (by decide) [true] [], ⟨_, rfl, by decide +kernel⟩, ⟨_, rfl, by decide +kernel⟩⟩

/-- The end of the transaction writes the caller's buffer. -/
theorem witness_RspIsolation :
    let s : State := { running .restore [true] [] with rsp := [(0, 0x30#8)], rspLen := 1 }
    ∃ t p q, step s = .next t ∧ s.ports[0]? = some p ∧ t.ports[0]? = some q ∧ q.rsp ≠ p.rsp :=
  ⟨_, _, _, rfl, rfl, rfl, by decide +kernel⟩

theorem witness_RequestLatched :
    (running .rx1 [] [.timeout]).LockDiscipline ∧
    ∃ t p q, step (running .rx1 [] [.timeout]) = .next t ∧ (running .rx1 [] [.timeout]).ports[0]? = some p ∧
      t.ports[0]? = some q ∧ p.act = .sending :=
  ⟨running_lock .rx1 (by decide) [] [.timeout], _, _, _, rfl, rfl, rfl, rfl⟩

/-! ### The host's verbs -/

theorem witness_PlainVerbs : bus.ports[(⟨1, none, 85⟩ : Via).requester]? = some Port.reset ∧ Port.reset.act = .free := by
  decide

theorem witness_SessionVerbs :
    bound.ports[(⟨1, none, 85⟩ : Via).requester]? = some Port.reset ∧ Port.reset.act = .free ∧
    bound.session 0 = some { addr := 0x30#8, ident := Ident.empty } ∧
    (∀ q ∈ bound.ports, q.verb = none) := by decide

/-- Indices 1 and 9 are within the bounds, 10 is not. -/
theorem witness_IndexedVerbs :
    bound.ports[(⟨1, none, 85⟩ : Via).requester]? = some Port.reset ∧ Port.reset.act = .free ∧
    bound.session 0 = some { addr := 0x30#8, ident := Ident.empty } ∧
    (∀ q ∈ bound.ports, q.verb = none) ∧ 1 ≤ 1 ∧ 9 ≤ 9 ∧ 9 < 10 := by decide

/-- A verb at the end of its SEND, with the line that came. -/
def ending (v : Verb) (dirs : List Bool) (cs : List Byte) : State :=
  { running .restore dirs [] with
    rsp := Memory.writeFrom [] 0 cs, rspLen := cs.length, sessions := [some { addr := 0x30#8, ident := Ident.empty }],
    ports := [{ Port.reset with act := .sending, req := ask, verb := some v }, Port.reset] }

/-- A request without a buffer; the SEND failed; the line of another sensor; a creation's line of another sensor. -/
theorem witness_VerbErrors :
    (bound.ports[0]? = some Port.reset ∧ Port.reset.act = .free ∧ ¬bound.Accepts { ask with rspCap := 0 }) ∧
    (ending (.acknowledge 0) [false] []).inputs = [] ∧ (ending (.acknowledge 0) [false] []).seqState = .restore ∧
    (ending (.acknowledge 0) [false] []).endStatus ≠ .ok ∧ (ending (.acknowledge 0) [true] [0x31#8]).endStatus = .ok ∧
    ((ending (.acknowledge 0) [true] [0x31#8]).ports[0]?).bind Port.verb = some (.acknowledge 0) ∧
    (Verb.acknowledge 0).handle = some 0 ∧
    (Memory.slice (ending (.acknowledge 0) [true] [0x31#8]).rsp 0 1).head? ≠ some 0x30#8 ∧
    ((ending (.creation false 0x35#8) [true] [0x31#8]).ports[0]?).bind Port.verb = some (.creation false 0x35#8) :=
  ⟨⟨rfl, rfl, fun h => absurd h.buffer (by decide)⟩, by decide +kernel⟩

/-- X5's identification line, and one that is too short; a count, a count after seconds. -/
theorem witness_VerbValues :
    (ending (.measurement 0) [true] (chars [0x30, 0x30, 0x30, 0x33, 0x34])).endStatus = .ok ∧
    (ending (.measurement 0) [true] (chars [0x30, 0x30, 0x30, 0x33, 0x34])).session 0 =
      some { addr := 0x30#8, ident := Ident.empty } ∧
    (Memory.slice (ending (.measurement 0) [true] (chars [0x30, 0x30, 0x30, 0x33, 0x34])).rsp 0 5).head? = some 0x30#8 ∧
    decimalOf ((chars [0x30, 0x30, 0x30, 0x33, 0x34]).drop 4) = some 4 ∧
    secondsOf 0x30#8 0x30#8 0x33#8 = some 3 ∧ [Verb.acknowledge 0, .changeAddress 0 0x35#8, .identification 0,
      .concurrent 0, .payload 0, .passthrough 0].map Verb.handle = List.replicate 6 (some 0) ∧
    (ending (.identification 0) [true] (List.replicate 20 0x30#8)).rspLen = 20 ∧
    (ending (.identification 0) [true] (List.replicate 19 0x30#8)).rspLen = 19 := by decide +kernel

/-- X5: version 13, vendor `ACMECORP`, model `TH-200`, model version `101`, optional field `SN42`. -/
theorem test_identification :
    part (step (ending (.identification 0) [true] (chars [0x30, 0x31, 0x33, 0x41, 0x43, 0x4D, 0x45, 0x43, 0x4F, 0x52,
        0x50, 0x54, 0x48, 0x2D, 0x32, 0x30, 0x30, 0x31, 0x30, 0x31, 0x53, 0x4E, 0x34, 0x32])))
      (fun t => t.sessions.map (Option.map Session.ident)) =
      some [some
            { version := .v13, vendor := chars [0x41, 0x43, 0x4D, 0x45, 0x43, 0x4F, 0x52, 0x50],
              model := chars [0x54, 0x48, 0x2D, 0x32, 0x30, 0x30], modelVersion := chars [0x31, 0x30, 0x31],
              optionalField := chars [0x53, 0x4E, 0x34, 0x32] }] := by decide +kernel

/-- The host has memory, and has none; the address given echoes, and a query takes the one that came. -/
theorem witness_CreationEnds :
    (ending (.creation true 0x3F#8) [true] [0x31#8]).endStatus = .ok ∧
    (Memory.slice (ending (.creation true 0x3F#8) [true] [0x31#8]).rsp 0 1).head? = some 0x31#8 ∧
    ((ending (.creation true 0x3F#8) [true] [0x31#8]).ports[0]?).bind Port.verb = some (.creation true 0x3F#8) ∧
    ((ending .addressQuery [true] [0x31#8]).ports[0]?).bind Port.verb = some .addressQuery ∧
    ((ending (.creation false 0x31#8) [true] [0x31#8]).ports[0]?).bind Port.verb = some (.creation false 0x31#8) ∧
    bound.session 0 = some { addr := 0x30#8, ident := Ident.empty } ∧ bound.session 1 = none ∧
    (∀ q ∈ bound.ports, q.verb = none) ∧ (ending (.payload 0) [true] []).sessionBusy 0 = true := by decide +kernel

/-- R183, R202, R231: a session destroyed without a Bus is gone, a status is returned, and its handle is refused. -/
theorem test_end_session :
    part (step { bound with busValid := false, inputs := [.endSession 0] }) (fun t => (t.sessions, t.ret)) =
      some ([none], .status .ok) ∧
    exec (.ackActive ⟨0, none, 85⟩ 0) { bound with sessions := [none] } = .refused .noSuchSession :=
  ⟨by decide +kernel, rfl⟩

end Sys2Proof.Tests
end

section
/-! DECODE and a pulse outside the window (R107): under the lock a call is a function of the pulses in `RXQ`, which the ignored
pulse does not change (`decodePulses_ignored`), and nothing else of the next state depends on `RXQ`. -/

namespace Sys2Proof.Machine

/-- DECODE on a Bus and under the lock has its whole effect (R56, R105). -/
theorem exec_decode_of_lock {s : State} (hb : s.busValid = true) (hl : s.lockHeld = true) (hq : s.seqState = .idle)
    (n : Nat) (d : Dst) (cap : Nat) :
    exec (.decode n d cap) s = .next { s.decodeInto n d cap with
      ret := .line (s.decodeRun n d cap).2 ((s.decodeRun n d cap).1.len (s.decodeRun n d cap).2) } := by
  change execDecode n d cap s = _
  rw [execDecode, if_neg (not_not_intro hq)]
  dsimp only
  rw [State.underLock_of_lock hb hl, State.decodeStatus, State.decodeInto_len]

/-- Under the lock DECODE of all of `RXQ` is DECODE of those pulses, by a decoder that does not depend on `RXQ`. -/
theorem State.decodeRun_rxq {s : State} (hl : s.lockHeld = true) (ps : List Pulse) (d : Dst) (cap : Nat) :
    State.decodeRun { s with rxq := ps } ps.length d cap = decodePulses ps cap (s.decoderFor d cap) := by
  have hheard : State.pulses { s with rxq := ps } ps.length = ps := by
    rw [State.pulses_valid (s := { s with rxq := ps }) hl le_rfl, List.take_length]
  have hdec : State.decoderFor { s with rxq := ps } d cap = s.decoderFor d cap := by cases d <;> rfl
  rw [State.decodeRun, hheard, hdec]

/-- The state after DECODE depends on `RXQ` through what DECODE comes to alone. -/
theorem State.decodeInto_eq_of_decodeRun_eq {s : State} {ps qs : List Pulse} {m n : Nat} {d : Dst} {cap : Nat}
    (h : State.decodeRun { s with rxq := ps } m d cap = State.decodeRun { s with rxq := qs } n d cap) :
    State.decodeInto m d cap { s with rxq := ps } =
      { State.decodeInto n d cap { s with rxq := qs } with rxq := ps } := by
  unfold State.decodeInto
  rw [h]
  cases d <;> rfl

/-- Settles O13: the two calls come to the same (`decodePulses_ignored`), so their next states differ in `RXQ` alone. -/
theorem ignoredPulse : Obligations.IgnoredPulse := by
  intro ps qs p cap d s hb hl hq hp
  have hrun : State.decodeRun { s with rxq := ps ++ p :: qs } (ps ++ p :: qs).length d cap =
      State.decodeRun { s with rxq := ps ++ qs } (ps ++ qs).length d cap := by
    have hout : p.dur < 417 ∨ 7913 < p.dur := by unfold outsideWindow at hp; omega
    rw [State.decodeRun_rxq hl, State.decodeRun_rxq hl, decodePulses_ignored ps qs hout]
  refine ⟨_, _, exec_decode_of_lock (s := { s with rxq := ps ++ qs }) hb hl hq _ d cap,
    exec_decode_of_lock (s := { s with rxq := ps ++ p :: qs }) hb hl hq _ d cap, ?_⟩
  rw [State.decodeInto_eq_of_decodeRun_eq hrun, hrun]

end Sys2Proof.Machine
end

section
/-! A SEND that VALID refuses (R146): the five conjuncts of VALID are `State.Accepts` (`validRequest_iff`), and a call answered
at once changes the caller's own port alone (`State.latch_deliver`). -/

namespace Sys2Proof.Machine

/-! ### VALID's conjuncts -/

/-- The `addr` set (R61) by the numbers of its characters. -/
theorem isAddress_iff (b : Byte) : isAddress b = true ↔
    (48 ≤ b.toNat ∧ b.toNat ≤ 57) ∨ (65 ≤ b.toNat ∧ b.toNat ≤ 90) ∨ (97 ≤ b.toNat ∧ b.toNat ≤ 122) ∨ b.toNat = 63 := by
  have hquery : b = chQuery ↔ b.toNat = 63 := BitVec.toNat_inj.symm
  simp only [isAddress, isDigit, Bool.or_eq_true, decide_eq_true_eq, hquery, or_assoc]

/-- The first character as VALID reads it: of a command that has one, its head. -/
theorem head?_eq_some_getD {cs : List Byte} (h : cs ≠ []) (d : Byte) : cs.head? = some (cs.getD 0 d) := by
  cases cs with
  | nil => exact absurd rfl h
  | cons c cs => rfl

/-- The last character as VALID reads it: of a command that has one, its last. -/
theorem getLast?_eq_some_getD {cs : List Byte} (h : cs ≠ []) (d : Byte) :
    cs.getLast? = some (cs.getD (cs.length - 1) d) := by
  have hlt : cs.length - 1 < cs.length := Nat.sub_one_lt (List.length_pos_iff.2 h).ne'
  rw [List.getLast?_eq_getElem?, List.getD_eq_getElem _ _ hlt, List.getElem?_eq_getElem hlt]

/-- VALID (R146) is exactly the five conjuncts of `State.Accepts`. -/
theorem validRequest_iff (s : State) (q : Request) : validRequest s.busValid s.cfg q = true ↔ s.Accepts q := by
  simp only [validRequest, Bool.and_eq_true, decide_eq_true_eq, isAddress_iff]
  constructor
  · rintro ⟨⟨⟨⟨hbus, hbuf⟩, hlow, hup⟩, hfirst⟩, hlast⟩
    have hne : q.cmd ≠ [] := List.length_pos_iff.1 (Nat.lt_of_lt_of_le Nat.zero_lt_two hlow)
    exact ⟨hbus, hbuf, hlow, hup, ⟨_, head?_eq_some_getD hne chNul, hfirst⟩,
      (getLast?_eq_some_getD hne chNul).trans (congrArg some hlast)⟩
  · rintro ⟨hbus, hbuf, hlow, hup, ⟨a, ha, hfirst⟩, hlast⟩
    have hne : q.cmd ≠ [] := List.length_pos_iff.1 (Nat.lt_of_lt_of_le Nat.zero_lt_two hlow)
    rw [head?_eq_some_getD hne chNul, Option.some.injEq] at ha
    rw [getLast?_eq_some_getD hne chNul, Option.some.injEq] at hlast
    exact ⟨⟨⟨⟨hbus, hbuf⟩, hlow, hup⟩, ha ▸ hfirst⟩, hlast⟩

/-! ### A call answered at once -/

/-- An update of an existing port puts the updated port in its place. -/
theorem modify_eq_set {ps : List Port} {r : Nat} {p : Port} (h : ps[r]? = some p) (f : Port → Port) :
    ps.modify r f = ps.set r (f p) := by
  rw [List.modify_eq_set_getElem?, h]
  rfl

/-- A record latched and answered at once (R20, R146): the caller's port alone changes. -/
theorem State.latch_deliver {s : State} {r : Nat} {p : Port} (hp : s.ports[r]? = some p) (req : Request)
    (v : Option Verb) (st : Status) (len : Nat) :
    (s.latch r req v).deliver r st len = { s with
      ports := s.ports.set r
        { p with act := .free, req := req, result := some (st, len), verb := v, verbResult := none } } := by
  have hlt : r < s.ports.length := (List.getElem?_eq_some_iff.1 hp).1
  unfold State.latch State.deliver
  dsimp only
  rw [modify_eq_set hp, modify_eq_set (List.getElem?_set_self hlt), List.set_set]

/-- A call that no verb waits for ends with nothing more to do. -/
theorem State.finishCall_of_no_verb {s : State} {r : Nat} {p : Port} (hp : s.ports[r]? = some p) (hv : p.verb = none)
    (st : Status) (len : Nat) : s.finishCall r st len = s := by
  simp only [State.finishCall, hp, hv]

/-- A free requester's SEND is its call (R183). -/
theorem exec_send_of_free {s : State} {r : Nat} {p : Port} (hp : s.ports[r]? = some p) (ha : p.act = .free)
    (req : Request) : exec (.send r req) s = .next (s.sendBy r req none) := by
  change execSend r req s = _
  simp only [execSend, hp, ha, ne_eq, not_true_eq_false, if_false]

/-- Settles O27: VALID's refusal takes the first case of `State.sendBy_cases`, which is a record latched and answered. -/
theorem sendInvalid : Obligations.SendInvalid := by
  intro r req p s hp ha hna
  have hinvalid : validRequest s.busValid s.cfg req = false :=
    Bool.eq_false_iff.2 fun h => hna ((validRequest_iff s req).1 h)
  have hlt : r < s.ports.length := (List.getElem?_eq_some_iff.1 hp).1
  rw [exec_send_of_free hp ha]
  rcases State.sendBy_cases hp req none with ⟨-, hsend⟩ | ⟨hvalid, -⟩
  · rw [hsend, State.latch_deliver hp, State.finishCall_of_no_verb (List.getElem?_set_self hlt) rfl, ha]
  · rw [hinvalid] at hvalid
    cases hvalid

end Sys2Proof.Machine
end

section
/-! The sequencer's transmission (R148 to R150): a step with no call pending is the row of R166 for the sequencer's state, and
each of the three rows is one request to the environment with two outcomes, said by one equation per outcome. -/

namespace Sys2Proof.Machine

/-! ### A turn of the sequencer -/

/-- With no call pending the sequencer moves (R166). -/
theorem step_of_no_inputs {s : State} (h : s.inputs = []) : step s = .next s.sequence := by
  rw [step, State.move, h]

theorem State.sequence_of_dirTx {s : State} (h : s.seqState = .dirTx) : s.sequence = s.stepDirTx := by
  rw [State.sequence, h]

theorem State.sequence_of_emit {s : State} (h : s.seqState = .emit) : s.sequence = s.stepEmit := by
  rw [State.sequence, h]

theorem State.sequence_of_dirRx {s : State} (h : s.seqState = .dirRx) : s.sequence = s.stepDirRx := by
  rw [State.sequence, h]

theorem State.sequence_of_rx1 {s : State} (h : s.seqState = .rx1) : s.sequence = s.stepRx1 := by
  rw [State.sequence, h]

/-- The error exit (R236) by the first-error rule (R169). -/
theorem State.raise_eq (st : Status) (s : State) :
    s.raise st = { s with status := firstError s.status st, seqState := .restore } := rfl

/-! ### The three rows, acknowledged and failed -/

theorem State.stepDirTx_of_ack {s : State} (h : s.setDirAnswer = true) :
    s.stepDirTx = { (s.setDir .transmit).encodeCommand with seqState := .emit } := if_pos h

theorem State.stepDirTx_of_fail {s : State} (h : s.setDirAnswer = false) :
    s.stepDirTx = (s.setDir .transmit).raise .fail := if_neg (by simp [h])

theorem State.stepEmit_of_ack {s : State} (h : s.emitAnswer = true) :
    s.stepEmit = { s.envEmit with seqState := .dirRx } := if_pos h

theorem State.stepEmit_of_fail {s : State} (h : s.emitAnswer = false) : s.stepEmit = s.envEmit.raise .fail :=
  if_neg (by simp [h])

theorem State.stepDirRx_of_ack {s : State} (h : s.setDirAnswer = true) :
    s.stepDirRx = { s.setDir .receive with seqState := .rx1, tRem := s.timeout } := if_pos h

theorem State.stepDirRx_of_fail {s : State} (h : s.setDirAnswer = false) :
    s.stepDirRx = (s.setDir .receive).raise .fail := if_neg (by simp [h])

/-- A switch that the environment acknowledges establishes the mode (R186). -/
theorem State.setDir_dirMode_of_ack {s : State} (h : s.setDirAnswer = true) (m : Dir) : (s.setDir m).dirMode = m :=
  if_pos h

/-- Under the lock ENCODE of a command within `CMD_MAX` is ENCODE of the command in `CMD` (R90, R56). -/
theorem State.encoded_of_lock {s : State} (hl : s.lockHeld = true) (hc : s.cmdLen ≤ s.cfg.cmdMax) :
    s.encoded = encodePulses s.tp (Memory.slice s.cmd 0 s.cmdLen) := by
  have hvalid : s.cmdLen ≤ s.valid .cmd := by rw [State.valid_cmd hl, min_eq_left hc]
  rw [State.encoded, State.bytes_valid hvalid, State.buf]

/-- Settles O37: each row in its two outcomes, acknowledged and failed. -/
theorem transmitSteps : Obligations.TransmitSteps := by
  intro s hi
  rw [step_of_no_inputs hi]
  refine ⟨fun hq => ?dirTx, fun hq => ?emit, fun hq => ?dirRx⟩
  case dirTx =>
    rw [State.sequence_of_dirTx hq]
    rcases Bool.eq_false_or_eq_true s.setDirAnswer with ha | ha
    · rw [State.stepDirTx_of_ack ha]
      exact ⟨_, rfl, rfl, fun _ => ⟨rfl, State.setDir_dirMode_of_ack ha _, rfl,
        State.encoded_of_lock (s := s.setDir .transmit)⟩, fun hn => (nomatch ha.symm.trans hn)⟩
    · rw [State.stepDirTx_of_fail ha]
      exact ⟨_, rfl, rfl, fun hn => (nomatch ha.symm.trans hn), fun _ => ⟨rfl, rfl, rfl⟩⟩
  case emit =>
    rw [State.sequence_of_emit hq]
    rcases Bool.eq_false_or_eq_true s.emitAnswer with ha | ha
    · rw [State.stepEmit_of_ack ha, State.envEmit, ha]
      rfl
    · rw [State.stepEmit_of_fail ha, State.raise_eq, State.envEmit, ha]
      rfl
  case dirRx =>
    rw [State.sequence_of_dirRx hq]
    rcases Bool.eq_false_or_eq_true s.setDirAnswer with ha | ha
    · rw [State.stepDirRx_of_ack ha]
      exact ⟨_, rfl, rfl, fun _ => ⟨rfl, State.setDir_dirMode_of_ack ha _, rfl, rfl⟩,
        fun hn => (nomatch ha.symm.trans hn)⟩
    · rw [State.stepDirRx_of_fail ha]
      exact ⟨_, rfl, rfl, fun hn => (nomatch ha.symm.trans hn), fun _ => ⟨rfl, rfl, rfl⟩⟩

end Sys2Proof.Machine
end

section
/-! The first receive phase where a line comes (R156 to R162): such a turn is the dispatch on the line (`State.stepRx1_of_line`),
and the dispatch is one equation per row of R166. -/

namespace Sys2Proof.Machine

/-! ### The turn that takes the line -/

/-- Reading a line leaves the transaction's status alone (R169: only an error is recorded). -/
theorem State.takeCapture_status (d : Dst) (cap : Nat) (ps : List Pulse) (elapsed : Nat) (s : State) :
    (s.takeCapture d cap ps elapsed).status = s.status := by
  rw [State.takeCapture, State.decodeInto_status, State.envCapture_status]

/-- A turn of READLINE whose capture holds a line that is not blank ends the loop with `OK` (R151). -/
theorem State.readTurn_of_line {d : Dst} {cap : Nat} {s : State} {ps : List Pulse} {elapsed : Nat} (h0 : s.tRem ≠ 0)
    (hc : s.captureAnswer s.tRem = .captured ps elapsed) (hst : s.takenStatus d cap ps = .ok)
    (hlen : (s.takeCapture d cap ps elapsed).len d ≠ 0) :
    s.readTurn d cap = (some .ok, s.takeCapture d cap ps elapsed) := by
  simp only [State.readTurn, if_neg h0, hc, hst, lineStatus, if_neg hlen]

/-- The first receive phase with a line dispatches on it (R156). -/
theorem State.stepRx1_of_line {s : State} {ps : List Pulse} {elapsed : Nat} (h0 : s.tRem ≠ 0)
    (hc : s.captureAnswer s.tRem = .captured ps elapsed) (hst : s.takenStatus .rsp s.rspCap ps = .ok)
    (hlen : (s.takeCapture .rsp s.rspCap ps elapsed).rspLen ≠ 0) :
    s.stepRx1 = (s.takeCapture .rsp s.rspCap ps elapsed).dispatchFirst := by
  rw [State.stepRx1, State.readTurn_of_line h0 hc hst hlen]

/-! ### The dispatch, row by row -/

section
variable {s : State}

theorem State.dispatchFirst_of_other (hc : s.cmdClass = .other) : s.dispatchFirst = s.toRestore := by
  rw [State.dispatchFirst, hc]

theorem State.dispatchFirst_of_data_unchecked (hc : s.cmdClass = .data) (hr : s.requireCrc = false) :
    s.dispatchFirst = s.toRestore := by
  simp only [State.dispatchFirst, hc, hr, Bool.false_eq_true, if_false]

theorem State.dispatchFirst_of_data_verified (hc : s.cmdClass = .data) (hr : s.requireCrc = true)
    (hv : s.verifies = true) : s.dispatchFirst = s.afterVerify.strip.toRestore := by
  simp only [State.dispatchFirst, hc, hr, hv, if_true]

theorem State.dispatchFirst_of_data_corrupt (hc : s.cmdClass = .data) (hr : s.requireCrc = true)
    (hv : s.verifies = false) : s.dispatchFirst = s.afterVerify.raise .invalidChecksum := by
  simp only [State.dispatchFirst, hc, hr, hv, Bool.false_eq_true, if_true, if_false]

theorem State.dispatchFirst_of_meas_malformed (hc : s.cmdClass = .meas) (hf : s.secondsField = none) :
    s.dispatchFirst = s.raise .invalidResponse := by
  simp only [State.dispatchFirst, hc, hf]

theorem State.dispatchFirst_of_meas_ready (hc : s.cmdClass = .meas) (hf : s.secondsField = some 0) :
    s.dispatchFirst = { s with seconds := 0, seqState := .restore } := by
  simp only [State.dispatchFirst, hc, hf]

theorem State.dispatchFirst_of_meas_waiting {n : Nat} (hc : s.cmdClass = .meas) (hf : s.secondsField = some n)
    (hn : 0 < n) : s.dispatchFirst = { s with seconds := n, tRem := n * 1000, seqState := .rx2 } := by
  obtain ⟨k, rfl⟩ := Nat.exists_eq_add_of_lt hn
  rw [Nat.zero_add] at hf ⊢
  simp only [State.dispatchFirst, hc, hf]

end

/-- Settles O39: the turn is the dispatch on the line it took, and the status before it is still the transaction's. -/
theorem firstPhaseLine : Obligations.FirstPhaseLine := by
  intro s ps elapsed hi hq h0 hc hst u hlen
  have hstep : step s = .next u.dispatchFirst := by
    rw [step_of_no_inputs hi, State.sequence_of_rx1 hq, State.stepRx1_of_line h0 hc hst hlen]
  have hstatus : s.status = u.status := (State.takeCapture_status ..).symm
  rw [hstep, hstatus]
  refine ⟨fun hcl => ?other, fun hcl hr => ?unchecked, fun hcl hr hv => ?verified, fun hcl hr hv => ?corrupt,
    fun hcl hf => ?malformed, fun hcl hf => ?ready, fun n hcl hf hn => ?waiting⟩
  case other => rw [State.dispatchFirst_of_other hcl, State.toRestore]
  case unchecked => rw [State.dispatchFirst_of_data_unchecked hcl hr, State.toRestore]
  case verified => exact ⟨_, congrArg _ (State.dispatchFirst_of_data_verified hcl hr hv)⟩
  case corrupt => exact ⟨_, congrArg _ (State.dispatchFirst_of_data_corrupt hcl hr hv)⟩
  case malformed => rw [State.dispatchFirst_of_meas_malformed hcl hf, State.raise_eq]
  case ready => rw [State.dispatchFirst_of_meas_ready hcl hf]
  case waiting => rw [State.dispatchFirst_of_meas_waiting hcl hf hn]

end Sys2Proof.Machine
end

section
/-! The facts that are checked character by character, over every value of a field of four to ten bits, so that no later proof
enumerates: the ten units of a frame and its waveform, the word that holds them, and the checksum characters. -/

namespace Sys2Proof.Machine

-- As the tests above, these sections are elaborated in order, which keeps the number of threads, and so the memory, small.
set_option Elab.async false

/-! ### A frame's pulses (R62, R92, R95) -/

/-- A frame's merged pulses present its ten units (R108). -/
theorem unitsOf_waveform_frame : ∀ c : BitVec 8, unitsOf (waveform (framePulses c)) = frameLevels c := by decide

/-- A frame's merged pulses last 1 to 9 units (R82). -/
theorem waveform_frame_dur : ∀ c : BitVec 8, ∀ p ∈ waveform (framePulses c),
    p.dur = 833 * (p.dur / 833) ∧ 1 ≤ p.dur / 833 ∧ p.dur / 833 ≤ 9 := by decide +kernel

/-- Bit 7 is not on the wire (R41). -/
theorem framePulses_bit7 : ∀ c : BitVec 8, framePulses (c ^^^ 0x80#8) = framePulses c := by decide +kernel

/-- The parity flag counts the zero data bits (R64). -/
theorem txParity_eq_count : ∀ c : BitVec 8,
    txParity c = decide (((List.range 7).countP (fun k => !c.getLsbD k)) % 2 = 1) := by decide

/-! ### A frame's word (R62 to R64) -/

/-- The ten units of a frame word: start, complemented data bits lowest first, their exclusive or, stop. -/
theorem frameWord_bits : ∀ c : BitVec 8, (frameWord c).getLsbD 9 = true ∧
    (∀ k < 7, (frameWord c).getLsbD (8 - k) = !c.getLsbD k) ∧
    (frameWord c).getLsbD 1 = ((frameWord c).getLsbD 2 ^^ (frameWord c).getLsbD 3 ^^ (frameWord c).getLsbD 4 ^^
      (frameWord c).getLsbD 5 ^^ (frameWord c).getLsbD 6 ^^ (frameWord c).getLsbD 7 ^^ (frameWord c).getLsbD 8) ∧
    (frameWord c).getLsbD 0 = false := by decide +kernel

/-- The character of a frame word is the one it was made of, bit 7 apart. -/
theorem frameChar_frameWord : ∀ c : BitVec 8, c.getLsbD 7 = false → frameChar (frameWord c) = c := by decide +kernel

theorem frameChar_bit7 : ∀ v : BitVec 10, (frameChar v).getLsbD 7 = false := by decide +kernel

/-! ### Checksum characters (R70) -/

theorem decode_crc3k0 : ∀ f : BitVec 4, decode (encode (.crc3k0 f)) = .ok (.crc3k0 f) := by decide

theorem decode_crc3k1 : ∀ f : BitVec 6, decode (encode (.crc3k1 f)) = .ok (.crc3k1 f) := by decide

theorem decode_crc3k2 : ∀ f : BitVec 6, decode (encode (.crc3k2 f)) = .ok (.crc3k2 f) := by decide

end Sys2Proof.Machine
end

section
/-! Decoding (R80): each kind of field comes back from its code, a frame word is one of the words of `frameWord`, and the two
together give the operation back from its packet. -/

namespace Sys2Proof.Machine

set_option Elab.async false

/-! ### Fields -/

@[simp] theorem boolField_toNat (b : Bool) : boolField b.toNat = some b := by cases b <;> rfl

@[simp] theorem byteField_toNat (b : Byte) : byteField b.toNat = some b := by
  rw [byteField, if_pos b.isLt, BitVec.ofNat_toNat, BitVec.setWidth_eq]

@[simp] theorem bytesField_bytesCode (bs : List Byte) : bytesField (bytesCode bs) = some bs := by
  induction bs with
  | nil => rfl
  | cons b bs ih =>
    rw [bytesCode] at ih ⊢
    simp only [List.map_cons, bytesField, byteField_toNat, ih]

@[simp] theorem optionField_optionCode (o : Option Nat) : optionField (optionCode o) = o := by cases o <;> rfl

@[simp] theorem dirField_code (m : Dir) : dirField m.code = some m := by cases m <;> rfl

@[simp] theorem bufField_code (b : Buf) : bufField b.code = some b := by cases b <;> rfl

@[simp] theorem dstField_code (d : Dst) : dstField d.code = some d := by cases d <;> rfl

@[simp] theorem requestFields_code (q : Request) : requestFields q.code = some q := by
  simp only [Request.code, requestFields, boolField_toNat, bytesField_bytesCode]

/-- A HOST row's packet decodes through its row's operands (R80, R200). -/
theorem decode_verbPacket {row : Nat} (h30 : 30 ≤ row) (h42 : row < 42) {via : Via} {fs : List Nat} {i : Instr}
    (h : verbFields row via fs = some i) : decode (verbPacket row via fs) = .ok i := by
  simp only [verbPacket, decode, decodeOperation, if_neg (Nat.not_lt.2 h30), if_pos h42, optionField_optionCode, h]

/-- A block row's packet decodes through its row's operands (R80). -/
theorem decode_operation {row : Nat} (h30 : row < 30) {fs : List Nat} {i : Instr} (h : operationFields row fs = some i) :
    decode (1 :: row :: fs) = .ok i := by
  simp only [decode, decodeOperation, if_pos h30, h]

/-! ### Frame words (R62 to R64) -/

/-- A word whose units are those of a character is that character's word. -/
theorem eq_frameWord_of_bits {v : BitVec 10} {c : Byte} (h9 : v.getLsbD 9 = true)
    (hdata : ∀ k < 7, v.getLsbD (8 - k) = !c.getLsbD k)
    (hpar : v.getLsbD 1 = (v.getLsbD 2 ^^ v.getLsbD 3 ^^ v.getLsbD 4 ^^ v.getLsbD 5 ^^ v.getLsbD 6 ^^ v.getLsbD 7 ^^
      v.getLsbD 8)) (h0 : v.getLsbD 0 = false) : v = frameWord c := by
  obtain ⟨g9, gdata, gpar, g0⟩ := frameWord_bits c
  have hunit : ∀ i, 2 ≤ i → i ≤ 8 → v.getLsbD i = (frameWord c).getLsbD i := fun i h2 h8 => by
    have hk : 8 - (8 - i) = i := by omega
    rw [← hk, hdata (8 - i) (by omega), gdata (8 - i) (by omega)]
  apply BitVec.eq_of_getLsbD_eq
  intro i hi
  by_cases hmid : 2 ≤ i ∧ i ≤ 8
  · exact hunit i hmid.1 hmid.2
  · obtain rfl | rfl | rfl : i = 0 ∨ i = 1 ∨ i = 9 := by omega
    · rw [h0, g0]
    · rw [hpar, gpar, hunit 2 (by omega) (by omega), hunit 3 (by omega) (by omega), hunit 4 (by omega) (by omega),
        hunit 5 (by omega) (by omega), hunit 6 (by omega) (by omega), hunit 7 (by omega) (by omega),
        hunit 8 (by omega) (by omega)]
    · rw [h9, g9]

/-- The words the FRAME row decodes are the words of the seven-bit characters. -/
theorem decodeFrameWord_ok_iff (w : Nat) (i : Instr) : decodeFrameWord w = .ok i ↔
    ∃ c : Byte, i = .frame c ∧ c.getLsbD 7 = false ∧ w = (frameWord c).toNat := by
  constructor
  · intro h
    unfold decodeFrameWord at h
    split at h
    · next hw =>
      dsimp only at h
      split at h
      · split at h
        · next hv =>
          refine ⟨_, (Except.ok.inj h).symm, frameChar_bit7 _, ?_⟩
          rw [hv, BitVec.toNat_ofNat, Nat.mod_eq_of_lt hw]
        · cases h
      · cases h
    · cases h
  · rintro ⟨c, rfl, h7, rfl⟩
    obtain ⟨h9, -, -, h0⟩ := frameWord_bits c
    have hv : BitVec.ofNat 10 (frameWord c).toNat = frameWord c := by
      rw [BitVec.ofNat_toNat, BitVec.setWidth_eq]
    have hlt : (frameWord c).toNat < 1024 := (frameWord c).isLt
    simp only [decodeFrameWord, if_pos hlt, hv, h9, h0, frameChar_frameWord c h7, Bool.not_false, Bool.and_self, if_true]

/-! ### Characters (R71) -/

/-- A character without a row of its own is the default row's (R80). -/
theorem decodeVerb_of_not_mem {v : Byte} (h : v ∉ verbsWithRow) : decodeVerb v = .cmdDefault v := by
  simp only [verbsWithRow, List.mem_cons, List.not_mem_nil, or_false, not_or] at h
  obtain ⟨hM, hV, hH, hC, hD, hR⟩ := h
  simp only [decodeVerb, hM, hV, hH, hC, hD, hR, if_false]

/-! ### The statements -/

/-- Settles O1: every row's operands come back from their fields, a frame from its word and a checksum character from its
position. -/
theorem decodeEncode : Obligations.DecodeEncode := by
  intro i hi
  cases i with
  | send r q => exact decode_operation (by decide) (by simp [operationFields])
  | valid q => exact decode_operation (by decide) (by simp [operationFields])
  | readline d cap budget => exact decode_operation (by decide) (by simp [operationFields])
  | frame c =>
    cases hc : c.msb with
    | true =>
      rw [encode, if_pos hc]
      exact decode_operation (by decide) (by simp [operationFields])
    | false =>
      rw [encode, if_neg (by simp [hc])]
      exact (decodeFrameWord_ok_iff _ _).2 ⟨c, rfl, hc, rfl⟩
  | decode n d cap => exact decode_operation (by decide) (by simp [operationFields])
  | crc16 b m => exact decode_operation (by decide) (by simp [operationFields])
  | crcenc v =>
    refine decode_operation (by decide) ?_
    simp only [operationFields, if_pos v.isLt, BitVec.ofNat_toNat, BitVec.setWidth_eq]
  | crc3k0 f => exact decode_crc3k0 f
  | crc3k1 f => exact decode_crc3k1 f
  | crc3k2 f => exact decode_crc3k2 f
  | setdir m => exact decode_operation (by decide) (by simp [operationFields])
  | envSetdir m => exact decode_operation (by decide) (by simp [operationFields])
  | cmdDefault v =>
    have hv : v ∉ verbsWithRow := fun h => by
      rw [Instr.WellFormed, Instr.illFormed?, if_pos h] at hi
      cases hi
    simp only [encode, decode, byteField_toNat, decodeVerb_of_not_mem hv]
  | newSession via a => exact decode_verbPacket (by decide) (by decide) (by simp [verbFields])
  | changeAddress via h b => exact decode_verbPacket (by decide) (by decide) (by simp [verbFields])
  | startMeasurement via h c x => exact decode_verbPacket (by decide) (by decide) (by simp [verbFields])
  | startConcurrent via h c x => exact decode_verbPacket (by decide) (by decide) (by simp [verbFields])
  | readData via h x c => exact decode_verbPacket (by decide) (by decide) (by simp [verbFields])
  | readContinuous via h x c => exact decode_verbPacket (by decide) (by decide) (by simp [verbFields])
  | identifyExtended via h cmd => exact decode_verbPacket (by decide) (by decide) (by simp [verbFields])
  | rawExtended via h cmd c => exact decode_verbPacket (by decide) (by decide) (by simp [verbFields])
  | ackActive via h => exact decode_verbPacket (by decide) (by decide) rfl
  | addressQuery via => exact decode_verbPacket (by decide) (by decide) rfl
  | readIdentification via h => exact decode_verbPacket (by decide) (by decide) rfl
  | startVerification via h => exact decode_verbPacket (by decide) (by decide) rfl
  | _ => rfl

/-- Settles O2: the five words of the spec, evaluated. -/
theorem workedFrameWords : Obligations.WorkedFrameWords := by
  unfold Obligations.WorkedFrameWords
  decide +kernel

/-- A word of ten bits is a frame's or none. -/
theorem decodeTableWord_ten (w : Nat) (i : Instr) : decodeTableWord 10 w = some i ↔ decodeFrameWord w = .ok i := by
  change (match decodeFrameWord w with | .ok i => some i | .error _ => none) = some i ↔ _
  cases decodeFrameWord w <;> simp

/-- Settles O3: the words of the FRAME row are the characters' (`decodeFrameWord_ok_iff`), whose units are
`frameWord_bits`. -/
theorem frameWordBits : Obligations.FrameWordBits := by
  intro w i
  rw [decodeTableWord_ten, decodeFrameWord_ok_iff]
  refine exists_congr fun c => and_congr_right fun _ => and_congr_right fun h7 => ⟨?_, ?_⟩
  · rintro rfl
    exact ⟨(frameWord c).isLt, frameWord_bits c⟩
  · rintro ⟨hw, h9, hdata, hpar, h0⟩
    exact congrArg BitVec.toNat (eq_frameWord_of_bits (v := BitVec.ofNatLT (w := 10) w hw) h9 hdata hpar h0)

/-! ### A step (R8, R10) -/

theorem decode_of_decodeTableWord {nbits w : Nat} {i : Instr} (h : decodeTableWord nbits w = some i) :
    decode [0, nbits, w] = .ok i := by
  unfold decodeTableWord at h
  split at h
  · next he => rw [he, Option.some.inj h]
  · cases h

/-- A presented packet that decodes to a well-formed operation is that operation's run. -/
theorem State.runPacket_of_decode {p : Packet} {i : Instr} (hd : decode p = .ok i) (hw : i.WellFormed) (s : State) :
    s.runPacket p = exec i s := by
  have hill : i.illFormed? = none := hw
  simp only [State.runPacket, hd, hill]

/-- A step with a packet next runs it on the state without it. -/
theorem step_of_call {s : State} {p : Packet} {rest : List Input} (h : s.inputs = .call p :: rest) :
    step s = State.runPacket p { s with inputs := rest } := by
  simp only [step, State.move, h, State.dropInput, List.tail_cons]

theorem step_of_turn {s : State} {rest : List Input} (h : s.inputs = .turn :: rest) :
    step s = .next (State.sequence { s with inputs := rest }) := by
  simp only [step, State.move, h, State.dropInput, List.tail_cons]

theorem step_of_endSession {s : State} {rest : List Input} {k : Nat} (h : s.inputs = .endSession k :: rest) :
    step s = State.endSession k { s with inputs := rest } := by
  simp only [step, State.move, h, State.dropInput, List.tail_cons]

/-- Settles O4: a step by the move that is next. -/
theorem stepRunsDecoded : Obligations.StepRunsDecoded := by
  refine ⟨?call, ?word, fun s h => step_of_no_inputs h, fun s rest h => step_of_turn h,
    fun s rest k h => step_of_endSession h⟩
  case call =>
    intro s p rest i h hd hw
    rw [step_of_call h, State.runPacket_of_decode hd hw]
  case word =>
    intro s nbits w i hd hw
    rw [step_of_call (s := s.withFetchWord nbits w) (rest := s.inputs) rfl,
      State.runPacket_of_decode (decode_of_decodeTableWord hd) hw]
    rfl

end Sys2Proof.Machine
end

section
/-! The waveform of a stream of frames (R95, R82): frames do not merge into each other (`waveform_frames`), so what holds of one
frame's waveform holds of the stream's, and the waveform presents the units of the frames. -/

namespace Sys2Proof.Machine

set_option Elab.async false

/-! ### Merging -/

/-- Nothing is merged where the levels differ. -/
theorem joinPulse_of_head_ne {p : Pulse} {ps : List Pulse} (h : ∀ q ∈ ps.head?, p.level ≠ q.level) :
    joinPulse p ps = p :: ps := by
  cases ps with
  | nil => rfl
  | cons q qs => exact if_neg (h q rfl)

/-- A pulse is merged with the first of those after it alone. -/
theorem joinPulse_append {p : Pulse} {ps : List Pulse} (h : ps ≠ []) (qs : List Pulse) :
    joinPulse p (ps ++ qs) = joinPulse p ps ++ qs := by
  cases ps with
  | nil => exact absurd rfl h
  | cons x xs =>
    rw [List.cons_append, joinPulse, joinPulse]
    split <;> rfl

theorem joinPulse_ne_nil (p : Pulse) (ps : List Pulse) : joinPulse p ps ≠ [] := by
  cases ps with
  | nil => exact List.cons_ne_nil _ _
  | cons q qs =>
    rw [joinPulse]
    split <;> exact List.cons_ne_nil _ _

/-- The first pulse keeps its level when those after it are merged. -/
theorem joinPulse_head_level (p : Pulse) (ps : List Pulse) : (joinPulse p ps).head?.map Pulse.level = some p.level := by
  cases ps with
  | nil => rfl
  | cons q qs =>
    rw [joinPulse]
    split <;> rfl

/-- Two sequences merge apart where the first ends at another level than the second begins. -/
theorem foldr_joinPulse_append (ps ws : List Pulse)
    (h : ∀ p ∈ ps.getLast?, ∀ q ∈ ws.head?, p.level ≠ q.level) :
    ps.foldr joinPulse ws = ps.foldr joinPulse [] ++ ws := by
  induction ps with
  | nil => rfl
  | cons p ps ih =>
    cases ps with
    | nil => exact joinPulse_of_head_ne (h p rfl)
    | cons p' ps =>
      rw [List.foldr_cons, ih h, List.foldr_cons (l := p' :: ps)]
      exact joinPulse_append (joinPulse_ne_nil _ _) ws

/-- The waveform of a sequence begins at the level of the sequence. -/
theorem foldr_joinPulse_head_level (ps : List Pulse) :
    (ps.foldr joinPulse []).head?.map Pulse.level = ps.head?.map Pulse.level := by
  cases ps with
  | nil => rfl
  | cons p ps => exact joinPulse_head_level p _

/-! ### Frames -/

theorem framePulses_dur {c : Byte} {p : Pulse} (h : p ∈ framePulses c) : p.dur = 833 := by
  obtain ⟨l, -, rfl⟩ := List.mem_map.1 h
  rfl

theorem framePulses_getLast (c : Byte) : (framePulses c).getLast? = some ⟨.marking, 833⟩ := rfl

/-- Pulses that all last some time are merged, none is dropped. -/
theorem waveform_of_pos {ps : List Pulse} (h : ∀ p ∈ ps, p.dur ≠ 0) : waveform ps = ps.foldr joinPulse [] := by
  rw [waveform, List.filter_eq_self.2 fun p hp => decide_eq_true (h p hp)]

theorem frames_dur_ne_zero (cs : List Byte) : ∀ p ∈ cs.flatMap framePulses, p.dur ≠ 0 := by
  intro p hp
  obtain ⟨c, -, hc⟩ := List.mem_flatMap.1 hp
  rw [framePulses_dur hc]
  decide

/-- A stream of frames begins with a start unit (R62), merged or not. -/
theorem waveform_frames_head {cs : List Byte} {q : Pulse} (h : q ∈ (waveform (cs.flatMap framePulses)).head?) :
    q.level = .spacing := by
  have hlevel := foldr_joinPulse_head_level (cs.flatMap framePulses)
  rw [← waveform_of_pos (frames_dur_ne_zero cs), Option.mem_def.1 h] at hlevel
  cases cs with
  | nil => cases hlevel
  | cons c cs => exact Option.some.inj hlevel

/-- A frame ends at marking and the next begins at spacing, so no pulse of one merges with a pulse of the next. -/
theorem waveform_frames (cs : List Byte) :
    waveform (cs.flatMap framePulses) = cs.flatMap (fun c => waveform (framePulses c)) := by
  induction cs with
  | nil => rfl
  | cons c cs ih =>
    have hone : waveform (framePulses c) = (framePulses c).foldr joinPulse [] :=
      waveform_of_pos fun p hp => by rw [framePulses_dur hp]; decide
    rw [List.flatMap_cons (f := fun c => waveform (framePulses c)), ← ih, hone, waveform_of_pos (frames_dur_ne_zero (c :: cs)),
      List.flatMap_cons, List.foldr_append, ← waveform_of_pos (frames_dur_ne_zero cs)]
    refine foldr_joinPulse_append _ _ fun p hp q hq => ?_
    rw [framePulses_getLast, Option.mem_some] at hp
    rw [← hp, waveform_frames_head hq]
    decide

theorem unitsOf_waveform_frames (cs : List Byte) :
    unitsOf (waveform (cs.flatMap framePulses)) = cs.flatMap frameLevels := by
  rw [waveform_frames]
  induction cs with
  | nil => rfl
  | cons c cs ih => rw [List.flatMap_cons, List.flatMap_cons, unitsOf_append, unitsOf_waveform_frame, ih]

/-- Settles O7: a merged stream is its frames merged one by one, and each of the 256 frames keeps the bound. -/
theorem frameRuns : Obligations.FrameRuns := by
  refine ⟨fun cs p hp => ?_, by decide +kernel, by decide +kernel⟩
  rw [waveform_frames] at hp
  obtain ⟨c, -, hc⟩ := List.mem_flatMap.1 hp
  obtain ⟨hdur, hpos, hle⟩ := waveform_frame_dur c p hc
  exact ⟨_, hpos, hle, hdur⟩

end Sys2Proof.Machine
end

section
/-! The transmit side (R90 to R94) and the quantiser (R106). -/

namespace Sys2Proof.Machine

set_option Elab.async false

/-- Settles O9: the thresholds are those of `unitCount_eq_iff`. -/
theorem unitsThresholds : Obligations.UnitsThresholds := by
  intro d s
  refine ⟨_, rfl, unitCount_eq d, unitCount_eq_iff d, ?_⟩
  rw [unitCount_eq]
  omega

/-- The parity flag is the exclusive or of the data units' levels (R64). -/
theorem txParity_eq_xor (c : Byte) : txParity c = (!c.getLsbD 0 ^^ !c.getLsbD 1 ^^ !c.getLsbD 2 ^^ !c.getLsbD 3 ^^
    !c.getLsbD 4 ^^ !c.getLsbD 5 ^^ !c.getLsbD 6) := by
  have hstep : ∀ par bit, txParStep par bit = (par ^^ !bit) := by decide
  simp only [txParity, List.range_succ, List.range_zero, List.nil_append, List.foldl_append, List.foldl_cons, List.foldl_nil,
    hstep, Bool.false_bne]

/-- The data units of a frame (R63). -/
theorem frameLevels_data (c : Byte) {k : Nat} (hk : k < 7) : (frameLevels c)[k + 1]? = some (dataLevel (c.getLsbD k)) := by
  rw [frameLevels, List.getElem?_cons_succ, List.getElem?_append_left (by simpa using hk)]
  simp [hk]

theorem framePulses_levels (c : Byte) : (framePulses c).map Pulse.level = frameLevels c := by
  simp [framePulses, Function.comp_def]

/-- FRAME answers the frame and keeps its parity flag (R92). -/
theorem exec_frame (c : Byte) (s : State) : exec (.frame c) s = .next (s.onBus
    { s with txPar := txParity c, txUnit := Config.freeTxUnit s.draws, draws := s.draws + 1,
             ret := .pulses (framePulses c) }) := rfl

/-- Settles O6: the frame's levels unit by unit, and the effect with a Bus and without. -/
theorem frameResult : Obligations.FrameResult := by
  intro c s
  refine ⟨_, framePulses c, txParity c, exec_frame c s, fun hb => ?bus, fun hb => ?noBus, rfl,
    fun p hp => framePulses_dur hp, ?_, ?_, ?_, ?_, txParity_eq_count c, txParity_eq_xor c, _, exec_frame _ s, ?bit7⟩
  case bus => rw [State.onBus_of_bus hb]
  case noBus => rw [State.onBus_of_no_bus hb]
  case bit7 => rw [State.onBus_ret, framePulses_bit7]
  all_goals rw [framePulses_levels]
  · rfl
  · exact fun k hk => frameLevels_data c hk
  · rfl
  · rfl

/-! ### ENCODE -/

/-- ENCODE of `n` characters is the preamble and ten pulses a character (R94). -/
theorem encodePulses_length (tp : Timing) (cs : List Byte) : (encodePulses tp cs).length = 2 + 10 * cs.length := by
  have hframe : ∀ c, (framePulses c).length = 10 := fun _ => rfl
  have hframes : (cs.flatMap framePulses).length = 10 * cs.length := by
    simp [List.length_flatMap, hframe, mul_comm]
  rw [encodePulses, List.length_append, hframes]
  rfl

/-- ENCODE lasts the preamble and ten bit widths a character (R94). -/
theorem encodePulses_dur (tp : Timing) (cs : List Byte) :
    ((encodePulses tp cs).map Pulse.dur).sum = tp.breakDur + tp.markDur + 8330 * cs.length := by
  have hframe : ∀ c, ((framePulses c).map Pulse.dur).sum = 8330 := fun c => by
    have hdurs : (framePulses c).map Pulse.dur = List.replicate 10 833 := rfl
    rw [hdurs, List.sum_replicate, smul_eq_mul]
  have hframes : ((cs.flatMap framePulses).map Pulse.dur).sum = 8330 * cs.length := by
    induction cs with
    | nil => rfl
    | cons c cs ih => rw [List.flatMap_cons, List.map_append, List.sum_append, ih, hframe, List.length_cons]; ring
  rw [encodePulses, List.map_append, List.sum_append, hframes]
  rfl

/-- The frame of character `k` stands at its place (R94). -/
theorem encodePulses_frame (tp : Timing) {cs : List Byte} {k : Nat} {c : Byte} (h : cs[k]? = some c) :
    ((encodePulses tp cs).drop (2 + 10 * k)).take 10 = framePulses c := by
  have hpre : ∀ n, (encodePulses tp cs).drop (2 + n) = (cs.flatMap framePulses).drop n := fun n => by
    rw [encodePulses, ← List.drop_drop]
    rfl
  rw [hpre]
  induction cs generalizing k with
  | nil => cases h
  | cons b bs ih =>
    cases k with
    | zero =>
      obtain rfl := Option.some.inj h
      rfl
    | succ k =>
      have hlen : 10 * (k + 1) = (framePulses b).length + 10 * k := by rw [Nat.mul_succ, Nat.add_comm]; rfl
      rw [List.flatMap_cons, hlen, ← List.drop_drop, List.drop_left]
      exact ih h fun n => by rw [encodePulses, ← List.drop_drop]; rfl

/-- ENCODE from outside (R90, R56). -/
theorem exec_encode {s : State} (h : s.seqState = .idle) :
    exec .encode s = .next (s.underLock { s.encodeCommand with ret := .pulses s.encoded }) := if_neg (not_not_intro h)

/-- Settles O8: ENCODE of the characters the command has. -/
theorem encodeResult : Obligations.EncodeResult := by
  intro s
  refine ⟨rfl, fun h => if_pos h, fun h => ⟨_, s.encoded, exec_encode h, fun hb hl => ?lock, fun hf => ?free, rfl,
    fun k hk => ?frames, ?_, ?_⟩⟩
  case lock =>
    rw [State.underLock_of_lock hb hl]
    rfl
  case free =>
    rw [State.underLock_of_free hf]
    rfl
  case frames =>
    refine ⟨_, encodePulses_frame s.tp (State.bytes_getElem? hk), fun hl hmax => ?_⟩
    have hvalid : k < s.valid .cmd := by rw [State.valid_cmd hl]; exact lt_min hk hmax
    rw [State.byteAt_valid hvalid, State.buf]
  · rw [State.encoded, encodePulses_length, State.bytes_length]
  · rw [State.encoded, encodePulses_dur, State.bytes_length]

end Sys2Proof.Machine
end

section
/-! DECODE of frames (R105 to R121): what a capture shows is read as what was sent (`unitsOf_of_shows`), a run of good frames
fills the buffer (`decodeUnits_frames`), and each of the ways a call ends is one more frame after such a run. -/

namespace Sys2Proof.Machine

set_option Elab.async false

/-! ### What a capture shows -/

/-- A pulse in the tolerance of a nominal one presents the same units (R106, R107). -/
theorem pulseUnits_of_shows {p q : Pulse} (h : shows p q) : pulseUnits p = pulseUnits q := by
  obtain ⟨hlevel, ⟨hp, hq⟩ | ⟨k, -, -, hq, hlow, hhigh⟩⟩ := h
  · unfold outsideWindow at hp hq
    rw [pulseUnits_ignored (by omega), pulseUnits_ignored (by omega)]
  · have hkp : unitCount p.dur = k := (unitCount_eq_iff _ _).2 ⟨hlow, hhigh⟩
    have hkq : unitCount q.dur = k := (unitCount_eq_iff _ _).2 (by omega)
    rw [pulseUnits, pulseUnits, hkp, hkq, hlevel]

theorem unitsOf_of_shows {ps qs : List Pulse} (h : List.Forall₂ shows ps qs) : unitsOf ps = unitsOf qs := by
  induction h with
  | nil => rfl
  | cons hp _ ih => rw [unitsOf_cons, unitsOf_cons, pulseUnits_of_shows hp, ih]

/-- The preamble presents no unit (R91, R107). -/
theorem unitsOf_preamble {tp : Timing} (hb : outsideWindow tp.breakDur) (hm : outsideWindow tp.markDur) :
    unitsOf (preamblePulses tp) = [] := by
  unfold outsideWindow at hb hm
  rw [preamblePulses, unitsOf_cons, unitsOf_cons, pulseUnits_ignored (by dsimp only; omega),
    pulseUnits_ignored (by dsimp only; omega)]
  rfl

/-- The preamble stays apart from the frames when they are merged (R95). -/
theorem waveform_encodePulses {tp : Timing} (hb : 0 < tp.breakDur) (hm : 0 < tp.markDur) (cs : List Byte) :
    waveform (encodePulses tp cs) = preamblePulses tp ++ waveform (cs.flatMap framePulses) := by
  have hpos : ∀ p ∈ encodePulses tp cs, p.dur ≠ 0 := by
    intro p hp
    rcases List.mem_append.1 hp with hp | hp
    · simp only [preamblePulses, List.mem_cons, List.not_mem_nil, or_false] at hp
      rcases hp with rfl | rfl <;> exact Nat.pos_iff_ne_zero.1 ‹_›
    · exact frames_dur_ne_zero cs p hp
  rw [waveform_of_pos hpos, encodePulses, List.foldr_append, ← waveform_of_pos (frames_dur_ne_zero cs),
    foldr_joinPulse_append]
  · rfl
  · intro p hp q hq
    have hlast : (preamblePulses tp).getLast? = some ⟨.marking, tp.markDur⟩ := rfl
    rw [hlast, Option.mem_some] at hp
    rw [← hp, waveform_frames_head hq]
    exact Level.noConfusion

/-- Each of the four forms of a string's pulses presents the units of its frames. -/
theorem unitsOf_nominal {tp : Timing} {cs : List Byte} {nominal : List Pulse} (hb : outsideWindow tp.breakDur)
    (hm : outsideWindow tp.markDur) (hb0 : 0 < tp.breakDur) (hm0 : 0 < tp.markDur)
    (h : nominal ∈ [encodePulses tp cs, cs.flatMap framePulses, waveform (encodePulses tp cs),
      waveform (cs.flatMap framePulses)]) : unitsOf nominal = cs.flatMap frameLevels := by
  simp only [List.mem_cons, List.not_mem_nil, or_false] at h
  rcases h with rfl | rfl | rfl | rfl
  · rw [encodePulses, unitsOf_append, unitsOf_preamble hb hm, unitsOf_frames, List.nil_append]
  · exact unitsOf_frames cs
  · rw [waveform_encodePulses hb0 hm0, unitsOf_append, unitsOf_preamble hb hm, unitsOf_waveform_frames, List.nil_append]
  · exact unitsOf_waveform_frames cs

/-! ### A run of good frames -/

/-- A character as it is received: seven bits (R41). -/
theorem setWidth_setWidth_eq_and (c : Byte) : (c.setWidth 7).setWidth 8 = c &&& 0x7F#8 := by
  apply BitVec.eq_of_getLsbD_eq
  intro i hi
  have hmask : (0x7F#8).getLsbD i = decide (i < 7) := by interval_cases i <;> rfl
  rw [BitVec.getLsbD_setWidth, BitVec.getLsbD_setWidth, BitVec.getLsbD_and, hmask, Bool.and_comm (c.getLsbD i)]
  simp [hi]

/-- A decoder that has taken the string `cs` into its destination and waits for the next frame. -/
structure Decoder.Holds (e : Decoder) (cs : List Byte) : Prop where
  st : e.st = .waitStart
  cnt : e.cnt = cs.length
  bytes : ∀ k c, cs[k]? = some c → Memory.read e.buf k = c &&& 0x7F#8

theorem Decoder.holds_nil {d : Decoder} (hst : d.st = .waitStart) (hcnt : d.cnt = 0) : d.Holds [] :=
  ⟨hst, hcnt, fun _ _ h => (nomatch h)⟩

/-- Units after a run that did not end the call (R108). -/
theorem decodeUnits_append_of_none {cap : Nat} {ls : List Level} {d e : Decoder}
    (h : decodeUnits cap ls d = (e, none)) (ms : List Level) :
    decodeUnits cap (ls ++ ms) d = decodeUnits cap ms e := by rw [decodeUnits_append, h, if_pos rfl]

/-- One more frame where the destination has the element and the capacity (R110, R114): the character is appended and, where it
completes a line end, the terminator written and the call over. -/
theorem decodeUnits_frame_of_holds {cap : Nat} {e : Decoder} {cs : List Byte} (he : e.Holds cs) (c : Byte)
    (hcap : cs.length < cap) (hroom : cs.length < e.room) :
    ∃ f : Decoder, f.room = e.room ∧ f.Holds (cs ++ [c]) ∧
      decodeUnits cap (frameLevels c) e =
        if 1 ≤ cs.length ∧ Memory.read f.buf (cs.length - 1) = chCr ∧ Memory.read f.buf cs.length = chLf then
          ({ f with buf := Memory.write f.buf (cs.length - 1) chNul }, some .ok)
        else (f, none) := by
  obtain ⟨st, acc, par, cnt, buf, room, draw⟩ := e
  obtain ⟨hst, hcnt, hbytes⟩ := he
  dsimp only at hst hcnt hbytes hroom
  subst hst hcnt
  refine ⟨⟨.waitStart, c.setWidth 7, txParity c, cs.length + 1, Memory.write buf cs.length (c &&& 0x7F#8), room, draw⟩,
    rfl, ⟨rfl, by simp, fun k b hk => ?bytes⟩, ?run⟩
  case bytes =>
    by_cases hlast : k = cs.length
    · subst hlast
      obtain rfl : c = b := by simpa using hk
      exact Memory.read_write_same _ _ _
    · have hlt : k < cs.length := by
        have := (List.getElem?_eq_some_iff.1 hk).1
        rw [List.length_append, List.length_singleton] at this
        omega
      rw [List.getElem?_append_left hlt] at hk
      exact (Memory.read_write_ne _ _ hlast).trans (hbytes k b hk)
  case run =>
    rw [decodeUnits_frame cap c acc par _ buf room draw (by omega), appendChar_inside (by exact hroom)]
    dsimp only
    rw [setWidth_setWidth_eq_and, Nat.add_sub_cancel, show cs.length + 1 - 2 = cs.length - 1 by omega]
    simp only [show 2 ≤ cs.length + 1 ↔ 1 ≤ cs.length by omega]

/-- A string whose start holds a line end holds it. -/
theorem holdsLineEnd_append {cs : List Byte} (ds : List Byte) (h : holdsLineEnd cs) : holdsLineEnd (cs ++ ds) := by
  obtain ⟨k, a, b, ha, hb, hcr, hlf⟩ := h
  have hlt : k + 1 < cs.length := (List.getElem?_eq_some_iff.1 hb).1
  exact ⟨k, a, b, by rw [List.getElem?_append_left (by omega), ha], by rw [List.getElem?_append_left hlt, hb], hcr, hlf⟩

/-- A string without a line end is taken whole (R58). -/
theorem decodeUnits_frames {cap : Nat} (cs : List Byte) {d : Decoder} (hd : d.Holds []) (hcap : cs.length ≤ cap)
    (hroom : cs.length ≤ d.room) (hno : ¬holdsLineEnd cs) :
    ∃ e : Decoder, e.room = d.room ∧ e.Holds cs ∧ decodeUnits cap (cs.flatMap frameLevels) d = (e, none) := by
  induction cs using List.reverseRecOn with
  | nil => exact ⟨d, rfl, hd, rfl⟩
  | append_singleton cs c ih =>
    rw [List.length_append, List.length_singleton] at hcap hroom
    obtain ⟨e, hroome, he, hrun⟩ := ih (by omega) (by omega) fun h => hno (holdsLineEnd_append _ h)
    obtain ⟨f, hroomf, hf, hlast⟩ := decodeUnits_frame_of_holds he c hcap (by omega)
    refine ⟨f, hroomf.trans hroome, hf, ?_⟩
    have hend : ¬(1 ≤ cs.length ∧ Memory.read f.buf (cs.length - 1) = chCr ∧ Memory.read f.buf cs.length = chLf) := by
      rintro ⟨hpos, hcr, hlf⟩
      have hprev : (cs ++ [c])[cs.length - 1]? = some cs[cs.length - 1] := by
        rw [List.getElem?_append_left (by omega), List.getElem?_eq_getElem]
      have hc : (cs ++ [c])[cs.length - 1 + 1]? = some c := by rw [Nat.sub_add_cancel hpos]; simp
      refine hno ⟨cs.length - 1, _, c, hprev, hc, ?_, ?_⟩
      · rw [← hf.bytes _ _ hprev, hcr]; rfl
      · rw [← hf.bytes _ _ hc, Nat.sub_add_cancel hpos, hlf]; rfl
    rw [List.flatMap_append, List.flatMap_singleton, decodeUnits_append_of_none hrun, hlast, if_neg hend]

/-- The line end after a string without one ends the call with `OK` (R114, R117). -/
theorem decodeUnits_line {cap : Nat} (cs : List Byte) {d : Decoder} (hd : d.Holds []) (hcap : cs.length + 2 ≤ cap)
    (hroom : cs.length + 2 ≤ d.room) (hno : ¬holdsLineEnd cs) :
    ∃ e : Decoder, decodeUnits cap ((cs ++ [0x0D#8, 0x0A#8]).flatMap frameLevels) d = (e, some .ok) ∧
      e.cnt = cs.length + 2 ∧ (∀ k c, cs[k]? = some c → Memory.read e.buf k = c &&& 0x7F#8) ∧
      Memory.read e.buf cs.length = chNul ∧ Memory.read e.buf (cs.length + 1) = chLf := by
  have hnoCr : ¬holdsLineEnd (cs ++ [0x0D#8]) := by
    rintro ⟨k, a, b, ha, hb, hcr, hlf⟩
    by_cases hk : k + 1 < cs.length
    · rw [List.getElem?_append_left (by omega)] at ha
      rw [List.getElem?_append_left hk] at hb
      exact hno ⟨k, a, b, ha, hb, hcr, hlf⟩
    · have hlt := (List.getElem?_eq_some_iff.1 hb).1
      rw [List.length_append, List.length_singleton] at hlt
      obtain rfl : b = 0x0D#8 := by
        rw [show k + 1 = cs.length by omega] at hb
        simpa using hb.symm
      exact absurd hlf (by decide)
  have hlen : (cs ++ [0x0D#8]).length = cs.length + 1 := by simp
  obtain ⟨e, hroome, he, hrun⟩ := decodeUnits_frames (cap := cap) (cs ++ [0x0D#8]) hd (by omega) (by omega) hnoCr
  obtain ⟨f, -, hf, hlast⟩ := decodeUnits_frame_of_holds (cap := cap) he 0x0A#8 (by omega) (by omega)
  rw [hlen, Nat.add_sub_cancel] at hlast
  have hcr : Memory.read f.buf cs.length = chCr := hf.bytes cs.length 0x0D#8 (by simp)
  have hlf : Memory.read f.buf (cs.length + 1) = chLf := hf.bytes (cs.length + 1) 0x0A#8 (by simp)
  refine ⟨{ f with buf := Memory.write f.buf cs.length chNul }, ?_, ?_, fun k c hk => ?_, Memory.read_write_same f.buf cs.length chNul,
    (Memory.read_write_ne _ chNul (Nat.succ_ne_self _)).trans hlf⟩
  · rw [show cs ++ [0x0D#8, 0x0A#8] = cs ++ [0x0D#8] ++ [0x0A#8] by simp, List.flatMap_append, List.flatMap_singleton,
      decodeUnits_append_of_none hrun, hlast, if_pos ⟨by omega, hcr, hlf⟩]
  · rw [hf.cnt]; simp
  · have hlt : k < cs.length := (List.getElem?_eq_some_iff.1 hk).1
    rw [Memory.read_write_ne _ _ (by omega)]
    refine hf.bytes k c ?_
    rw [List.append_assoc, List.getElem?_append_left hlt, hk]

/-! ### DECODE of a capture -/

theorem State.decoderFor_holds (s : State) (d : Dst) (cap : Nat) : (s.decoderFor d cap).Holds [] :=
  Decoder.holds_nil rfl rfl

/-- A destination has room for what its capacity, and for `SRQ` its own size, has. -/
theorem State.le_decoderFor_room {s : State} {d : Dst} {cap n : Nat} (hcap : n ≤ cap) (hsrq : d = .srq → n ≤ s.cfg.srqCap) :
    n ≤ (s.decoderFor d cap).room := by
  cases d with
  | rsp => exact hcap
  | srq => exact hsrq rfl

/-- DECODE of all of `RXQ` from outside, under the lock, by the walk over its units: what it answers and where it writes. -/
theorem exec_decode_rxq {s : State} (hb : s.busValid = true) (hl : s.lockHeld = true) (hq : s.seqState = .idle)
    {d : Dst} {cap : Nat} {e : Decoder} {st : Option Status}
    (h : decodeUnits cap (unitsOf s.rxq) (s.decoderFor d cap) = (e, st)) :
    ∃ t, exec (.decode s.rxq.length d cap) s = .next t ∧ t.ret = .line (st.getD .notFound) (e.len (st.getD .notFound)) ∧
      t.buf (dstBuf d) = e.buf := by
  have hrun : s.decodeRun s.rxq.length d cap = (e, st.getD .notFound) := by
    refine (State.decodeRun_rxq hl s.rxq d cap).trans ?_
    rw [decodePulses, h]
  refine ⟨_, exec_decode_of_lock hb hl hq _ d cap, by rw [hrun], ?_⟩
  have hbuf := State.decodeInto_buf s s.rxq.length d cap
  rw [hrun] at hbuf
  rw [← hbuf]
  cases d <;> rfl

/-- Settles O11: the capture presents the units of the frames (`unitsOf_of_shows`, `unitsOf_nominal`), which are taken one by
one (`decodeUnits_frames`), the line end last (`decodeUnits_line`). -/
theorem roundTrip : Obligations.RoundTrip := by
  intro cs ending tp nominal cap d s hb hl hq hcap hsrq hno hbreak hmark hb0 hm0 hending hnominal hshows
  have hunits : unitsOf s.rxq = (cs ++ ending).flatMap frameLevels :=
    (unitsOf_of_shows hshows).trans (unitsOf_nominal hbreak hmark hb0 hm0 hnominal)
  have hroom := State.le_decoderFor_room hcap hsrq
  rcases hending with rfl | rfl
  · obtain ⟨e, hrun, hcnt, hbytes, hnul, hlf⟩ :=
      decodeUnits_line cs (State.decoderFor_holds s d cap) hcap hroom hno
    rw [← hunits] at hrun
    obtain ⟨t, ht, hret, hbuf⟩ := exec_decode_rxq hb hl hq hrun
    refine ⟨t, ht, ?_, ?_, fun _ => ?_⟩
    · rw [hret, if_neg (List.cons_ne_nil _ _), Option.getD_some, Decoder.len, if_pos rfl, hcnt, Nat.add_sub_cancel]
    · rw [hbuf]; exact hbytes
    · rw [hbuf]; exact ⟨hnul, hlf⟩
  · obtain ⟨e, -, he, hrun⟩ := decodeUnits_frames cs (State.decoderFor_holds s d cap) hcap hroom hno
    rw [List.append_nil] at hunits
    rw [← hunits] at hrun
    obtain ⟨t, ht, hret, hbuf⟩ := exec_decode_rxq hb hl hq hrun
    refine ⟨t, ht, ?_, ?_, fun h => absurd rfl h⟩
    · rw [hret, if_pos rfl, Option.getD_none, Decoder.len, if_neg (by decide), he.cnt]
    · rw [hbuf]; exact he.bytes

/-! ### A frame that is wrong, or one too many -/

theorem rxParStep_eq (par : Bool) (l : Level) : rxParStep par l = (par ^^ levelBit l) := by
  cases par <;> cases l <;> rfl

/-- The start unit and seven data units of any levels, from `WAIT_START`: the parity is the exclusive or of the data levels. -/
theorem decodeUnits_data (cap : Nat) (d0 d1 d2 d3 d4 d5 d6 : Level) (ls : List Level) {e : Decoder}
    (h : e.st = .waitStart) : ∃ acc, decodeUnits cap (.spacing :: d0 :: d1 :: d2 :: d3 :: d4 :: d5 :: d6 :: ls) e =
      decodeUnits cap ls { e with st := .parity, acc := acc, par := (levelBit d0 ^^ levelBit d1 ^^ levelBit d2 ^^
        levelBit d3 ^^ levelBit d4 ^^ levelBit d5 ^^ levelBit d6) } := by
  obtain ⟨st, acc, par, cnt, buf, room, draw⟩ := e
  obtain rfl : st = .waitStart := h
  have hpar : (levelBit d0 ^^ levelBit d1 ^^ levelBit d2 ^^ levelBit d3 ^^ levelBit d4 ^^ levelBit d5 ^^ levelBit d6) =
      rxParStep (rxParStep (rxParStep (rxParStep (rxParStep (rxParStep (rxParStep false d0) d1) d2) d3) d4) d5) d6 := by
    simp only [rxParStep_eq, Bool.false_bne]
  rw [hpar]
  exact ⟨_, rfl⟩

/-- The parity and stop unit of a frame that ends the call (R112, R113, R110), and all that follows. -/
theorem decodeUnits_parity_stop (cap : Nat) (par stop : Level) (rest : List Level) {e : Decoder} (h : e.st = .parity)
    (hfull : levelBit par = e.par → stop = .marking → e.cnt = cap) :
    ∃ f : Decoder, f.cnt = e.cnt ∧ f.buf = e.buf ∧ decodeUnits cap (par :: stop :: rest) e =
      (f, some (if levelBit par ≠ e.par then .fail else if stop = .spacing then .fail else .invalidSize)) := by
  obtain ⟨st, acc, epar, cnt, buf, room, draw⟩ := e
  obtain rfl : st = .parity := h
  dsimp only at hfull ⊢
  by_cases hp : levelBit par = epar
  · refine ⟨⟨.stop, acc, epar, cnt, buf, room, draw⟩, rfl, rfl, ?_⟩
    cases stop with
    | spacing => simp [decodeUnits, decodeUnit, hp]
    | marking => simp [decodeUnits, decodeUnit, hp, hfull hp rfl]
  · exact ⟨⟨.parity, acc, epar, cnt, buf, room, draw⟩, rfl, rfl, by simp [decodeUnits, decodeUnit, hp]⟩

/-- A frame that ends the call, unit by unit: a wrong parity unit first, then a spacing stop unit, then a full buffer. -/
theorem decodeUnits_badFrame {cap : Nat} (d0 d1 d2 d3 d4 d5 d6 par stop : Level) (rest : List Level) {e : Decoder}
    (h : e.st = .waitStart) (hfull : levelBit par = (levelBit d0 ^^ levelBit d1 ^^ levelBit d2 ^^ levelBit d3 ^^
      levelBit d4 ^^ levelBit d5 ^^ levelBit d6) → stop = .marking → e.cnt = cap) :
    ∃ f : Decoder, f.cnt = e.cnt ∧ f.buf = e.buf ∧
      decodeUnits cap (.spacing :: d0 :: d1 :: d2 :: d3 :: d4 :: d5 :: d6 :: par :: stop :: rest) e =
        (f, some (if levelBit par ≠ (levelBit d0 ^^ levelBit d1 ^^ levelBit d2 ^^ levelBit d3 ^^ levelBit d4 ^^
          levelBit d5 ^^ levelBit d6) then .fail else if stop = .spacing then .fail else .invalidSize)) := by
  obtain ⟨acc, hdata⟩ := decodeUnits_data cap d0 d1 d2 d3 d4 d5 d6 (par :: stop :: rest) h
  rw [hdata]
  exact decodeUnits_parity_stop cap par stop rest (e := { e with
    st := .parity, acc := acc, par := (levelBit d0 ^^ levelBit d1 ^^ levelBit d2 ^^ levelBit d3 ^^ levelBit d4 ^^
      levelBit d5 ^^ levelBit d6) }) rfl hfull

/-- Settles O12: after the good frames (`decodeUnits_frames`) the bad one ends the call (`decodeUnits_badFrame`). -/
theorem badFrames : Obligations.BadFrames := by
  intro cs d0 d1 d2 d3 d4 d5 d6 par stop rest cap d s hb hl hq hcap hsrq hno hrxq hfull
  have hunits : unitsOf s.rxq = cs.flatMap frameLevels ++
      (.spacing :: d0 :: d1 :: d2 :: d3 :: d4 :: d5 :: d6 :: par :: stop :: unitsOf rest) := by
    rw [hrxq, unitsOf_append, unitsOf_append, unitsOf_frames]
    exact (List.append_assoc ..).trans (congrArg (_ ++ ·) (congrArg (· ++ unitsOf rest) (unitsOf_unitPulses _)))
  obtain ⟨e, -, he, hrun⟩ := decodeUnits_frames cs (State.decoderFor_holds s d cap) hcap
    (State.le_decoderFor_room hcap hsrq) hno
  obtain ⟨f, hcnt, hbuf, hend⟩ := decodeUnits_badFrame (cap := cap) d0 d1 d2 d3 d4 d5 d6 par stop (unitsOf rest) he.st
    fun h1 h2 => he.cnt.trans (hfull h1 h2)
  rw [← decodeUnits_append_of_none hrun, ← hunits] at hend
  obtain ⟨t, ht, hret, htbuf⟩ := exec_decode_rxq hb hl hq hend
  refine ⟨t, ht, ?_, fun k c hk => ?_⟩
  · have hlen : ∀ st : Status, st ≠ .ok → f.len st = cs.length := fun st hst => by
      rw [Decoder.len, if_neg hst, hcnt, he.cnt]
    rw [hret, Option.getD_some, hlen _ (by split_ifs <;> decide)]
  · rw [htbuf, hbuf]
    exact he.bytes k c hk

/-! ### Every exit -/

/-- What a call has done to its destination when it ends, or so far (R110, R117): nothing at or past the count, except that the
terminator and `LF` stand where a line ended; and a full buffer is full. -/
structure Decoder.Leaves (d e : Decoder) (st : Option Status) (cap : Nat) : Prop where
  room : e.room = d.room
  past : ∀ j, e.cnt ≤ j → Memory.read e.buf j = Memory.read d.buf j
  counted : d.cnt ≤ e.cnt
  full : st = some .invalidSize → e.cnt = cap
  terminator : st = some .ok → e.cnt - 2 < e.room → Memory.read e.buf (e.cnt - 2) = chNul
  lineFeed : st = some .ok → e.cnt - 1 < e.room → Memory.read e.buf (e.cnt - 1) = chLf

theorem Decoder.leaves_refl (d : Decoder) {st : Option Status} {cap : Nat} (hok : st ≠ some .ok)
    (hfull : st = some .invalidSize → d.cnt = cap) : d.Leaves d st cap :=
  ⟨rfl, fun _ _ => rfl, le_rfl, hfull, fun h => absurd h hok, fun h => absurd h hok⟩

/-- An append leaves the destination so. -/
theorem appendChar_leaves (d : Decoder) (cap : Nat) : d.Leaves (appendChar d).1 (appendChar d).2 cap where
  room := appendChar_room d
  past j hj := appendChar_read d j (.inl (by rw [appendChar_cnt] at hj; exact hj))
  counted := by rw [appendChar_cnt]; exact Nat.le_succ _
  full h := by rcases appendChar_status d with hs | hs <;> rw [hs] at h <;> cases h
  terminator h hroom := by
    rw [appendChar_cnt, appendChar_room] at hroom
    rw [appendChar_cnt]
    obtain ⟨e, rfl, ⟨hpos, -, -, he⟩ | ⟨-, he⟩⟩ := appendChar_cases d
    · rw [he, Decoder.put_read]
      dsimp only
      rw [if_pos ⟨rfl, by rw [Decoder.put_room]; omega⟩]
    · rw [he] at h; cases h
  lineFeed h hroom := by
    rw [appendChar_cnt, appendChar_room, Nat.add_sub_cancel] at hroom
    rw [appendChar_cnt, Nat.add_sub_cancel]
    obtain ⟨e, rfl, ⟨hpos, -, hlf, he⟩ | ⟨-, he⟩⟩ := appendChar_cases d
    · rw [he, Decoder.put_read, if_neg (by omega), ← hlf, Decoder.elem_inside (by dsimp only; rw [Decoder.put_room]; exact hroom)]
    · rw [he] at h; cases h

theorem decodeUnit_leaves (cap : Nat) (d : Decoder) (l : Level) :
    d.Leaves (decodeUnit cap d l).1 (decodeUnit cap d l).2 cap := by
  rcases decodeUnit_cases cap d l with ⟨hst, hcnt, hbuf, hroom⟩ | ⟨-, -, he⟩ | he | ⟨-, hfull, he⟩
  · rw [hst]
    exact ⟨hroom, fun _ _ => by rw [hbuf], hcnt.ge, (nomatch ·), (nomatch ·), (nomatch ·)⟩
  · rw [he]; exact appendChar_leaves d cap
  · rw [he]; exact d.leaves_refl (nomatch ·) (nomatch ·)
  · rw [he]; exact d.leaves_refl (nomatch ·) fun _ => hfull

theorem decodeUnits_leaves (cap : Nat) (ls : List Level) :
    ∀ d : Decoder, d.Leaves (decodeUnits cap ls d).1 (decodeUnits cap ls d).2 cap := by
  induction ls with
  | nil => exact fun d => d.leaves_refl ((nomatch ·)) (nomatch ·)
  | cons l ls ih =>
    intro d
    have hone := decodeUnit_leaves cap d l
    rw [decodeUnits_cons]
    split
    · obtain ⟨hroom, hpast, hcounted, hfull, hnul, hlf⟩ := ih (decodeUnit cap d l).1
      exact ⟨hroom.trans hone.room, fun j hj => (hpast j hj).trans (hone.past j (hcounted.trans hj)),
        hone.counted.trans hcounted, hfull, hnul, hlf⟩
    · exact hone

/-- What DECODE leaves in a destination, by its status (R117). -/
theorem State.decodeRun_leaves (s : State) (n : Nat) (d : Dst) (cap : Nat) :
    (s.decoderFor d cap).Leaves (s.decodeRun n d cap).1 (some (s.decodeRun n d cap).2) cap := by
  have h := decodeUnits_leaves cap (unitsOf (s.pulses n)) (s.decoderFor d cap)
  obtain ⟨hroom, hpast, hcounted, hfull, hnul, hlf⟩ := h
  rw [State.decodeRun, decodePulses]
  cases hst : (decodeUnits cap (unitsOf (s.pulses n)) (s.decoderFor d cap)).2 with
  | none => exact ⟨hroom, hpast, hcounted, (nomatch ·), (nomatch ·), (nomatch ·)⟩
  | some st =>
    rw [hst] at hfull hnul hlf
    exact ⟨hroom, hpast, hcounted, hfull, hnul, hlf⟩

/-- A line takes two places in the destination for its end (R114). -/
theorem State.decodeRun_ok {s : State} {n : Nat} {d : Dst} {cap : Nat} (h : (s.decodeRun n d cap).2 = .ok) :
    2 ≤ (s.decodeRun n d cap).1.cnt ∧ (s.decodeRun n d cap).1.cnt ≤ cap := by
  refine ⟨decodeUnits_ok _ _ ?_, decodeUnits_cnt_le _ (Nat.zero_le _)⟩
  rw [State.decodeRun, decodePulses] at h
  cases hst : (decodeUnits cap (unitsOf (s.pulses n)) (s.decoderFor d cap)).2 with
  | none => rw [hst] at h; cases h
  | some st => rw [hst] at h; exact congrArg some h

/-- Nothing is written where the destination has no element (R40). -/
theorem State.decodeRun_read {s : State} {n : Nat} {d : Dst} {cap j : Nat} (hj : cap ≤ j ∨ s.room d cap ≤ j) :
    Memory.read (s.decodeRun n d cap).1.buf j = Memory.read (s.buf (dstBuf d)) j :=
  decodeUnits_read _ (Nat.zero_le _) hj

/-- The length DECODE ends with is within the capacity. -/
theorem State.decodeRun_len_le (s : State) (n : Nat) (d : Dst) (cap : Nat) :
    (s.decodeRun n d cap).1.len (s.decodeRun n d cap).2 ≤ cap := decodePulses_len_le _ (Nat.zero_le _)

/-- DECODE ends in one of its four statuses (R121). -/
theorem State.decodeRun_status (s : State) (n : Nat) (d : Dst) (cap : Nat) :
    (s.decodeRun n d cap).2 = .ok ∨ (s.decodeRun n d cap).2 = .fail ∨ (s.decodeRun n d cap).2 = .invalidSize ∨
      (s.decodeRun n d cap).2 = .notFound := decodePulses_status _ _ _

/-- Settles O10: the exits are those of `decodeUnits_leaves`. -/
theorem decodeExits : Obligations.DecodeExits := by
  intro n cap d s
  refine ⟨fun hq => if_pos hq, fun hq hf => ?free, fun hq hb hl => ?lock⟩
  case free =>
    refine ⟨_, _, ?_, State.decodeRun_status s n d cap, State.decodeRun_len_le s n d cap⟩
    refine (if_neg (not_not_intro hq)).trans ?_
    rw [State.underLock_of_free hf, State.decodeInto_len]
    dsimp only
    rw [State.decodeInto_draws]
    rfl
  case lock =>
    obtain ⟨hroom, hpast, -, hfull, hnul, hlf⟩ := State.decodeRun_leaves s n d cap
    have hbuf : ∀ r, State.buf { s.decodeInto n d cap with ret := r } (dstBuf d) = (s.decodeRun n d cap).1.buf :=
      fun r => by cases d <;> rfl
    refine ⟨_, _, _, exec_decode_of_lock hb hl hq n d cap, ?frame, ?toRsp, ?toSrq, State.decodeRun_status s n d cap,
      State.decodeRun_len_le s n d cap, fun hok => ?ok, fun hsize => ?size, fun hne j hj => ?past⟩
    case frame => cases d <;> rfl
    case toRsp => rintro rfl; exact ⟨rfl, rfl, rfl⟩
    case toSrq => rintro rfl; exact ⟨rfl, rfl, rfl, fun j hj => State.decodeRun_read (.inr hj)⟩
    case ok =>
      obtain ⟨htwo, hcap⟩ := State.decodeRun_ok hok
      have hlen : (s.decodeRun n d cap).1.len (s.decodeRun n d cap).2 = (s.decodeRun n d cap).1.cnt - 2 := if_pos hok
      have hin : ∀ k, k < cap → (d = .srq → k < s.cfg.srqCap) → k < (s.decodeRun n d cap).1.room := fun k h1 h2 => by
        rw [hroom]; exact State.le_decoderFor_room (s := s) (n := k + 1) h1 h2
      rw [hbuf, hlen]
      refine ⟨by omega, fun hs => ?_, fun hs => ?_, fun j hj => ?_⟩
      · exact hnul (congrArg some hok) (hin _ (by omega) hs)
      · have hsub : (s.decodeRun n d cap).1.cnt - 2 + 1 = (s.decodeRun n d cap).1.cnt - 1 := by omega
        rw [hsub] at hs ⊢
        exact hlf (congrArg some hok) (hin _ (by omega) hs)
      · exact hpast j (by omega)
    case size =>
      exact (if_neg (by rw [hsize]; decide)).trans (hfull (congrArg some hsize))
    case past =>
      rw [Decoder.len, if_neg hne] at hj
      rw [hbuf]
      exact hpast j hj

end Sys2Proof.Machine
end

section
/-! The Checksum Unit (42_checksum.md): an iteration is linear over exclusive or (`crcBit_xor`), so a byte step has its closed
form; the three characters carry the value (`crcChars_toNat`); VERIFY compares them (`verifyLine_append_iff`). -/

namespace Sys2Proof.Machine

set_option Elab.async false

/-! ### One byte step in closed form (R131) -/

/-- An iteration is the shift, and the polynomial where bit 0 is set (R130). -/
theorem crcBit_eq (x : Word16) : crcBit x = (x >>> 1) ^^^ (if x.getLsbD 0 then 0xA001#16 else 0#16) := by
  unfold crcBit
  split
  · rfl
  · exact (BitVec.xor_zero).symm

/-- An iteration is linear over exclusive or. -/
theorem crcBit_xor (x y : Word16) : crcBit (x ^^^ y) = crcBit x ^^^ crcBit y := by
  have hpoly : (if (x ^^^ y).getLsbD 0 then 0xA001#16 else 0#16) =
      (if x.getLsbD 0 then 0xA001#16 else 0#16) ^^^ (if y.getLsbD 0 then 0xA001#16 else 0#16) := by
    rw [BitVec.getLsbD_xor]
    cases x.getLsbD 0 <;> cases y.getLsbD 0 <;> rfl
  rw [crcBit_eq, crcBit_eq, crcBit_eq, hpoly, BitVec.ushiftRight_xor_distrib]
  ac_rfl

theorem crcEight_xor (x y : Word16) : crcEight (x ^^^ y) = crcEight x ^^^ crcEight y := by
  simp only [crcEight, crcBit_xor]

/-- Eight iterations on a value without a low byte shift it down. -/
theorem crcEight_high : ∀ y : BitVec 8, crcEight (y.setWidth 16 <<< 8) = y.setWidth 16 := by decide +kernel

/-- A value is its high byte in place and its low byte. -/
theorem eq_high_xor_low (x : Word16) :
    x = ((x.extractLsb' 8 8).setWidth 16 <<< 8) ^^^ (x.extractLsb' 0 8).setWidth 16 := by
  apply BitVec.eq_of_getLsbD_eq
  intro i hi
  by_cases h : i < 8
  · simp [h, hi]
  · have hback : 8 + (i - 8) = i := by omega
    have hlow : i - 8 < 8 := by omega
    simp [h, hi, hback, hlow]

theorem shift8_eq (x : Word16) : x >>> 8 = (x.extractLsb' 8 8).setWidth 16 := by
  apply BitVec.eq_of_getLsbD_eq
  intro i hi
  by_cases h : i < 8
  · simp [h]
    omega
  · simp [h, BitVec.getLsbD_of_ge x (8 + i) (by omega)]

/-- Settles O14: the byte step of a value is that of its high byte, a shift, and of its low byte, the table's (R131). -/
theorem crcTableStep : Obligations.CrcTableStep := by
  intro crc b
  change crcEight (crc ^^^ b.setWidth 16) = _
  generalize crc ^^^ b.setWidth 16 = x
  calc crcEight x
      = crcEight (((x.extractLsb' 8 8).setWidth 16 <<< 8) ^^^ (x.extractLsb' 0 8).setWidth 16) := by
        rw [← eq_high_xor_low]
    _ = (x >>> 8) ^^^ crcEight ((x.extractLsb' 0 8).setWidth 16) := by
        rw [crcEight_xor, crcEight_high, ← shift8_eq]

/-! ### CRC16 (R130) -/

/-- An iteration by the value's number. -/
theorem crcBit_eq_ite_mod (x : Word16) :
    crcBit x = if x.toNat % 2 = 1 then (x >>> 1) ^^^ 0xA001#16 else x >>> 1 := by
  have hbit : x.getLsbD 0 = decide (x.toNat % 2 = 1) := by rw [BitVec.getLsbD, Nat.testBit_zero]
  simp only [crcBit, hbit, decide_eq_true_eq]

/-- Settles O15: the bytes CRC16 finds are the buffer's where it holds valid ones. -/
theorem crc16Result : Obligations.Crc16Result := by
  refine ⟨fun b m s => ⟨crcOf (s.bytes b m), s.bytes b m, ?run, rfl, State.bytes_length s b m, fun k hk hvalid => ?byte⟩,
    fun crc b => ?eight, by decide +kernel⟩
  case run =>
    change Host.Outcome.next (s.onBus { s with
      crc := crcOf (s.bytes b m), draws := s.draws + 1, ret := .word (crcOf (s.bytes b m)) }) = _
    rcases State.onBus_cases s { s with
      crc := crcOf (s.bytes b m), draws := s.draws + 1, ret := .word (crcOf (s.bytes b m)) } with ⟨hb, he⟩ | ⟨hb, he⟩
    · rw [he, hb]; rfl
    · rw [he, hb]; rfl
  case byte =>
    rw [State.bytes_getElem? hk, State.byteAt_valid]
    cases b with
    | cmd => rw [State.valid_cmd hvalid.1]; exact lt_min hvalid.2.1 hvalid.2.2
    | rsp => exact hvalid
    | srq => rw [State.valid_srq hvalid.1]; exact lt_min hvalid.2.1 hvalid.2.2
  case eight =>
    simp only [← crcBit_eq_ite_mod]
    rfl

/-! ### The three characters (R70, R133) -/

theorem crcChar0_toNat : ∀ f : BitVec 4, (crcChar0 f).toNat = 0x40 + f.toNat := by decide

theorem crcChar1_toNat : ∀ f : BitVec 6, (crcChar1 f).toNat = 0x40 + f.toNat := by decide

theorem crcChar2_toNat : ∀ f : BitVec 6, (crcChar2 f).toNat = 0x40 + f.toNat := crcChar1_toNat

/-- The characters of a value, as numbers. -/
theorem crcChars_toNat (v : Word16) :
    (crcChars v).map BitVec.toNat = [0x40 + v.toNat / 4096, 0x40 + v.toNat / 64 % 64, 0x40 + v.toNat % 64] := by
  have hv := v.isLt
  simp only [crcChars, List.map_cons, List.map_nil, crcChar0_toNat, crcChar1_toNat, crcChar2_toNat,
    BitVec.extractLsb'_toNat, Nat.shiftRight_eq_div_pow]
  norm_num
  omega

/-- Characters are determined by their numbers. -/
theorem eq_crcChars_iff (cs : List Byte) (v : Word16) : cs = crcChars v ↔
    cs.map BitVec.toNat = [0x40 + v.toNat / 4096, 0x40 + v.toNat / 64 % 64, 0x40 + v.toNat % 64] := by
  rw [← crcChars_toNat, (List.map_injective_iff.2 fun _ _ => BitVec.eq_of_toNat_eq).eq_iff]

/-- Two values never share their characters (R133). -/
theorem crcChars_injective {v w : Word16} (h : crcChars v = crcChars w) : v = w := by
  rw [eq_crcChars_iff, crcChars_toNat] at h
  simp only [List.cons.injEq, and_true] at h
  exact BitVec.eq_of_toNat_eq (by omega)

/-- Settles O16: the characters by their numbers, for CRCENC and for the rows one by one. -/
theorem crcencResult : Obligations.CrcencResult := by
  refine ⟨fun v s => ⟨_, _, _, rfl, ?_⟩, fun f g h s => ⟨_, _, _, rfl, crcChar0_toNat f, rfl, crcChar1_toNat g, rfl,
    crcChar2_toNat h⟩, fun v w => crcChars_injective⟩
  simpa only [crcChars, List.map_cons, List.map_nil, List.cons.injEq, and_true] using crcChars_toNat v

/-! ### VERIFY (R134, R135) -/

/-- A payload and three characters verify where those are the payload's checksum. -/
theorem verifyLine_append_iff (p : List Byte) {k : List Byte} (hk : k.length = 3) :
    verifyLine (p ++ k) = true ↔ k = crcChars (crcOf p) := by
  have hlen : (p ++ k).length - 3 = p.length := by rw [List.length_append, hk, Nat.add_sub_cancel]
  have hlong : ¬(p ++ k).length < 3 := by rw [List.length_append, hk]; omega
  rw [verifyLine, if_neg hlong, hlen, List.drop_left, List.take_left, decide_eq_true_eq]

/-- VERIFY from outside: the unit's running value and the answer change (R134). -/
theorem exec_verify (s : State) : ∃ v, exec .verify s = .next { s with
    crc := v, ret := .status (if verifyLine s.rspLine then .ok else .invalidChecksum) } := by
  change ∃ v, Host.Outcome.next (s.onBus { s.afterVerify with
    ret := .status (if s.verifies then .ok else .invalidChecksum) }) = _
  rcases State.onBus_cases s { s.afterVerify with
    ret := .status (if s.verifies then .ok else .invalidChecksum) } with ⟨-, he⟩ | ⟨-, he⟩
  · exact ⟨_, congrArg _ he⟩
  · exact ⟨s.crc, congrArg _ he⟩

theorem exec_verify_of_ok {s : State} (h : verifyLine s.rspLine = true) :
    ∃ v, exec .verify s = .next { s with crc := v, ret := .status .ok } := by
  obtain ⟨v, hv⟩ := exec_verify s
  rw [h, if_pos rfl] at hv
  exact ⟨v, hv⟩

theorem exec_verify_of_corrupt {s : State} (h : ¬verifyLine s.rspLine = true) :
    ∃ v, exec .verify s = .next { s with crc := v, ret := .status .invalidChecksum } := by
  obtain ⟨v, hv⟩ := exec_verify s
  rw [if_neg h] at hv
  exact ⟨v, hv⟩

/-- A line of three characters or more is its payload and its last three. -/
theorem State.rspLine_eq {s : State} (h : 3 ≤ s.rspLen) : s.rspLine = Memory.slice s.rsp 0 (s.rspLen - 3) ++
    [Memory.read s.rsp (s.rspLen - 3), Memory.read s.rsp (s.rspLen - 2), Memory.read s.rsp (s.rspLen - 1)] := by
  obtain ⟨n, hn⟩ : ∃ n, s.rspLen = n + 3 := ⟨s.rspLen - 3, by omega⟩
  rw [State.rspLine, hn, Memory.slice_succ, Memory.slice_succ, Memory.slice_succ, List.append_assoc, List.append_assoc,
    Nat.zero_add, Nat.zero_add, Nat.zero_add]
  rfl

/-- A line of fewer than three characters has no checksum (R135). -/
theorem State.not_verifies_of_short {s : State} (h : s.rspLen < 3) : ¬verifyLine s.rspLine = true := by
  have hshort : s.rspLine.length < 3 := by rw [State.rspLine, Memory.slice_length]; exact h
  rw [verifyLine, if_pos hshort]
  exact Bool.false_ne_true

/-- Settles O17: VERIFY compares the last three characters with those of the CRC of the rest. -/
theorem verifyResult : Obligations.VerifyResult := by
  intro s
  obtain ⟨v, hv⟩ := exec_verify s
  refine ⟨_, _, hv, rfl, ?_, fun h => ?_, fun h => ⟨_, rfl, ?_⟩⟩
  · split_ifs
    · exact .inl rfl
    · exact .inr rfl
  · exact if_neg (State.not_verifies_of_short h)
  · have hok : (if verifyLine s.rspLine then Status.ok else .invalidChecksum) = .ok ↔ verifyLine s.rspLine = true := by
      split_ifs with hl <;> simp [hl]
    rw [hok, State.rspLine_eq h, verifyLine_append_iff _ rfl, eq_crcChars_iff]
    simp only [List.map_cons, List.map_nil, List.cons.injEq, and_true]

/-! ### The checksum laws (R136) -/

/-- The byte steps of a string lose nothing of the value they start from. -/
theorem foldl_crcByte_injective (bs : List Byte) : ∀ {x y : Word16}, bs.foldl crcByte x = bs.foldl crcByte y → x = y := by
  induction bs with
  | nil => exact fun h => h
  | cons b bs ih => exact fun h => crcByte_injective_crc (ih h)

/-- Another byte at one place gives another CRC. -/
theorem crcOf_set_ne {p : List Byte} {i : Nat} {b c : Byte} (hb : p[i]? = some b) (hne : c ≠ b) :
    crcOf (p.set i c) ≠ crcOf p := by
  obtain ⟨hi, rfl⟩ := List.getElem?_eq_some_iff.1 hb
  have hp : p = p.take i ++ p[i] :: p.drop (i + 1) := by rw [← List.drop_eq_getElem_cons hi, List.take_append_drop]
  intro h
  rw [List.set_eq_take_append_cons_drop, if_pos hi] at h
  nth_rewrite 3 [hp] at h
  rw [crcOf_append, crcOf_append, List.foldl_cons, List.foldl_cons] at h
  exact hne (crcByte_injective_byte (foldl_crcByte_injective _ h))

/-- A complemented bit gives another byte. -/
theorem xor_bit_ne : ∀ (b : BitVec 8) (j : Nat), j < 8 → b ^^^ (1#8 <<< j) ≠ b := by
  intro b j hj h
  have hbit := congrArg (fun v : BitVec 8 => v.getLsbD j) h
  simp [hj] at hbit

/-- Settles O18: VERIFY of a payload with three characters after it is `verifyLine_append_iff`. -/
theorem checksumLaws : Obligations.ChecksumLaws := by
  rintro p q s rfl
  refine ⟨fun hq => exec_verify_of_ok ?_, fun i j b hi hj hb => ?_, fun i j b hi hj hb hq => exec_verify_of_corrupt ?_⟩
  · rw [hq, verifyLine_append_iff _ rfl]
  · have hcrc := crcOf_set_ne hb (xor_bit_ne b j hj)
    refine ⟨hcrc, fun hq => exec_verify_of_corrupt ?_⟩
    rw [hq, verifyLine_append_iff _ rfl]
    exact fun h => hcrc (crcChars_injective h).symm
  · rw [hq, verifyLine_append_iff _ (by rw [List.length_set]; rfl)]
    intro h
    have hset := congrArg (fun l : List Byte => l[i]?) h
    simp only [hb, List.getElem?_set_self (Nat.lt_of_lt_of_eq hi (crcChars_length _).symm), Option.some.injEq] at hset
    exact xor_bit_ne b j hj hset

end Sys2Proof.Machine
end

section
/-! The bus services (44_bus_services.md) and the calls of the requesters: what the grant of the lock does is `State.Granted`
(`State.grantTo_granted`), and a valid SEND waits for it (`State.sendBy_of_accepts`). -/

namespace Sys2Proof.Machine

set_option Elab.async false

/-! ### Power-on (R34, R250) -/

/-- A port of the block after power-on is one before any call. -/
theorem reset_port {r : Nat} {p : Port} (h : State.reset.ports[r]? = some p) : p = Port.reset := by
  have hmem : p ∈ [Port.reset, Port.reset] := List.mem_of_getElem? h
  simpa using hmem

theorem mem_reset_ports {p : Port} (h : p ∈ State.reset.ports) : p = Port.reset := by
  obtain ⟨r, hr⟩ := List.getElem?_of_mem h
  exact reset_port hr

theorem reset_lockDiscipline : State.reset.LockDiscipline where
  transactionHoldsLock h := absurd rfl h
  freeMeansIdle _ := rfl
  noBusNoLock _ := ⟨rfl, rfl⟩
  waitersRising := .nil
  waitersExist _ h := nomatch h
  ownerExists h := nomatch h
  activities _ p h := by
    obtain rfl := reset_port h
    exact ⟨List.not_mem_nil, fun howns => nomatch howns.1⟩

theorem reset_requestDiscipline : State.reset.RequestDiscipline where
  registers h := absurd rfl h
  results p hp _ _ h := by
    obtain rfl := mem_reset_ports hp
    cases h
  commands p hp h := by
    obtain rfl := mem_reset_ports hp
    cases h

/-- Settles O5: each invariant of the state after power-on. -/
theorem resetInvariants : Obligations.ResetInvariants := by
  refine ⟨rfl, rfl, rfl, rfl, rfl, rfl, ⟨Memory.wf_nil, Memory.wf_nil, Memory.wf_nil, fun p hp => ?_⟩, reset_lockDiscipline,
    ⟨fun h => ?_, fun h => ?_, fun h => nomatch h⟩, reset_requestDiscipline, ⟨fun h => absurd rfl h, fun p hp st len h => ?_⟩,
    ⟨by decide, fun h => nomatch h⟩, rfl, rfl, rfl⟩
  · obtain rfl := mem_reset_ports hp
    exact Memory.wf_nil
  · rcases h with h | h <;> cases h
  · rcases h with h | h <;> cases h
  · obtain rfl := mem_reset_ports hp
    cases h

/-! ### CREATE and DESTROY -/

/-- A supplied duration, or the default where 0 is supplied (R181). -/
theorem default_if_zero (n dflt : Nat) :
    (n = 0 → (if n = 0 then dflt else n) = dflt) ∧ (n ≠ 0 → (if n = 0 then dflt else n) = n) :=
  ⟨fun h => if_pos h, fun h => if_neg h⟩

/-- Settles O19: CREATE's two cases. -/
theorem createResult : Obligations.CreateResult := by
  intro line brk mark s
  refine ⟨fun hb => if_pos hb, fun hb => ⟨_, _, if_neg (by simp [hb]), ?_⟩⟩
  obtain ⟨hbrk, hbrk'⟩ := default_if_zero brk Config.breakDefault
  obtain ⟨hmark, hmark'⟩ := default_if_zero mark s.cfg.markDefault
  exact ⟨hbrk, hbrk', hmark, hmark'⟩

/-- Settles O20: DESTROY's three cases. -/
theorem destroyResult : Obligations.DestroyResult := by
  intro s
  refine ⟨fun hb => if_pos hb, fun hb hl hw => ⟨{ s.forget with ret := .status .ok }, ?_, ?_⟩, fun hb hbusy => ?_⟩
  · exact (if_neg (by simp [hb])).trans (if_neg (by simp [hl, hw]))
  · simp only [State.forget, hl, hw]
  · exact (if_neg (by simp [hb])).trans (if_pos hbusy)

/-! ### The grant of the lock (R184) -/

/-- The grant to a requester of the block, whatever choice was consumed before it. -/
theorem State.grantTo_granted {s : State} {w : Nat} {p : Port} (hp : s.ports[w]? = some p) (sc : Script) (dr : Nat) :
    s.Granted w (State.grantTo w { s with script := sc, draws := dr }) := by
  have hmem : ∀ x, x ∈ s.lockWaiters.filter (· ≠ w) ↔ x ∈ s.lockWaiters ∧ x ≠ w := fun x => by
    rw [List.mem_filter, decide_eq_true_eq]
  rcases State.grantTo_cases w { s with script := sc, draws := dr } with ⟨q, hq, hact, he⟩ | ⟨q, hq, hact, he⟩ | ⟨hn, -⟩
  · rw [he]
    refine ⟨rfl, rfl, hmem, fun q' hq' _ => ?_, fun q' hq' hne => ?_, rfl⟩
    · obtain rfl := Option.some.inj (hq.symm.trans hq')
      refine ⟨rfl, rfl, rfl, rfl, rfl, rfl, rfl, rfl, rfl, rfl, fun k => ?_⟩
      exact (Memory.read_writeFrom _ _ _ _).trans (if_pos (Nat.zero_le _))
    · obtain rfl := Option.some.inj (hq.symm.trans hq')
      exact absurd hact hne
  · rw [he]
    refine ⟨rfl, rfl, hmem, fun q' hq' hsend => ?_, fun q' hq' _ => rfl, rfl⟩
    obtain rfl := Option.some.inj (hq.symm.trans hq')
    exact absurd hsend hact
  · exact nomatch hn.symm.trans hp

/-- A held lock is granted to nobody. -/
theorem State.tryGrant_of_held {s : State} (h : s.lockHeld = true) : s.tryGrant = s := if_pos h

/-- A free lock with one requester waiting is that requester's. -/
theorem State.tryGrant_of_one {s : State} {r : Nat} (hl : s.lockHeld = false) (hw : s.lockWaiters = [r]) :
    s.tryGrant = s.grantTo r := by
  rw [State.tryGrant, hl, hw]
  rfl

/-- A free lock with several waiting is the chosen one's (U3). -/
theorem State.tryGrant_of_choice {s : State} {k w : Nat} {rest : List Nat} (hl : s.lockHeld = false)
    (htwo : 2 ≤ s.lockWaiters.length) (hk : s.lockWaiters[k]? = some w) (hg : s.script.grants = k :: rest) :
    s.tryGrant = s.dropGrant.grantTo w := by
  have hlt : k < s.lockWaiters.length := (List.getElem?_eq_some_iff.1 hk).1
  have hindex : s.grantIndex = k := by rw [State.grantIndex, hg, List.headD_cons, Nat.mod_eq_of_lt hlt]
  have hchosen : ∀ r, s.lockWaiters.getD s.grantIndex r = w := fun r => by
    rw [hindex, List.getD_eq_getElem?_getD, hk, Option.getD_some]
  unfold State.tryGrant
  rw [if_neg (by simp [hl])]
  split
  · next h => rw [h] at htwo; cases htwo
  · next h => rw [h] at htwo; simp at htwo
  · rw [hchosen]

/-- A free lock goes to one of those who wait (R184). -/
theorem State.tryGrant_granted {s : State} (hl : s.lockHeld = false) (hw : s.lockWaiters ≠ [])
    (hex : ∀ w ∈ s.lockWaiters, w < s.ports.length) : ∃ w ∈ s.lockWaiters, s.Granted w s.tryGrant := by
  rcases State.tryGrant_cases s with ⟨-, hheld | hnone⟩ | ⟨-, w, hmem, he⟩
  · rw [hl] at hheld; cases hheld
  · exact absurd hnone hw
  · have hp := List.getElem?_eq_getElem (hex w hmem)
    refine ⟨w, hmem, ?_⟩
    rcases he with he | he
    · rw [he]; exact State.grantTo_granted hp s.script s.draws
    · rw [he]; exact State.grantTo_granted hp { s.script with grants := s.script.grants.tail } (s.draws + 1)

/-- With no call pending and no transaction running the sequencer's step is the grant (R166, first row). -/
theorem step_of_idle {s : State} (hi : s.inputs = []) (hq : s.seqState = .idle) : step s = .next s.tryGrant := by
  rw [step_of_no_inputs hi, State.sequence, hq]

/-- Settles O25: the sequencer's step is the grant, and the script's choice decides it. -/
theorem grantChoice : Obligations.GrantChoice := by
  intro s hi hq hl hw hex
  rw [step_of_idle hi hq]
  refine ⟨?_, fun k w rest htwo hk hg => ⟨_, rfl, ?_⟩⟩
  · obtain ⟨w, hmem, hgranted⟩ := State.tryGrant_granted hl hw hex
    exact ⟨w, _, hmem, rfl, hgranted⟩
  · rw [State.tryGrant_of_choice hl htwo hk hg]
    exact State.grantTo_granted (List.getElem?_eq_getElem (hex w (List.mem_of_getElem? hk)))
      { s.script with grants := s.script.grants.tail } (s.draws + 1)

/-! ### LOCK and UNLOCK -/

/-- A requester of the block joins the waiters (R184). -/
theorem State.lockBy_eq {s : State} {r : Nat} {p : Port} (hp : s.ports[r]? = some p) (act : Activity) :
    s.lockBy r act = State.tryGrant { s with
      lockWaiters := insertWaiter r s.lockWaiters, ports := s.ports.set r { p with act := act } } := by
  rw [State.lockBy, modify_eq_set hp]

theorem insertWaiter_ne_nil (r : Nat) (ws : List Nat) : insertWaiter r ws ≠ [] :=
  List.ne_nil_of_mem (mem_insertWaiter.2 (.inl rfl))

/-- Those who wait with `r` are requesters of the block, if those before were. -/
theorem insertWaiter_exist {ps : List Port} {r : Nat} {p q : Port} {ws : List Nat} (hp : ps[r]? = some p)
    (hex : ∀ w ∈ ws, w < ps.length) : ∀ w ∈ insertWaiter r ws, w < (ps.set r q).length := by
  intro w hw
  rw [List.length_set]
  rcases mem_insertWaiter.1 hw with rfl | hw
  · exact (List.getElem?_eq_some_iff.1 hp).1
  · exact hex w hw

/-- A free requester's LOCK on a Bus (R184). -/
theorem exec_lock_of_free {s : State} {r : Nat} {p : Port} (hb : s.busValid = true) (hp : s.ports[r]? = some p)
    (ha : p.act = .free) : exec (.lock r) s = .next (s.lockBy r .locking) := by
  change execLock r s = _
  simp only [execLock, hb, hp, ha, Bool.true_eq_false, if_false, ne_eq, not_true_eq_false]

/-- Settles O21: LOCK joins the waiters, and the grant follows if the lock is free. -/
theorem lockResult : Obligations.LockResult := by
  intro r p s hb hp ha
  have hlt : r < s.ports.length := (List.getElem?_eq_some_iff.1 hp).1
  rw [exec_lock_of_free hb hp ha, State.lockBy_eq hp]
  refine ⟨fun x => mem_insertWaiter, fun hl hw => ?alone, fun hl => ?held, fun hl hex => ?several⟩
  case alone =>
    refine congrArg _ ((State.tryGrant_of_one (r := r) ?_ ?_).trans ?_)
    · exact hl
    · dsimp only
      rw [hw]
      rfl
    · have hself : (s.ports.set r { p with act := .locking })[r]? = some { p with act := .locking } :=
        List.getElem?_set_self hlt
      simp only [State.grantTo, hself, modify_eq_set hself, List.set_set, hw, insertWaiter]
      simp
  case held => exact congrArg _ (State.tryGrant_of_held hl)
  case several =>
    obtain ⟨w, hmem, hgranted⟩ := State.tryGrant_granted
      (s := { s with lockWaiters := insertWaiter r s.lockWaiters, ports := s.ports.set r { p with act := .locking } })
      hl (insertWaiter_ne_nil r _) (insertWaiter_exist hp hex)
    exact ⟨w, _, mem_insertWaiter.1 hmem, rfl, hgranted⟩

/-- Settles O22: UNLOCK's three cases. -/
theorem unlockResult : Obligations.UnlockResult := by
  intro r p s hb hp
  have hexec : exec (.unlock r) s =
      if ¬(s.lockHeld ∧ s.lockOwner = r ∧ s.seqState = .idle) then .refused .notLockOwner
      else if ¬s.restored then .refused .lineNotRestored
      else .next { s.unlock with ports := s.ports.modify r (fun p => { p with act := .free }), ret := .nothing } := by
    change execUnlock r s = _
    simp only [execUnlock, hb, hp, Bool.true_eq_false, if_false]
  rw [hexec]
  refine ⟨fun hl ho hq hr => ?_, fun hl ho hq hr => ?_, fun hn => if_pos hn⟩
  · rw [if_neg (not_not_intro ⟨hl, ho, hq⟩), if_neg (not_not_intro hr), modify_eq_set hp]
    rfl
  · rw [if_neg (not_not_intro ⟨hl, ho, hq⟩), if_pos hr]

/-! ### SETDIR and the requests to the environment -/

/-- The script's next answer is the one given, if it has one. -/
theorem headD_of_eq_cons {α : Type} {as : List α} {d b : α} {bs : List α} (h : as = b :: bs) : as.headD d = b := by
  rw [h, List.headD_cons]

/-- Settles O23: SETDIR is one request with two outcomes. -/
theorem setdirResult : Obligations.SetdirResult := by
  intro m s hb hq
  have hexec : exec (.setdir m) s =
      if s.lockHeld = false then .refused .lockNotHeld else .next { s.setDir m with ret := .ack s.setDirAnswer } := by
    change execSetdir m s = _
    simp only [execSetdir, hb, hq, Bool.true_eq_false, if_false, ne_eq, not_true_eq_false]
  rw [hexec]
  refine ⟨fun hl => ⟨_, _, if_neg (by simp [hl]), rfl, State.setDir_dirMode_of_ack (s := s) (m := m), fun b bs => headD_of_eq_cons⟩,
    fun hl => if_pos hl⟩

/-- A free answer to a capture keeps the contract (R190 (3)). -/
theorem boundElapsed_contract {budget : Nat} (hb : 1 ≤ budget) {c : Capture} {ps : List Pulse} {e : Nat}
    (h : boundElapsed budget c = .captured ps e) : 1 ≤ e ∧ e ≤ budget := by
  cases c with
  | captured qs f =>
    obtain ⟨-, rfl⟩ := Capture.captured.inj h
    have := Nat.mod_lt f hb
    omega
  | timeout => cases h
  | fail => cases h

/-- Settles O24: each request is one answer, in the mode and under the lock the block issues it in. -/
theorem environmentRequests : Obligations.EnvironmentRequests := by
  intro s hb hq
  have hemit : exec .envEmit s = if s.lockHeld = false then .refused .lockNotHeld
      else if s.dirMode ≠ .transmit then .refused .wrongDirection
      else .next { s.envEmit with ret := .ack s.emitAnswer } := by
    change execEnvEmit s = _
    simp only [execEnvEmit, hb, hq, Bool.true_eq_false, if_false, ne_eq, not_true_eq_false]
  have hcapture : ∀ budget, exec (.envCapture budget) s = if s.lockHeld = false then .refused .lockNotHeld
      else if s.dirMode ≠ .receive then .refused .wrongDirection
      else .next { s.envCapture budget with ret := .capture (s.captureAnswer budget) } := fun budget => by
    change execEnvCapture budget s = _
    simp only [execEnvCapture, hb, hq, Bool.true_eq_false, if_false, ne_eq, not_true_eq_false]
  have hsetdir : ∀ m, exec (.envSetdir m) s = if s.lockHeld = false then .refused .lockNotHeld
      else .next { s.envSetDir m with ret := .ack s.setDirAnswer } := fun m => by
    change execEnvSetdir m s = _
    simp only [execEnvSetdir, hb, hq, Bool.true_eq_false, if_false, ne_eq, not_true_eq_false]
  refine ⟨fun hl hd => ?emit, fun budget hbudget hl hd => ?capture, fun m hl => ?setdir, fun hl => ?free⟩
  case emit =>
    rw [hemit, if_neg (by simp [hl]), if_neg (not_not_intro hd)]
    exact ⟨_, rfl, fun b bs => headD_of_eq_cons⟩
  case capture =>
    rw [hcapture, if_neg (by simp [hl]), if_neg (not_not_intro hd)]
    refine ⟨_, _, rfl, fun qs e hc => ?_, fun hc => ?_, fun hnone qs e hc => ?_, fun b bs => headD_of_eq_cons⟩
    · rw [State.envCapture_rxq, hc]; rfl
    · rcases hc with hc | hc <;> rw [State.envCapture_rxq, hc] <;> rfl
    · rw [State.captureAnswer, hnone, List.headD_nil] at hc
      exact boundElapsed_contract hbudget hc
  case setdir =>
    rw [hsetdir, if_neg (by simp [hl])]
    exact ⟨_, rfl, fun b bs => headD_of_eq_cons⟩
  case free => exact ⟨(hemit).trans (if_pos hl), fun budget => (hcapture budget).trans (if_pos hl),
    fun m => (hsetdir m).trans (if_pos hl)⟩

/-! ### VALID, SEND and CLASS -/

/-- Settles O26: VALID's five conjuncts are `validRequest_iff`. -/
theorem validResult : Obligations.ValidResult := fun req s => ⟨_, rfl, validRequest_iff s req⟩

/-- Settles O28: SEND's two refusals. -/
theorem sendRefused : Obligations.SendRefused := by
  refine ⟨fun r req s hn => ?_, fun r req p s hp ha => ?_⟩
  · change execSend r req s = _
    simp only [execSend, hn]
  · change execSend r req s = _
    simp only [execSend, hp, if_pos ha]

/-- A SEND that VALID accepts waits for the lock with its record latched (R147, R20). -/
theorem State.sendBy_of_accepts {s : State} {r : Nat} {p : Port} (hp : s.ports[r]? = some p) {req : Request}
    (hacc : s.Accepts req) (v : Option Verb) : s.sendBy r req v = State.tryGrant { s with
      ports := s.ports.set r { p with act := .sending, req := req, result := none, verb := v, verbResult := none }
      lockWaiters := insertWaiter r s.lockWaiters } := by
  have hlt : r < s.ports.length := (List.getElem?_eq_some_iff.1 hp).1
  have hvalid := (validRequest_iff s req).2 hacc
  rcases State.sendBy_cases hp req v with ⟨hinvalid, -⟩ | ⟨-, he⟩
  · rw [hvalid] at hinvalid; cases hinvalid
  · have hlatched : (s.latch r req v).ports =
        s.ports.set r { p with req := req, result := none, verb := v, verbResult := none } := by
      rw [State.latch_ports, modify_eq_set hp]
    rw [he, State.lockBy_eq (by rw [hlatched]; exact List.getElem?_set_self hlt), hlatched, List.set_set]
    rfl

/-- Settles O29: the waiting requester is granted the lock at once, later, or against the others. -/
theorem sendValid : Obligations.SendValid := by
  intro r req p v s hp ha hacc q u
  have hlt : r < s.ports.length := (List.getElem?_eq_some_iff.1 hp).1
  have hq : u.ports[r]? = some q := List.getElem?_set_self hlt
  rw [State.sendBy_of_accepts hp hacc v]
  refine ⟨exec_send_of_free hp ha req, fun hl hw => ⟨_, rfl, ?alone⟩, fun hl => State.tryGrant_of_held hl,
    fun hl hex => ?several⟩
  case alone =>
    change u.Granted r u.tryGrant ∧ u.tryGrant.seqState = .dirTx ∧ u.tryGrant.reqId = r ∧ u.tryGrant.ports[r]? = some q ∧
      ∀ k b, req.cmd[k]? = some b → Memory.read u.tryGrant.cmd k = b
    have hwaits : u.lockWaiters = [r] := by change insertWaiter r s.lockWaiters = [r]; rw [hw]; rfl
    have hgranted : u.Granted r u.tryGrant := by
      rw [State.tryGrant_of_one (s := u) hl hwaits]
      exact State.grantTo_granted hq u.script u.draws
    obtain ⟨hstate, -, -, hid, -, -, -, -, -, hports, hcmd⟩ := hgranted.send q hq rfl
    refine ⟨hgranted, hstate, hid, by rw [hports, hq], fun k b hk => ?_⟩
    rw [hcmd k, hk, Option.getD_some]
  case several =>
    obtain ⟨w, hmem, hgranted⟩ := State.tryGrant_granted (s := u) hl (insertWaiter_ne_nil r _) (insertWaiter_exist hp hex)
    exact ⟨w, _, mem_insertWaiter.1 hmem, rfl, hgranted⟩

/-- Settles O30: the class is that of the character CLASS finds. -/
theorem classResult : Obligations.ClassResult := by
  intro s
  refine ⟨s.byteAt .cmd 1, fun hl hlen hmax => ?_, rfl⟩
  rw [State.byteAt_valid (by rw [State.valid_cmd hl]; omega), State.buf]

end Sys2Proof.Machine
end

section
/-! READLINE (R151 to R155): every turn of its loop leaves all but its own registers alone (`State.ReadsInto`), a retried turn
leaves the loop to go on with what is left (`State.readLoop_unfold`), and the loop ends by one of four turns. -/

namespace Sys2Proof.Machine

set_option Elab.async false

/-! ### The frame of a read -/

/-- The state with the registers READLINE may write blanked out: two states that agree so differ in those alone. -/
def State.unread (s : State) : State :=
  { s with rsp := [], rspLen := 0, srq := [], srqLen := 0, rxq := [], tRem := 0, decState := .waitStart, acc := 0#7,
           rxPar := false, rxPulseIdx := 0, rxUnitsLeft := 0, rxLevel := .marking,
           script := { setDirs := [], emits := [], captures := [], grants := [], allocs := [] }, draws := 0, envLog := [] }

/-- What `State.unread` says: an equation with the whole frame. -/
theorem State.eq_of_unread {s t : State} (h : t.unread = s.unread) :
    t = { s with rsp := t.rsp, rspLen := t.rspLen, srq := t.srq, srqLen := t.srqLen, rxq := t.rxq, tRem := t.tRem,
                 decState := t.decState, acc := t.acc, rxPar := t.rxPar, rxPulseIdx := t.rxPulseIdx,
                 rxUnitsLeft := t.rxUnitsLeft, rxLevel := t.rxLevel, script := t.script, draws := t.draws,
                 envLog := t.envLog } :=
  congrArg (fun u : State =>
    { u with rsp := t.rsp, rspLen := t.rspLen, srq := t.srq, srqLen := t.srqLen, rxq := t.rxq, tRem := t.tRem,
             decState := t.decState, acc := t.acc, rxPar := t.rxPar, rxPulseIdx := t.rxPulseIdx,
             rxUnitsLeft := t.rxUnitsLeft, rxLevel := t.rxLevel, script := t.script, draws := t.draws,
             envLog := t.envLog }) h

/-- What reading into `d` with capacity `cap` leaves: the registers of `State.unread` and the elements of the one buffer below
the capacity may change, the budget falls, and the canonical form stays. -/
structure State.ReadsInto (d : Dst) (cap : Nat) (s t : State) : Prop where
  frame : t.unread = s.unread
  budget : t.tRem ≤ s.tRem
  buffers : ∀ b, b ≠ dstBuf d → t.buf b = s.buf b
  lengths : ∀ e, e ≠ d → t.len e = s.len e
  past : ∀ j, cap ≤ j ∨ s.room d cap ≤ j → Memory.read (t.buf (dstBuf d)) j = Memory.read (s.buf (dstBuf d)) j
  canonical : Memory.wf (s.buf (dstBuf d)) → Memory.wf (t.buf (dstBuf d))

theorem State.ReadsInto.refl (d : Dst) (cap : Nat) (s : State) : State.ReadsInto d cap s s :=
  ⟨rfl, le_rfl, fun _ _ => rfl, fun _ _ => rfl, fun _ _ => rfl, id⟩

/-- A register that READLINE does not write reads as before. -/
theorem State.ReadsInto.keeps {d : Dst} {cap : Nat} {s t : State} (h : State.ReadsInto d cap s t) {α : Type} (f : State → α)
    (hf : ∀ u, f u.unread = f u) : f t = f s := by rw [← hf t, h.frame, hf]

theorem State.ReadsInto.trans {d : Dst} {cap : Nat} {s t u : State} (h : State.ReadsInto d cap s t)
    (g : State.ReadsInto d cap t u) : State.ReadsInto d cap s u := by
  have hroom : t.room d cap = s.room d cap := by
    cases d with
    | rsp => rfl
    | srq => exact congrArg Params.srqCap (h.keeps State.cfg fun _ => rfl)
  exact ⟨g.frame.trans h.frame, g.budget.trans h.budget, fun b hb => (g.buffers b hb).trans (h.buffers b hb),
    fun e he => (g.lengths e he).trans (h.lengths e he),
    fun j hj => (g.past j (by rw [hroom]; exact hj)).trans (h.past j hj), fun hw => g.canonical (h.canonical hw)⟩

theorem State.setLen_readsInto (d : Dst) (cap n : Nat) (s : State) : State.ReadsInto d cap s (s.setLen d n) where
  frame := by cases d <;> rfl
  budget := by rw [State.setLen_tRem]
  buffers b _ := by cases d <;> rfl
  lengths e he := by
    cases d with
    | rsp =>
      cases e with
      | rsp => exact absurd rfl he
      | srq => rfl
    | srq =>
      cases e with
      | rsp => rfl
      | srq => exact absurd rfl he
  past j _ := by cases d <;> rfl
  canonical h := by cases d <;> exact h

theorem State.envCapture_readsInto (d : Dst) (cap b : Nat) (s : State) : State.ReadsInto d cap s (s.envCapture b) :=
  ⟨rfl, le_rfl, fun b _ => by cases b <;> rfl, fun e _ => by cases e <;> rfl, fun j _ => by cases d <;> rfl,
    fun h => by cases d <;> exact h⟩

theorem State.takeCapture_readsInto (d : Dst) (cap : Nat) (ps : List Pulse) (elapsed : Nat) (s : State) :
    State.ReadsInto d cap s (s.takeCapture d cap ps elapsed) where
  frame := by cases d <;> rfl
  budget := by
    rw [State.takeCapture, State.decodeInto_tRem]
    exact Nat.sub_le _ _
  buffers b hb := by
    rw [State.takeCapture, State.decodeInto_otherBuf _ _ _ _ b hb]
    cases b <;> rfl
  lengths e he := by
    cases d with
    | rsp =>
      cases e with
      | rsp => exact absurd rfl he
      | srq => rfl
    | srq =>
      cases e with
      | rsp => rfl
      | srq => exact absurd rfl he
  past j hj := by
    rw [State.takeCapture, State.decodeInto_buf, State.decodeRun_read (by cases d <;> exact hj)]
    cases d <;> rfl
  canonical h := by
    rw [State.takeCapture, State.decodeInto_buf]
    exact decodeUnits_wf _ (by cases d <;> exact h)

theorem State.readTurn_readsInto (d : Dst) (cap : Nat) (s : State) : State.ReadsInto d cap s (s.readTurn d cap).2 := by
  rcases State.readTurn_cases d cap s with ⟨-, he⟩ | ⟨-, -, he⟩ | ⟨-, -, he⟩ | ⟨-, ps, e, -, he⟩
  · rw [he]; exact State.setLen_readsInto d cap 0 s
  · rw [he]; exact (State.envCapture_readsInto d cap _ s).trans (State.setLen_readsInto d cap 0 _)
  · rw [he]; exact (State.envCapture_readsInto d cap _ s).trans (State.setLen_readsInto d cap 0 _)
  · rw [he]; exact State.takeCapture_readsInto d cap ps e s

/-! ### The loop -/

/-- What holds before the loop and after every retried turn (`I`) holds when its last turn comes, whose outcome is the loop's
(`Q`). -/
theorem State.readLoop_induct {d : Dst} {cap : Nat} {I : State → Prop} {Q : Status → State → Prop}
    (retry : ∀ s t, I s → s.readTurn d cap = (none, t) → I t)
    (last : ∀ s st t, I s → s.readTurn d cap = (some st, t) → Q st t) :
    ∀ (n : Nat) (s : State), s.readFuel ≤ n → I s → Q (s.readLoop d cap n).1 (s.readLoop d cap n).2 := by
  intro n
  induction n with
  | zero => intro s h; simp [State.readFuel] at h
  | succ n ih =>
    intro s h hI
    rw [State.readLoop]
    rcases he : s.readTurn d cap with ⟨_ | st, t⟩
    · have hfuel : t.readFuel ≤ n := by
        have := State.readTurn_measure he
        simp only [State.readFuel] at h ⊢
        omega
      exact ih t hfuel (retry s t hI he)
    · exact last s st t hI he

/-- READLINE by its loop's turns. -/
theorem State.readLine_induct {d : Dst} {cap budget : Nat} {I : State → Prop} {Q : Status → State → Prop} {s : State}
    (start : I { s with tRem := budget }) (retry : ∀ s t, I s → s.readTurn d cap = (none, t) → I t)
    (last : ∀ s st t, I s → s.readTurn d cap = (some st, t) → Q st t) :
    Q (s.readLine d cap budget).1 (s.readLine d cap budget).2 :=
  State.readLoop_induct retry last _ _ le_rfl start

theorem State.readLine_readsInto (d : Dst) (cap budget : Nat) (s : State) :
    State.ReadsInto d cap { s with tRem := budget } (s.readLine d cap budget).2 := by
  refine State.readLine_induct (I := State.ReadsInto d cap { s with tRem := budget })
    (Q := fun _ t => State.ReadsInto d cap { s with tRem := budget } t) (.refl _ _ _) (fun u t hu he => ?_)
    (fun u st t hu he => ?_) <;>
  · have hturn := State.readTurn_readsInto d cap u
    rw [he] at hturn
    exact hu.trans hturn

/-- The outcome of READLINE: one of its four statuses with a length that goes with it (R151, R155). -/
structure State.Outcome (d : Dst) (cap : Nat) (st : Status) (t : State) : Prop where
  status : st = .ok ∨ st = .timeout ∨ st = .fail ∨ st = .invalidSize
  within : t.len d ≤ cap
  line : st = .ok → 1 ≤ t.len d
  nothing : st = .timeout → t.len d = 0

/-- A turn's status for a capture that ends the loop. -/
theorem lineStatus_eq_some {st r : Status} {len : Nat} (h : lineStatus st len = some r) :
    r = st ∧ st ≠ .notFound ∧ (st = .ok → len ≠ 0) := by
  cases st <;> simp [lineStatus] at h ⊢ <;> grind

theorem State.takenStatus_cases (d : Dst) (cap : Nat) (ps : List Pulse) (s : State) :
    s.takenStatus d cap ps = .ok ∨ s.takenStatus d cap ps = .fail ∨ s.takenStatus d cap ps = .invalidSize ∨
      s.takenStatus d cap ps = .notFound := decodePulses_status _ _ _

theorem State.takeCapture_len_le (d : Dst) (cap : Nat) (ps : List Pulse) (e : Nat) (s : State) :
    (s.takeCapture d cap ps e).len d ≤ cap := by
  rw [State.takeCapture, State.decodeInto_len]
  exact State.decodeRun_len_le _ _ _ _

/-- The turn that ends the loop gives its outcome. -/
theorem State.readTurn_outcome {d : Dst} {cap : Nat} {s t : State} {st : Status}
    (h : s.readTurn d cap = (some st, t)) : State.Outcome d cap st t := by
  rcases State.readTurn_cases d cap s with ⟨-, he⟩ | ⟨-, -, he⟩ | ⟨-, -, he⟩ | ⟨-, ps, e, -, he⟩
  all_goals
    rw [he, Prod.mk.injEq] at h
    obtain ⟨hst, rfl⟩ := h
  · obtain rfl := Option.some.inj hst
    exact ⟨.inr (.inl rfl), by simp, (nomatch ·), fun _ => State.setLen_len _ _ _⟩
  · obtain rfl := Option.some.inj hst
    exact ⟨.inr (.inl rfl), by simp, (nomatch ·), fun _ => State.setLen_len _ _ _⟩
  · obtain rfl := Option.some.inj hst
    exact ⟨.inr (.inr (.inl rfl)), by simp, (nomatch ·), (nomatch ·)⟩
  · obtain ⟨rfl, hfound, hpos⟩ := lineStatus_eq_some hst
    have hcases := State.takenStatus_cases d cap ps s
    refine ⟨?_, State.takeCapture_len_le d cap ps e s, fun hok => Nat.pos_of_ne_zero (hpos hok), fun htime => ?_⟩
    · tauto
    · rw [htime] at hcases
      simp at hcases

theorem State.readLine_outcome (d : Dst) (cap budget : Nat) (s : State) :
    State.Outcome d cap (s.readLine d cap budget).1 (s.readLine d cap budget).2 :=
  State.readLine_induct (I := fun _ => True) (Q := State.Outcome d cap) trivial (fun _ _ _ _ => trivial)
    (fun _ _ _ _ h => State.readTurn_outcome h)

/-! ### The number of captures (R240) -/

/-- A capture of a scripted answer that keeps the contract lasts 1 TT or more, and so does a free one (R190 (3)). -/
theorem State.captureAnswer_elapsed {s : State} (hk : s.ScriptKeepsContract) {budget : Nat} (hb : budget ≠ 0)
    {ps : List Pulse} {e : Nat} (h : s.captureAnswer budget = .captured ps e) : 1 ≤ e := by
  rw [State.captureAnswer] at h
  cases hs : s.script.captures with
  | nil =>
    rw [hs, List.headD_nil] at h
    exact (boundElapsed_contract (Nat.pos_of_ne_zero hb) h).1
  | cons c cs =>
    rw [hs, List.headD_cons] at h
    exact hk ps e (by rw [hs, h]; exact List.mem_cons_self)

/-- A turn costs a capture at most 1 TT of the budget, the last one apart, and what is left of the script keeps the contract. -/
theorem State.readTurn_captures {d : Dst} {cap : Nat} {s t : State} {r : Option Status} (hk : s.ScriptKeepsContract)
    (h : s.readTurn d cap = (r, t)) : t.ScriptKeepsContract ∧ t.envLog.length ≤ s.envLog.length + s.tRem ∧
      (r = none → t.envLog.length + t.tRem ≤ s.envLog.length + s.tRem) := by
  have htail : ∀ ps e, Capture.captured ps e ∈ s.script.captures.tail → 1 ≤ e :=
    fun ps e he => hk ps e (List.mem_of_mem_tail he)
  rcases State.readTurn_cases d cap s with ⟨-, he⟩ | ⟨h0, -, he⟩ | ⟨h0, -, he⟩ | ⟨h0, ps, e, ha, he⟩
  all_goals
    rw [he, Prod.mk.injEq] at h
    obtain ⟨rfl, rfl⟩ := h
  · refine ⟨?_, by simp, (nomatch ·)⟩
    intro ps e
    rw [State.setLen_script]
    exact hk ps e
  · refine ⟨?_, ?_, (nomatch ·)⟩
    · intro ps e
      rw [State.setLen_script, State.envCapture_script]
      exact htail ps e
    · rw [State.setLen_envLog, State.envCapture_envLog, List.length_cons]
      omega
  · refine ⟨?_, ?_, (nomatch ·)⟩
    · intro ps e
      rw [State.setLen_script, State.envCapture_script]
      exact htail ps e
    · rw [State.setLen_envLog, State.envCapture_envLog, List.length_cons]
      omega
  · have hpos := State.captureAnswer_elapsed hk h0 ha
    have hlog : (s.takeCapture d cap ps e).envLog.length = s.envLog.length + 1 := by
      rw [State.takeCapture, State.decodeInto_envLog]
      exact List.length_cons
    have htrem : (s.takeCapture d cap ps e).tRem = s.tRem - min e s.tRem := by rw [State.takeCapture, State.decodeInto_tRem]
    refine ⟨?_, by omega, fun _ => by omega⟩
    intro qs f
    rw [State.takeCapture, State.decodeInto_script]
    exact htail qs f

/-- READLINE makes at most as many captures as its budget has TT. -/
theorem State.readLine_captures {d : Dst} {cap budget : Nat} {s : State} (hk : s.ScriptKeepsContract) :
    (s.readLine d cap budget).2.envLog.length ≤ s.envLog.length + budget := by
  refine State.readLine_induct
    (I := fun u => u.ScriptKeepsContract ∧ u.envLog.length + u.tRem ≤ s.envLog.length + budget)
    (Q := fun _ t => t.envLog.length ≤ s.envLog.length + budget) ⟨hk, le_rfl⟩ ?_ ?_
  · rintro u t ⟨hku, hle⟩ he
    obtain ⟨hkt, -, hdone⟩ := State.readTurn_captures hku he
    exact ⟨hkt, (hdone rfl).trans hle⟩
  · rintro u st t ⟨hku, hle⟩ he
    obtain ⟨-, hlog, -⟩ := State.readTurn_captures hku he
    exact hlog.trans hle

/-! ### The statements -/

/-- READLINE from outside, where it may be called (R151, R190, R247). -/
theorem exec_readline {s : State} (hb : s.busValid = true) (hq : s.seqState = .idle) {budget : Nat}
    (h : budget = 0 ∨ s.lockHeld = true ∧ s.dirMode = .receive) (d : Dst) (cap : Nat) :
    exec (.readline d cap budget) s = .next { (s.readLine d cap budget).2 with
      ret := .line (s.readLine d cap budget).1 ((s.readLine d cap budget).2.len d) } := by
  have hlock : ¬(budget ≠ 0 ∧ s.lockHeld = false) := by
    rintro ⟨h0, hl⟩
    rcases h with h | ⟨h, -⟩
    · exact h0 h
    · exact nomatch h.symm.trans hl
  have hdir : ¬(budget ≠ 0 ∧ s.dirMode ≠ .receive) := by tauto
  change execReadline d cap budget s = _
  simp only [execReadline, hb, hq, hlock, hdir, Bool.true_eq_false, if_false, ne_eq, not_true_eq_false]

/-- Settles O31: the loop's outcome and frame. -/
theorem readlineResult : Obligations.ReadlineResult := by
  intro d cap budget s hb hq h
  have hframe := State.readLine_readsInto d cap budget s
  have hout := State.readLine_outcome d cap budget s
  have heq := State.eq_of_unread hframe.frame
  refine ⟨_, _, _, exec_readline hb hq h d cap, ?_, hout.status, hout.within, hout.line, hout.nothing, hframe.budget, ?_, ?_,
    fun j hj => ?_, fun hk => State.readLine_captures hk⟩
  · exact congrArg (fun u : State => { u with
      ret := .line (s.readLine d cap budget).1 ((s.readLine d cap budget).2.len d) }) heq
  · rintro rfl
    exact ⟨hframe.buffers .srq (nomatch ·), hframe.lengths .srq (nomatch ·), rfl⟩
  · rintro rfl
    exact ⟨hframe.buffers .rsp (nomatch ·), hframe.lengths .rsp (nomatch ·), rfl⟩
  · have hpast := hframe.past j (hj.imp id fun ⟨hd, hs⟩ => by subst hd; exact hs)
    cases d <;> exact hpast

/-- READLINE whose first turn ends it is that turn. -/
theorem State.readLine_of_last {d : Dst} {cap budget : Nat} {s t : State} {st : Status}
    (h : State.readTurn d cap { s with tRem := budget } = (some st, t)) : s.readLine d cap budget = (st, t) := by
  rw [State.readLine, State.readLoop_unfold, h]

/-- READLINE whose first turn is retried goes on with what is left of the budget (R152, R153). -/
theorem State.readLine_of_retry {d : Dst} {cap budget : Nat} {s t : State}
    (h : State.readTurn d cap { s with tRem := budget } = (none, t)) :
    s.readLine d cap budget = t.readLine d cap t.tRem := by
  rw [State.readLine, State.readLoop_unfold, h]
  rfl

theorem State.takeCapture_tRem (d : Dst) (cap : Nat) (ps : List Pulse) (elapsed : Nat) (s : State) :
    (s.takeCapture d cap ps elapsed).tRem = s.tRem - min elapsed s.tRem := by rw [State.takeCapture, State.decodeInto_tRem]

theorem State.takeCapture_rxq {d : Dst} {cap : Nat} {ps : List Pulse} {elapsed : Nat} {s : State}
    (h : s.captureAnswer s.tRem = .captured ps elapsed) : (s.takeCapture d cap ps elapsed).rxq = ps := by
  rw [State.takeCapture, State.decodeInto_rxq]
  exact congrArg (capturedInto s.rxq) h

/-- A turn with the budget used up (R151). -/
theorem State.readTurn_of_zero {d : Dst} {cap : Nat} {s : State} (h0 : s.tRem = 0) :
    s.readTurn d cap = (some .timeout, s.setLen d 0) := if_pos h0

theorem State.readTurn_of_timeout {d : Dst} {cap : Nat} {s : State} (h0 : s.tRem ≠ 0)
    (hc : s.captureAnswer s.tRem = .timeout) :
    s.readTurn d cap = (some .timeout, (s.envCapture s.tRem).setLen d 0) := by
  simp only [State.readTurn, if_neg h0, hc]

theorem State.readTurn_of_fail {d : Dst} {cap : Nat} {s : State} (h0 : s.tRem ≠ 0)
    (hc : s.captureAnswer s.tRem = .fail) :
    s.readTurn d cap = (some .fail, (s.envCapture s.tRem).setLen d 0) := by
  simp only [State.readTurn, if_neg h0, hc]

/-- A turn with a capture, by what it decodes to. -/
theorem State.readTurn_of_captured {d : Dst} {cap : Nat} {s : State} {ps : List Pulse} {elapsed : Nat} (h0 : s.tRem ≠ 0)
    (hc : s.captureAnswer s.tRem = .captured ps elapsed) : s.readTurn d cap =
      (lineStatus (s.takenStatus d cap ps) ((s.takeCapture d cap ps elapsed).len d), s.takeCapture d cap ps elapsed) := by
  simp only [State.readTurn, if_neg h0, hc]

/-- A blank line or an incomplete capture is retried (R152, R153). -/
theorem lineStatus_retry {st : Status} {len : Nat} (h : st = .notFound ∨ (st = .ok ∧ len = 0)) :
    lineStatus st len = none := by
  rcases h with rfl | ⟨rfl, rfl⟩ <;> rfl

/-- A codec error is terminal (R154). -/
theorem lineStatus_error {st : Status} {len : Nat} (h : st = .fail ∨ st = .invalidSize) :
    lineStatus st len = some st := by
  rcases h with rfl | rfl <;> rfl

/-- Settles O32: READLINE by its first turn. -/
theorem readlineRule : Obligations.ReadlineRule := by
  intro d cap s hb hq
  have hzero : s.readLine d cap 0 = _ := State.readLine_of_last (State.readTurn_of_zero rfl)
  refine ⟨⟨_, exec_readline hb hq (.inl rfl) d cap, ?_, ?_⟩, fun hl hd budget c rest hbudget hcap => ?_⟩
  · rw [hzero, State.setLen_len]
  · rw [hzero, State.setLen_envLog]
  have hexec := exec_readline (budget := budget) hb hq (.inr ⟨hl, hd⟩) d cap
  have h0 : State.tRem { s with tRem := budget } ≠ 0 := Nat.pos_iff_ne_zero.1 hbudget
  have hanswer : State.captureAnswer budget { s with tRem := budget } = c := by rw [State.captureAnswer, hcap, List.headD_cons]
  refine ⟨?timeout, ?fail, ?captured⟩
  case timeout =>
    rintro rfl
    rw [State.readLine_of_last (State.readTurn_of_timeout h0 hanswer), State.setLen_len] at hexec
    exact ⟨_, hexec, rfl⟩
  case fail =>
    rintro rfl
    rw [State.readLine_of_last (State.readTurn_of_fail h0 hanswer), State.setLen_len] at hexec
    exact ⟨_, hexec, rfl⟩
  case captured =>
    rintro ps elapsed rfl u st
    have hturn : State.readTurn d cap { s with tRem := budget } = (lineStatus st (u.len d), u) :=
      State.readTurn_of_captured h0 hanswer
    have htrem : u.tRem = budget - min elapsed budget := State.takeCapture_tRem ..
    refine ⟨htrem, State.takeCapture_rxq hanswer, fun hst hlen => ?line, fun hst => ?error, fun hst => ?retry⟩
    case line =>
      rw [hst, lineStatus, if_neg hlen] at hturn
      rw [hexec, State.readLine_of_last hturn]
    case error =>
      rw [lineStatus_error hst] at hturn
      rw [hexec, State.readLine_of_last hturn]
    case retry =>
      rw [lineStatus_retry hst] at hturn
      have hframe : State.ReadsInto d cap { s with tRem := budget } u := State.takeCapture_readsInto d cap ps elapsed _
      have hdir : u.dirMode = .receive := (hframe.keeps State.dirMode fun _ => rfl).trans hd
      have hlock : u.lockHeld = true := (hframe.keeps State.lockHeld fun _ => rfl).trans hl
      have hbus : u.busValid = true := (hframe.keeps State.busValid fun _ => rfl).trans hb
      have hidle : u.seqState = .idle := (hframe.keeps State.seqState fun _ => rfl).trans hq
      rw [hexec, State.readLine_of_retry hturn, htrem, exec_readline hbus hidle (.inr ⟨hlock, hdir⟩)]

end Sys2Proof.Machine
end

section
/-! The CMD rows (R71, R72, R156 to R162): a row is `State.verbRow` of its character (`exec_row`), whose class decides which of the
steps 4 and 5 runs. -/

namespace Sys2Proof.Machine

set_option Elab.async false

/-! ### The seconds field (R69) -/

theorem isDigit_iff (b : Byte) : isDigit b = true ↔ 48 ≤ b.toNat ∧ b.toNat ≤ 57 := by
  rw [isDigit, decide_eq_true_eq]

/-- Three characters are the seconds `n` exactly where they are the digits of `n`. -/
theorem secondsOf_eq_some_iff (x y z : Byte) (n : Nat) : secondsOf x y z = some n ↔ ∃ a b c, a ≤ 9 ∧ b ≤ 9 ∧ c ≤ 9 ∧
    x.toNat = 48 + a ∧ y.toNat = 48 + b ∧ z.toNat = 48 + c ∧ n = 100 * a + 10 * b + c := by
  have hdigits : (isDigit x && isDigit y && isDigit z) = true ↔ (48 ≤ x.toNat ∧ x.toNat ≤ 57) ∧
      (48 ≤ y.toNat ∧ y.toNat ≤ 57) ∧ 48 ≤ z.toNat ∧ z.toNat ≤ 57 := by
    rw [Bool.and_eq_true, Bool.and_eq_true, isDigit_iff, isDigit_iff, isDigit_iff, and_assoc]
  unfold secondsOf
  constructor
  · intro h
    split at h
    · next hd =>
      obtain ⟨hx, hy, hz⟩ := hdigits.1 hd
      have hn := Option.some.inj h
      simp only [digitValue] at hn
      exact ⟨x.toNat - 48, y.toNat - 48, z.toNat - 48, by omega, by omega, by omega, by omega, by omega, by omega, by omega⟩
    · cases h
  · rintro ⟨a, b, c, ha, hb, hc, hx, hy, hz, rfl⟩
    rw [if_pos (hdigits.2 (by omega)), digitValue, digitValue, digitValue, hx, hy, hz]
    simp

/-- The seconds of a first line (R69, R157). -/
theorem State.secondsField_eq_some_iff (s : State) (n : Nat) : s.secondsField = some n ↔ 4 ≤ s.rspLen ∧ ∃ a b c,
    a ≤ 9 ∧ b ≤ 9 ∧ c ≤ 9 ∧ (Memory.read s.rsp 1).toNat = 48 + a ∧ (Memory.read s.rsp 2).toNat = 48 + b ∧
    (Memory.read s.rsp 3).toNat = 48 + c ∧ n = 100 * a + 10 * b + c := by
  rw [State.secondsField, ← secondsOf_eq_some_iff]
  split
  · next h => simp only [reduceCtorEq, false_iff, not_and]; omega
  · next h => rw [and_iff_right (by omega)]

theorem State.secondsField_le {s : State} {n : Nat} (h : s.secondsField = some n) : n ≤ 999 := by
  obtain ⟨-, a, b, c, ha, hb, hc, -, -, -, rfl⟩ := (State.secondsField_eq_some_iff s n).1 h
  omega

/-- Settles O40: the field's three digits (`State.secondsField_eq_some_iff`). -/
theorem secondsField : Obligations.SecondsField :=
  fun s => ⟨State.secondsField_eq_some_iff s, fun _ => State.secondsField_le⟩

/-- A line without three digits in its place has no seconds. -/
theorem State.secondsField_eq_none {s : State} (h : ¬(4 ≤ s.rspLen ∧ ∀ k, 1 ≤ k → k ≤ 3 →
    48 ≤ (Memory.read s.rsp k).toNat ∧ (Memory.read s.rsp k).toNat ≤ 57)) : s.secondsField = none := by
  rw [Option.eq_none_iff_forall_not_mem]
  intro n hn
  obtain ⟨hlen, a, b, c, ha, hb, hc, h1, h2, h3, -⟩ := (State.secondsField_eq_some_iff s n).1 hn
  refine h ⟨hlen, fun k hk1 hk3 => ?_⟩
  obtain rfl | rfl | rfl : k = 1 ∨ k = 2 ∨ k = 3 := by omega
  all_goals omega

/-! ### A row by its class -/

/-- A CMD row is run by its character. -/
theorem exec_row {i : Instr} {v : Byte} (h : rowOf i v) (s : State) : exec i s = s.verbRow v := by
  rcases h with ⟨rfl, rfl⟩ | ⟨rfl, rfl⟩ | ⟨rfl, rfl⟩ | ⟨rfl, rfl⟩ | ⟨rfl, rfl⟩ | ⟨rfl, rfl⟩ | rfl <;> rfl

/-- A member of `HV_SET` is of class `MEAS` whatever else it is (R71). -/
theorem classOf_of_mem {cfg : Params} {v : Byte} (h : v ∈ cfg.hvSet) : classOf cfg v = .meas := if_pos (.inr (.inr h))

/-- The measurement rows, each with its condition, are the rows of class `MEAS`. -/
theorem row_meas {i : Instr} {cfg : Params}
    (h : i = .cmdM ∨ i = .cmdV ∨ (i = .cmdH ∧ 0x48#8 ∈ cfg.hvSet) ∨
      (i = .cmdC ∧ (0x43#8 ∈ cfg.hvSet ∨ cfg.cWaits = true)) ∨ (i = .cmdD ∧ 0x44#8 ∈ cfg.hvSet) ∨
      (i = .cmdR ∧ 0x52#8 ∈ cfg.hvSet) ∨ ∃ v, i = .cmdDefault v ∧ v ∈ cfg.hvSet) :
    ∃ v, rowOf i v ∧ classOf cfg v = .meas := by
  rcases h with rfl | rfl | ⟨rfl, hv⟩ | ⟨rfl, hv | hw⟩ | ⟨rfl, hv⟩ | ⟨rfl, hv⟩ | ⟨v, rfl, hv⟩
  · exact ⟨chM, .inl ⟨rfl, rfl⟩, if_pos (.inl rfl)⟩
  · exact ⟨chV, .inr (.inl ⟨rfl, rfl⟩), if_pos (.inr (.inl rfl))⟩
  · exact ⟨0x48#8, .inr (.inr (.inl ⟨rfl, rfl⟩)), classOf_of_mem hv⟩
  · exact ⟨chC, .inr (.inr (.inr (.inl ⟨rfl, rfl⟩))), classOf_of_mem hv⟩
  · refine ⟨chC, .inr (.inr (.inr (.inl ⟨rfl, rfl⟩))), ?_⟩
    unfold classOf
    split
    · rfl
    · exact if_pos ⟨hw, rfl⟩
  · exact ⟨chD, .inr (.inr (.inr (.inr (.inl ⟨rfl, rfl⟩)))), classOf_of_mem hv⟩
  · exact ⟨chR, .inr (.inr (.inr (.inr (.inr (.inl ⟨rfl, rfl⟩))))), classOf_of_mem hv⟩
  · exact ⟨v, .inr (.inr (.inr (.inr (.inr (.inr rfl))))), classOf_of_mem hv⟩

/-- A row's steps on a first line that was received, where they need no capture or may make one (R156, R190, R247). -/
theorem State.verbRow_of_ok {s : State} {v : Byte} (hq : s.seqState = .idle) (hb : s.busValid = true) (hs : s.status = .ok)
    (h : classOf s.cfg v = .meas → 0 < s.secondsField.getD 0 → s.lockHeld = true ∧ s.dirMode = .receive) :
    s.verbRow v = .next { s.classSteps (classOf s.cfg v) with ret := .cls (classOf s.cfg v) } := by
  have hdone : ¬(s.busValid = false ∨ s.status ≠ .ok) := by simp [hb, hs]
  have hlock : ¬(classOf s.cfg v = .meas ∧ 0 < s.secondsField.getD 0 ∧ s.lockHeld = false) := by
    rintro ⟨hm, hn, hl⟩
    exact nomatch hl.symm.trans (h hm hn).1
  have hdir : ¬(classOf s.cfg v = .meas ∧ 0 < s.secondsField.getD 0 ∧ s.dirMode ≠ .receive) :=
    fun ⟨hm, hn, hd⟩ => hd (h hm hn).2
  simp only [State.verbRow, hq, hdone, hlock, hdir, if_false, ne_eq, not_true_eq_false]

/-- Settles O33: no capture is made in either case. -/
theorem measRows : Obligations.MeasRows := by
  intro i s hb hq hs hi
  obtain ⟨v, hrow, hclass⟩ := row_meas hi
  rw [exec_row hrow]
  refine ⟨fun hbad => ?_, fun hlen hzero => ?_⟩
  · have hnone := State.secondsField_eq_none hbad
    rw [State.verbRow_of_ok hq hb hs (by simp [hnone]), hclass]
    simp only [State.classSteps, hnone]
  · have hsome : s.secondsField = some 0 := (State.secondsField_eq_some_iff s 0).2
      ⟨hlen, 0, 0, 0, by omega, by omega, by omega, hzero 1 (by omega) (by omega), hzero 2 (by omega) (by omega),
        hzero 3 (by omega) (by omega), rfl⟩
    rw [State.verbRow_of_ok hq hb hs (by simp [hsome]), hclass]
    simp only [State.classSteps, hsome, State.awaitService, if_true]

/-- The status after the second phase, by its rule (R160). -/
theorem State.srqStatus_eq (st : Status) (s : State) : s.srqStatus st =
    if st = .timeout then .notFinished else if st ≠ .ok then st
    else if Memory.read s.srq 0 = s.asked then .ok else .invalidResponse := by
  cases st <;> simp [State.srqStatus]

/-- Under the lock the character a service request must begin with is the command's first (R160). -/
theorem State.asked_of_lock {s : State} (hl : s.lockHeld = true) (hlen : 1 ≤ s.cmdLen) (hmax : 1 ≤ s.cfg.cmdMax) :
    s.asked = Memory.read s.cmd 0 := State.asked_valid (by rw [State.valid_cmd hl]; omega)

/-- Settles O34: the row is READLINE into `SRQ` and the status that its outcome gives. -/
theorem measRowsWait : Obligations.MeasRowsWait := by
  intro i a b c s hq hs hb hl hd hlen ha hb9 hc hpos h1 h2 h3 hi
  obtain ⟨v, hrow, hclass⟩ := row_meas hi
  have hsome : s.secondsField = some (100 * a + 10 * b + c) :=
    (State.secondsField_eq_some_iff s _).2 ⟨hlen, a, b, c, ha, hb9, hc, h1, h2, h3, rfl⟩
  rw [exec_row hrow, State.verbRow_of_ok hq hb hs (fun _ _ => ⟨hl, hd⟩), hclass]
  simp only [State.classSteps, hsome, State.awaitService, if_neg hpos.ne']
  generalize 100 * a + 10 * b + c = n
  have hframe := State.readLine_readsInto .srq s.cfg.srqCap (n * 1000) { s with seconds := n }
  have hread := exec_readline (s := { s with seconds := n }) (budget := n * 1000) hb hq (.inr ⟨hl, hd⟩) .srq s.cfg.srqCap
  generalize State.readLine .srq s.cfg.srqCap (n * 1000) { s with seconds := n } = r at hframe hread ⊢
  refine ⟨_, r.1, _, r.2.asked, hread, rfl, fun hlen1 hmax => ?_, by rw [State.srqStatus_eq],
    hframe.buffers .rsp (nomatch ·), hframe.lengths .rsp (nomatch ·), hframe.keeps State.seconds fun _ => rfl⟩
  have hcmd := hframe.keeps State.cmd fun _ => rfl
  have hcmdLen := hframe.keeps State.cmdLen fun _ => rfl
  have hcfg := hframe.keeps State.cfg fun _ => rfl
  have hlock := hframe.keeps State.lockHeld fun _ => rfl
  exact (State.asked_of_lock (hlock.trans hl) (hcmdLen ▸ hlen1) (hcfg ▸ hmax)).trans (congrArg (Memory.read · 0) hcmd)

/-! ### The data rows -/

/-- The classes of `D` and `R` outside `HV_SET` (R71). -/
theorem row_data {i : Instr} {cfg : Params} (h : (i = .cmdD ∧ 0x44#8 ∉ cfg.hvSet) ∨ (i = .cmdR ∧ 0x52#8 ∉ cfg.hvSet)) :
    ∃ v, rowOf i v ∧ classOf cfg v = .data := by
  rcases h with ⟨rfl, hv⟩ | ⟨rfl, hv⟩
  · refine ⟨chD, .inr (.inr (.inr (.inr (.inl ⟨rfl, rfl⟩)))), ?_⟩
    have hne : chD ≠ chM ∧ chD ≠ chV ∧ chD ≠ chC := by decide
    have hset : chD ∉ cfg.hvSet := hv
    simp [classOf, hne, hset]
  · refine ⟨chR, .inr (.inr (.inr (.inr (.inr (.inl ⟨rfl, rfl⟩))))), ?_⟩
    have hne : chR ≠ chM ∧ chR ≠ chV ∧ chR ≠ chC ∧ chR ≠ chD := by decide
    have hset : chR ∉ cfg.hvSet := hv
    simp [classOf, hne, hset]

/-- VERIFY from outside on a Bus leaves the running value that the sequencer's VERIFY leaves. -/
theorem exec_verify_of_bus {s : State} (hb : s.busValid = true) : exec .verify s = .next { s with
    crc := s.afterVerify.crc, ret := .status (if s.verifies then .ok else .invalidChecksum) } :=
  congrArg Host.Outcome.next (State.onBus_of_bus hb _)

/-- A line that verifies has three characters or more (R135). -/
theorem State.three_le_of_verifies {s : State} (h : s.verifies = true) : 3 ≤ s.rspLen :=
  Nat.not_lt.1 fun hlt => State.not_verifies_of_short hlt h

theorem State.checkData_unchecked {s : State} (hr : s.requireCrc = false) : s.checkData = s := by
  rw [State.checkData, hr, if_neg Bool.false_ne_true]

theorem State.checkData_verified {s : State} (hr : s.requireCrc = true) (hv : s.verifies = true) :
    s.checkData = s.afterVerify.strip := by rw [State.checkData, if_pos hr, if_pos hv]

theorem State.checkData_corrupt {s : State} (hr : s.requireCrc = true) (hv : ¬s.verifies = true) :
    s.checkData = { s.afterVerify with status := .invalidChecksum } := by rw [State.checkData, if_pos hr, if_neg hv]

/-- Settles O35: step 5 of SEND on the line, verified or not. -/
theorem dataRows : Obligations.DataRows := by
  intro i s hb hq hs hi
  obtain ⟨v, hrow, hclass⟩ := row_data hi
  rw [exec_row hrow, State.verbRow_of_ok hq hb hs (by rw [hclass]; exact (nomatch ·)), hclass]
  rw [State.classSteps]
  refine ⟨fun hr => ?_, fun hr => ⟨_, _, exec_verify_of_bus hb, fun hok => ?_, fun hbad => ?_⟩⟩
  · rw [State.checkData_unchecked hr]
  · have hv : s.verifies = true := by
      by_contra hv
      rw [if_neg hv] at hok
      cases hok
    rw [State.checkData_verified hr hv]
    exact ⟨State.three_le_of_verifies hv, _, rfl, rfl, Memory.read_write_same s.rsp (s.rspLen - 3) chNul,
      fun j hj => Memory.read_write_ne s.rsp chNul hj⟩
  · have hv : ¬s.verifies = true := by
      intro hv
      rw [if_pos hv] at hbad
      cases hbad
    rw [State.checkData_corrupt hr hv]
    rfl

/-! ### The other rows -/

/-- A second character of no row but the default one, and outside `HV_SET`, is of class `OTHER` (R71). -/
theorem classOf_other {cfg : Params} {v : Byte} (hset : v ∉ cfg.hvSet) (hM : v ≠ chM) (hV : v ≠ chV)
    (hC : v = chC → cfg.cWaits = false) (hD : v ≠ chD) (hR : v ≠ chR) : classOf cfg v = .other := by
  have hwait : ¬(cfg.cWaits = true ∧ v = chC) := fun ⟨hw, hv⟩ => nomatch hw.symm.trans (hC hv)
  simp only [classOf, hset, hM, hV, hwait, hD, hR, or_self, if_false]

/-- The rows whose condition is false, and the default row outside `HV_SET`, are of class `OTHER` (R80). -/
theorem row_other {i : Instr} {cfg : Params} (hw : i.WellFormed)
    (h : (i = .cmdH ∧ 0x48#8 ∉ cfg.hvSet) ∨ (i = .cmdC ∧ 0x43#8 ∉ cfg.hvSet ∧ cfg.cWaits = false) ∨
      (∃ v, i = .cmdDefault v ∧ v ∉ cfg.hvSet)) : ∃ v, rowOf i v ∧ classOf cfg v = .other := by
  rcases h with ⟨rfl, hv⟩ | ⟨rfl, hv, hwait⟩ | ⟨v, rfl, hv⟩
  · exact ⟨0x48#8, .inr (.inr (.inl ⟨rfl, rfl⟩)), classOf_other hv (by decide) (by decide) (nomatch ·) (by decide) (by decide)⟩
  · exact ⟨chC, .inr (.inr (.inr (.inl ⟨rfl, rfl⟩))),
      classOf_other hv (by decide) (by decide) (fun _ => hwait) (by decide) (by decide)⟩
  · have hmem : v ∉ verbsWithRow := fun hmem => by
      rw [Instr.WellFormed, Instr.illFormed?, if_pos hmem] at hw
      cases hw
    refine ⟨v, .inr (.inr (.inr (.inr (.inr (.inr rfl))))), classOf_other hv ?_ ?_ (fun hc => ?_) ?_ ?_⟩
    · rintro rfl; exact hmem (by decide)
    · rintro rfl; exact hmem (by decide)
    · exact absurd (by rw [hc]; decide) hmem
    · rintro rfl; exact hmem (by decide)
    · rintro rfl; exact hmem (by decide)

/-- A row after an error, or without a Bus, answers its class (R156, R250). -/
theorem State.verbRow_of_done {s : State} {v : Byte} (hq : s.seqState = .idle) (h : s.busValid = false ∨ s.status ≠ .ok) :
    s.verbRow v = .next { s with ret := .cls (classOf s.cfg v) } := by
  simp only [State.verbRow, hq, h, if_true, if_false, ne_eq, not_true_eq_false]

/-- Settles O36: a row of class `OTHER` does nothing whether a line was received or not. -/
theorem otherRows : Obligations.OtherRows := by
  intro i s hq hw
  refine ⟨fun hi => ?other, fun v hrow hdone => ?done, fun v n hrow hs hb hclass hsec hn => ?waiting⟩
  case other =>
    obtain ⟨v, hrow, hclass⟩ := row_other hw hi
    rw [exec_row hrow]
    by_cases hdone : s.busValid = false ∨ s.status ≠ .ok
    · rw [State.verbRow_of_done hq hdone, hclass]
    · simp only [not_or, Bool.not_eq_false, not_not] at hdone
      rw [State.verbRow_of_ok hq hdone.1 hdone.2 (by rw [hclass]; exact (nomatch ·)), hclass, State.classSteps]
  case done => rw [exec_row hrow, State.verbRow_of_done hq hdone.symm]
  case waiting =>
    have hdone : ¬(s.busValid = false ∨ s.status ≠ .ok) := by simp [hb, hs]
    rw [exec_row hrow]
    refine ⟨fun hl => ?_, fun hl hd => ?_⟩
    · simp [State.verbRow, hq, hdone, hclass, hsec, hn, hl]
    · simp [State.verbRow, hq, hdone, hclass, hsec, hn, hl, hd]

/-! ### The receive phases without a line -/

theorem State.sequence_of_rx2 {s : State} (h : s.seqState = .rx2) : s.sequence = s.stepRx2 := by
  rw [State.sequence, h]

/-- A first phase whose turn is retried stays (R152, R153). -/
theorem State.stepRx1_of_retry {s t : State} (h : s.readTurn .rsp s.rspCap = (none, t)) : s.stepRx1 = t := by
  rw [State.stepRx1, h]

/-- A first phase whose turn ends with an error goes to the restore step (R154, R155, R236). -/
theorem State.stepRx1_of_error {s t : State} {st : Status} (h : s.readTurn .rsp s.rspCap = (some st, t)) (hne : st ≠ .ok) :
    s.stepRx1 = t.raise st := by
  rw [State.stepRx1, h]
  cases st with
  | ok => exact absurd rfl hne
  | _ => rfl

/-- A second phase whose turn is retried stays (R159). -/
theorem State.stepRx2_of_retry {s t : State} (h : s.readTurn .srq s.cfg.srqCap = (none, t)) : s.stepRx2 = t := by
  rw [State.stepRx2, h]

/-- A second phase whose turn ends goes to the restore step with the status of R160. -/
theorem State.stepRx2_of_last {s t : State} {st : Status} (h : s.readTurn .srq s.cfg.srqCap = (some st, t)) :
    s.stepRx2 = { t with seqState := .restore, status := firstError t.status (t.srqStatus st) } := by
  rw [State.stepRx2, h]
  dsimp only
  split
  · next hok =>
    rw [hok, State.toRestore, firstError]
    split_ifs with ht
    · rw [← ht]
    · rfl
  · rfl

/-- Settles O38: each way a turn of the first phase gives no line. -/
theorem firstPhaseNoLine : Obligations.FirstPhaseNoLine := by
  intro s hi hq
  rw [step_of_no_inputs hi, State.sequence_of_rx1 hq]
  refine ⟨fun h0 => ?zero, fun h0 hc => ?timeout, fun h0 hc => ?fail, fun ps elapsed h0 hc => ?captured⟩
  case zero => rw [State.stepRx1_of_error (State.readTurn_of_zero h0) (nomatch ·)]; rfl
  case timeout => rw [State.stepRx1_of_error (State.readTurn_of_timeout h0 hc) (nomatch ·)]; rfl
  case fail => rw [State.stepRx1_of_error (State.readTurn_of_fail h0 hc) (nomatch ·)]; rfl
  case captured =>
    intro u st
    have hturn : s.readTurn .rsp s.rspCap = (lineStatus st u.rspLen, u) := State.readTurn_of_captured h0 hc
    have hframe : State.ReadsInto .rsp s.rspCap s u := State.takeCapture_readsInto ..
    refine ⟨State.takeCapture_tRem .., State.takeCapture_rxq hc, (hframe.keeps State.seqState fun _ => rfl).trans hq,
      fun hst => ?_, fun hst => ?_⟩
    · rw [lineStatus_retry hst] at hturn
      rw [State.stepRx1_of_retry hturn]
    · rw [lineStatus_error hst] at hturn
      have hne : st ≠ .ok := by rcases hst with h | h <;> rw [h] <;> exact (nomatch ·)
      rw [State.stepRx1_of_error hturn hne, State.raise_eq, hframe.keeps State.status fun _ => rfl]

/-- Settles O41: each way a turn of the second phase ends or is retried. -/
theorem secondPhase : Obligations.SecondPhase := by
  intro s hi hq
  rw [step_of_no_inputs hi, State.sequence_of_rx2 hq]
  refine ⟨fun h0 => ?zero, fun h0 hc => ?timeout, fun h0 hc => ?fail, fun ps elapsed h0 hc => ?captured⟩
  case zero => rw [State.stepRx2_of_last (State.readTurn_of_zero h0)]; rfl
  case timeout => rw [State.stepRx2_of_last (State.readTurn_of_timeout h0 hc)]; rfl
  case fail => rw [State.stepRx2_of_last (State.readTurn_of_fail h0 hc)]; rfl
  case captured =>
    intro u st
    have hturn : s.readTurn .srq s.cfg.srqCap = (lineStatus st u.srqLen, u) := State.readTurn_of_captured h0 hc
    have hframe : State.ReadsInto .srq s.cfg.srqCap s u := State.takeCapture_readsInto ..
    have hstatus := hframe.keeps State.status fun _ => rfl
    refine ⟨hframe.buffers .rsp (nomatch ·), hframe.lengths .rsp (nomatch ·), State.takeCapture_tRem .., fun hst => ?_,
      fun hst => ?_, fun hst hlen hl hcmd hmax => ?_⟩
    · rw [lineStatus_retry hst] at hturn
      rw [State.stepRx2_of_retry hturn]
    · rw [lineStatus_error hst] at hturn
      rw [State.stepRx2_of_last hturn, hstatus]
      rcases hst with h | h <;> rw [h] <;> rfl
    · rw [hst, lineStatus, if_neg hlen] at hturn
      have hasked : u.asked = Memory.read s.cmd 0 := by
        rw [← hframe.keeps State.cmd fun _ => rfl]
        exact State.asked_of_lock ((hframe.keeps State.lockHeld fun _ => rfl).trans hl)
          ((hframe.keeps State.cmdLen fun _ => rfl) ▸ hcmd) ((hframe.keeps State.cfg fun _ => rfl) ▸ hmax)
      have hvalue : firstError s.status (u.srqStatus .ok) =
          if Memory.read u.srq 0 = Memory.read s.cmd 0 then s.status else firstError s.status .invalidResponse := by
        rw [State.srqStatus, hasked]
        split_ifs
        · rw [firstError]; split_ifs with hok <;> simp [hok]
        · rfl
      rw [State.stepRx2_of_last hturn, hstatus, hvalue]

end Sys2Proof.Machine
end

section
/-! The end of a transaction (R163, R164) and the host's verbs (45_device_session_host.md): each verb is one SEND
(`State.callOn_eq`), and the restore step gives its result (`step_of_restore`), which is an error, a failed echo check or the
verb's own value. -/

namespace Sys2Proof.Machine

set_option Elab.async false

/-! ### The verbs' calls (R200, R206) -/

/-- Nobody uses a session that no port's verb is on (U16). -/
theorem State.sessionBusy_eq_false {s : State} {h : Nat} (hfree : ∀ q ∈ s.ports, ∀ v, q.verb = some v → v.handle ≠ some h) :
    s.sessionBusy h = false := by
  rw [State.sessionBusy, List.any_eq_false]
  intro q hq
  rw [decide_eq_true_eq]
  intro hbusy
  obtain ⟨v, hv, hh⟩ := Option.bind_eq_some_iff.1 hbusy
  exact hfree q hq v hv hh

/-- A free requester's verb without a session is one SEND. -/
theorem State.callPlain_eq {s : State} {via : Via} {p : Port} (hp : s.ports[via.requester]? = some p) (ha : p.act = .free)
    (v : Verb) (cmd : List Byte) :
    s.callPlain via v cmd = .next (s.sendBy via.requester (Via.request via cmd false) (some v)) := by
  simp only [State.callPlain, hp, ha, ne_eq, not_true_eq_false, if_false]

/-- A free requester's verb on a session nobody else uses is one SEND. -/
theorem State.callOn_eq {s : State} {via : Via} {p : Port} {h : Nat} {x : Session} (hp : s.ports[via.requester]? = some p)
    (ha : p.act = .free) (hx : s.session h = some x)
    (hfree : ∀ q ∈ s.ports, ∀ v, q.verb = some v → v.handle ≠ some h) (v : Verb) (cmd : Byte → List Byte) (check : Bool) :
    s.callOn via h v cmd check = .next (s.sendBy via.requester (Via.request via (cmd x.addr) check) (some v)) := by
  simp only [State.callOn, hp, ha, hx, State.sessionBusy_eq_false hfree, ne_eq, not_true_eq_false, if_false,
    Bool.false_eq_true]

/-- A verb with an index from 0 to 9 is its SEND; past 9 it is answered without one (R206). -/
theorem State.callIndexed_eq {s t : State} {via : Via} {h : Nat} {v : Verb} {cmd : Byte → List Byte} {check : Bool}
    (hcall : s.callOn via h v cmd check = .next t) (idx : Option Nat) : s.callIndexed via h idx v cmd check =
      if 9 < idx.getD 0 then .next (s.verbAnswer via.requester .invalidArg) else .next t := by
  rw [State.callIndexed, hcall]

/-- A verb answered without a SEND changes the caller's port alone. -/
theorem State.verbAnswer_eq {s : State} {r : Nat} {p : Port} (hp : s.ports[r]? = some p) (st : Status) :
    s.verbAnswer r st =
      { s with ports := s.ports.set r { p with result := none, verb := none, verbResult := some (st, .nothing) } } := by
  rw [State.verbAnswer, modify_eq_set hp]

/-- Settles O55: the two verbs' commands. -/
theorem plainVerbs : Obligations.PlainVerbs := by
  intro via a p s hp ha req
  exact ⟨State.callPlain_eq hp ha _ _, State.callPlain_eq hp ha _ _⟩

/-- Settles O56: each verb's command. -/
theorem sessionVerbs : Obligations.SessionVerbs := by
  intro via h x p s hp ha hx hfree req
  have hcall := State.callOn_eq hp ha hx hfree
  exact ⟨hcall _ _ _, fun b => hcall _ _ _, hcall _ _ _, hcall _ _ _, fun cmd => hcall _ _ _, fun cmd check => hcall _ _ _⟩

/-- Settles O57: each verb's command by its index. -/
theorem indexedVerbs : Obligations.IndexedVerbs := by
  intro via h x p crc check n s hp ha hx hfree req letter zero
  have hindexed : ∀ idx v cmd check, s.callIndexed via h idx v cmd check = if 9 < idx.getD 0 then
        .next (s.verbAnswer via.requester .invalidArg)
      else .next (s.sendBy via.requester (Via.request via (cmd x.addr) check) (some v)) :=
    fun idx v cmd check => State.callIndexed_eq (State.callOn_eq hp ha hx hfree v cmd check) idx
  have hsmall : ∀ {idx : Option Nat} v cmd check, idx.getD 0 ≤ 9 → s.callIndexed via h idx v cmd check =
      .next (s.sendBy via.requester (Via.request via (cmd x.addr) check) (some v)) :=
    fun v cmd check hle => (hindexed _ v cmd check).trans (if_neg (Nat.not_lt.2 hle))
  have htext : ∀ l idx, measureText s.cfg l crc idx x.addr = [x.addr, l] ++ letter ++ indexText s.cfg idx ++ [chBang] :=
    fun l idx => by simp only [measureText, crcText, letter, chC, List.cons_append, List.nil_append]
  have hmeasure : ∀ l v idx, idx.getD 0 ≤ 9 → s.callIndexed via h idx v (measureText s.cfg l crc idx) false =
      .next (s.sendBy via.requester (req ([x.addr, l] ++ letter ++ indexText s.cfg idx ++ [chBang]) false) (some v)) :=
    fun l v idx hle => by rw [hsmall v _ false hle, htext]; rfl
  have hnone : ∀ l, [x.addr, l] ++ letter ++ indexText s.cfg none ++ [chBang] = [x.addr, l] ++ letter ++ [chBang] :=
    fun l => by rw [indexText, List.append_nil]
  have hdigit : ∀ l, 1 ≤ n → [x.addr, l] ++ letter ++ indexText s.cfg (some n) ++ [chBang] =
      [x.addr, l] ++ letter ++ [BitVec.ofNat 8 (48 + n), chBang] := fun l hn => by
    obtain ⟨k, rfl⟩ : ∃ k, n = k + 1 := ⟨n - 1, by omega⟩
    rw [List.append_assoc _ (indexText _ _)]
    rfl
  refine ⟨?_, ?_, ⟨?_, ?_⟩, fun h1 h9 => ⟨?_, ?_⟩, fun h9 => ⟨?_, ?_⟩, fun hbig => ?_⟩
  · exact (hmeasure chM _ none (by simp)).trans (by rw [hnone]; rfl)
  · exact (hmeasure chC _ none (by simp)).trans (by rw [hnone]; rfl)
  · exact hmeasure chM _ (some 0) (by simp)
  · exact hmeasure chC _ (some 0) (by simp)
  · exact (hmeasure chM _ (some n) h9).trans (by rw [hdigit _ h1]; rfl)
  · exact (hmeasure chC _ (some n) h9).trans (by rw [hdigit _ h1]; rfl)
  · exact hsmall (idx := some n) _ _ _ h9
  · exact hsmall (idx := some n) _ _ _ h9
  · intro t
    have hanswer : ∀ v cmd check, s.callIndexed via h (some n) v cmd check = .next t := fun v cmd check => by
      rw [hindexed, if_pos (show 9 < (some n).getD 0 from hbig), State.verbAnswer_eq hp]
    exact ⟨hanswer _ _ _, hanswer _ _ _, hanswer _ _ _, hanswer _ _ _⟩

/-! ### The restore step -/

/-- The status a transaction ends with (R163, R169). -/
theorem State.endStatus_eq (s : State) :
    (if s.setDirAnswer = false ∧ s.status = .ok then .fail else s.status) = s.endStatus := by
  unfold State.endStatus firstError
  split_ifs <;> simp_all

/-- The end of a transaction whose requester is one of the block's: its port alone changes (R164). -/
theorem State.release_of_port {s : State} {p : Port} (hp : s.ports[s.reqId]? = some p) : s.release =
    { s.setDir .idle with
      status := s.endStatus, seqState := .idle, lockHeld := false,
      ports := s.ports.set s.reqId { p with act := .free, rsp := s.rsp, result := some (s.endStatus, s.rspLen) } } := by
  have hlt : s.reqId < s.ports.length := (List.getElem?_eq_some_iff.1 hp).1
  rw [State.release_eq, State.endStatus_eq, modify_eq_set hp, modify_eq_set (List.getElem?_set_self hlt), List.set_set]

/-- The requester's port after the end of its transaction. -/
theorem State.release_port {s : State} {p : Port} (hp : s.ports[s.reqId]? = some p) : s.release.ports[s.reqId]? =
    some { p with act := .free, rsp := s.rsp, result := some (s.endStatus, s.rspLen) } := by
  rw [State.release_of_port hp]
  exact List.getElem?_set_self (List.getElem?_eq_some_iff.1 hp).1

theorem State.sequence_of_restore {s : State} (h : s.seqState = .restore) : s.sequence = s.stepRestore := by
  rw [State.sequence, h]

/-- What a verb writes into the sessions, and what an allocation takes (R202). -/
theorem State.verbCache_frame (v : Verb) (line : List Byte) (s : State) : s.verbCache v line = { s with
    sessions := (s.verbCache v line).sessions, script := (s.verbCache v line).script,
    draws := (s.verbCache v line).draws } := by
  cases v with
  | creation query a =>
    rw [State.verbCache]
    split_ifs <;> rfl
  | identification h =>
    rw [State.verbCache]
    split <;> rfl
  | changeAddress h b => rfl
  | acknowledge h => rfl
  | addressQuery => rfl
  | measurement h => rfl
  | concurrent h => rfl
  | payload h => rfl
  | passthrough h => rfl

/-- The sessions after a verb whose SEND ended with `st` and `line`: written only where it ended with `OK` and echoed (R201). -/
def State.verbEffect (v : Verb) (st : Status) (line : List Byte) (s : State) : State :=
  if st = .ok ∧ s.echoes v line = true then s.verbCache v line else s

theorem State.verbEffect_frame (v : Verb) (st : Status) (line : List Byte) (s : State) : s.verbEffect v st line = { s with
    sessions := (s.verbEffect v st line).sessions, script := (s.verbEffect v st line).script,
    draws := (s.verbEffect v st line).draws } := by
  unfold State.verbEffect
  split
  · exact State.verbCache_frame v line s
  · rfl

/-- A verb over: its result in its port, its sessions written. -/
theorem State.finishVerb_eq {s : State} {r : Nat} {p : Port} (hp : s.ports[r]? = some p) (v : Verb) (st : Status)
    (line : List Byte) : s.finishVerb r v st line = { s.verbEffect v st line with
      ports := s.ports.set r { p with verb := none, verbResult := some (s.verbResult v st line) } } := by
  have hports : (s.verbEffect v st line).ports = s.ports :=
    (congrArg State.ports (State.verbEffect_frame v st line s) :)
  change { s.verbEffect v st line with ports := ((s.verbEffect v st line).ports.modify r (fun p =>
    { p with verb := none, verbResult := some (s.verbResult v st line) })) } = _
  rw [hports, modify_eq_set hp]

/-- The call of a requester whose verb waits takes the line in its response buffer. -/
theorem State.finishCall_of_verb {s : State} {r : Nat} {p : Port} {v : Verb} (hp : s.ports[r]? = some p)
    (hv : p.verb = some v) (st : Status) (len : Nat) : s.finishCall r st len = { s.verbEffect v st (Memory.slice p.rsp 0 len) with
      ports := s.ports.set r
        { p with verb := none, verbResult := some (s.verbResult v st (Memory.slice p.rsp 0 len)) } } := by
  rw [← State.finishVerb_eq hp]
  simp only [State.finishCall, hp, hv]

/-- The restore step of a transaction that no verb waits for. -/
theorem step_of_restore {s : State} {p : Port} (hi : s.inputs = []) (hq : s.seqState = .restore)
    (hp : s.ports[s.reqId]? = some p) (hv : p.verb = none) : step s = .next s.release := by
  rw [step_of_no_inputs hi, State.sequence_of_restore hq, State.stepRestore]
  exact congrArg _ (State.finishCall_of_no_verb (State.release_port hp) hv _ _)

/-- The restore step of a transaction that a verb waits for. -/
theorem step_of_restore_verb {s : State} {p : Port} {v : Verb} (hi : s.inputs = []) (hq : s.seqState = .restore)
    (hp : s.ports[s.reqId]? = some p) (hv : p.verb = some v) : step s = .next
      { s.release.verbEffect v s.endStatus (Memory.slice s.rsp 0 s.rspLen) with
        ports := s.ports.set s.reqId { p with
          act := .free, rsp := s.rsp, result := some (s.endStatus, s.rspLen), verb := none,
          verbResult := some (s.release.verbResult v s.endStatus (Memory.slice s.rsp 0 s.rspLen)) } } := by
  have hrelease := State.release_of_port hp
  have hports := congrArg State.ports hrelease
  have hstatus : s.release.status = s.endStatus := congrArg State.status hrelease
  rw [step_of_no_inputs hi, State.sequence_of_restore hq, State.stepRestore]
  change Host.Outcome.next (s.release.finishCall s.reqId s.release.status s.rspLen) = _
  rw [State.finishCall_of_verb (State.release_port hp) hv, hstatus, hports]
  dsimp only
  rw [List.set_set]

/-- Settles O42: the end of the transaction, and of the verb that waits for it. -/
theorem restoreStep : Obligations.RestoreStep := by
  intro s p hi hq hp
  have hrelease := State.release_of_port hp
  have hu : s.release = { s with
      script := { s.script with setDirs := s.script.setDirs.tail }, draws := s.draws + 2,
      envLog := .setDir s.lineId .idle s.setDirAnswer :: s.envLog, dirMode := s.release.dirMode,
      dirFailed := if s.setDirAnswer then none else some .idle, status := s.endStatus, seqState := .idle, lockHeld := false,
      ports := s.ports.set s.reqId { p with act := .free, rsp := s.rsp, result := some (s.endStatus, s.rspLen) } } := by
    rw [hrelease]
    rfl
  have hmode : s.setDirAnswer = true → s.release.dirMode = .idle := State.setDir_dirMode_of_ack (s := s) (m := .idle)
  rcases Option.eq_none_or_eq_some p.verb with hv | ⟨v, hv⟩
  · exact ⟨_, s.release, step_of_restore hi hq hp hv, hu, hmode, fun _ => rfl, fun w hw => (nomatch hv.symm.trans hw)⟩
  · refine ⟨_, s.release, step_of_restore_verb hi hq hp hv, hu, hmode, fun hn => (nomatch hv.symm.trans hn), fun w _ =>
      ⟨s.release.verbResult v s.endStatus (Memory.slice s.rsp 0 s.rspLen), ?_⟩⟩
    exact congrArg (fun t : State => { t with ports := (s.ports.set s.reqId { p with
      act := .free, rsp := s.rsp, result := some (s.endStatus, s.rspLen), verb := none,
      verbResult := some (s.release.verbResult v s.endStatus (Memory.slice s.rsp 0 s.rspLen)) }) })
      (State.verbEffect_frame v s.endStatus (Memory.slice s.rsp 0 s.rspLen) s.release)

/-! ### What a verb returns -/

/-- The result of a verb, found in its requester's port after the restore step, and the sessions. -/
theorem verb_ends {s : State} {p : Port} {v : Verb} (hi : s.inputs = []) (hq : s.seqState = .restore)
    (hp : s.ports[s.reqId]? = some p) (hv : p.verb = some v) : ∃ t q, step s = .next t ∧ t.ports[s.reqId]? = some q ∧
      q.result = some (s.endStatus, s.rspLen) ∧ q.verb = none ∧
      q.verbResult = some (s.release.verbResult v s.endStatus (Memory.slice s.rsp 0 s.rspLen)) ∧
      t.sessions = (s.release.verbEffect v s.endStatus (Memory.slice s.rsp 0 s.rspLen)).sessions :=
  ⟨_, _, step_of_restore_verb hi hq hp hv, List.getElem?_set_self (List.getElem?_eq_some_iff.1 hp).1, rfl, rfl, rfl, rfl⟩

/-- An error of the SEND is the verb's result, and nothing is written (R201). -/
theorem State.verbResult_of_error {st : Status} (h : st ≠ .ok) (v : Verb) (line : List Byte) (s : State) :
    s.verbResult v st line = (st, .nothing) ∧ s.verbEffect v st line = s :=
  ⟨if_pos h, if_neg fun hc => h hc.1⟩

/-- A failed echo check is `INVALID_RESPONSE`, and nothing is written (R201). -/
theorem State.verbResult_of_no_echo {s : State} {v : Verb} {line : List Byte} (h : s.echoes v line = false) :
    s.verbResult v .ok line = (.invalidResponse, .nothing) ∧ s.verbEffect v .ok line = s :=
  ⟨(if_neg (not_not_intro rfl)).trans (if_pos h), if_neg (by simp [h])⟩

/-- A line that echoes the address gives the verb's own result and effect. -/
theorem State.verbResult_of_echo {s : State} {v : Verb} {line : List Byte} (h : s.echoes v line = true) :
    s.verbResult v .ok line = s.verbValue v line ∧ s.verbEffect v .ok line = s.verbCache v line :=
  ⟨(if_neg (not_not_intro rfl)).trans (if_neg (by simp [h])), if_pos ⟨rfl, h⟩⟩

/-- A verb on a session expects the session's address (R201). -/
theorem State.expectedAddr_of_handle {s : State} {v : Verb} {h : Nat} (hv : v.handle = some h) :
    s.expectedAddr v = (s.session h).map Session.addr := by
  cases v with
  | creation query a => cases hv
  | addressQuery => cases hv
  | changeAddress k b => obtain rfl := Option.some.inj hv; rfl
  | acknowledge k => obtain rfl := Option.some.inj hv; rfl
  | identification k => obtain rfl := Option.some.inj hv; rfl
  | measurement k => obtain rfl := Option.some.inj hv; rfl
  | concurrent k => obtain rfl := Option.some.inj hv; rfl
  | payload k => obtain rfl := Option.some.inj hv; rfl
  | passthrough k => obtain rfl := Option.some.inj hv; rfl

/-- The echo check of a verb that expects an address (R201). -/
theorem State.echoes_eq {s : State} {v : Verb} {a : Byte} (h : s.expectedAddr v = some a) (line : List Byte) :
    s.echoes v line = decide (line.head? = some a) := by
  simp only [State.echoes, h]

/-- Settles O58: at the call a request VALID refuses, at the end an error or a failed echo check. -/
theorem verbErrors : Obligations.VerbErrors := by
  refine ⟨fun r req p v s hp ha hna => ?call, fun s p v hi hq hp hv => ⟨fun hne => ?error, fun a hok hexpect hhead => ?echo⟩⟩
  case call =>
    have hinvalid : validRequest s.busValid s.cfg req = false :=
      Bool.eq_false_iff.2 fun h => hna ((validRequest_iff s req).1 h)
    have hlt : r < s.ports.length := (List.getElem?_eq_some_iff.1 hp).1
    rcases State.sendBy_cases hp req (some v) with ⟨-, hsend⟩ | ⟨hvalid, -⟩
    · rw [hsend, State.latch_deliver hp, State.finishCall_of_verb (v := v) (List.getElem?_set_self hlt) rfl,
        (State.verbResult_of_error (by decide) v _ _).1, (State.verbResult_of_error (by decide) v _ _).2, ha]
      dsimp only
      rw [List.set_set]
    · rw [hinvalid] at hvalid
      cases hvalid
  case error =>
    obtain ⟨t, q, ht, hq', hresult, -, hvr, hsess⟩ := verb_ends hi hq hp hv
    obtain ⟨hr, he⟩ := State.verbResult_of_error hne v (Memory.slice s.rsp 0 s.rspLen) s.release
    rw [hr] at hvr
    rw [he] at hsess
    exact ⟨t, q, ht, hq', hvr, hresult, hsess⟩
  case echo =>
    have haddr : s.release.expectedAddr v = some a := by
      rcases hexpect with ⟨h, x, hh, hx, rfl⟩ | rfl
      · have hx' : s.release.session h = some x := hx
        rw [State.expectedAddr_of_handle hh, hx', Option.map_some]
      · rfl
    obtain ⟨t, q, ht, hq', -, -, hvr, hsess⟩ := verb_ends hi hq hp hv
    obtain ⟨hr, he⟩ := State.verbResult_of_no_echo (s := s.release) (v := v) (line := Memory.slice s.rsp 0 s.rspLen)
      (by rw [State.echoes_eq haddr, decide_eq_false hhead])
    rw [hok, hr] at hvr
    rw [hok, he] at hsess
    exact ⟨t, q, ht, hq', hvr, hsess⟩

/-- A session's fields written in its place. -/
theorem State.updateSession_of_session {s : State} {h : Nat} {x : Session} (hx : s.session h = some x) (f : Session → Session) :
    (s.updateSession h f).sessions = s.sessions.set h (some (f x)) := by
  have hget : s.sessions[h]? = some (some x) := Option.join_eq_some_iff.1 hx
  rw [State.updateSession_sessions, List.modify_eq_set_getElem?, hget]
  rfl

/-- Settles O59: the value and the effect of each verb whose line echoed the address. -/
theorem verbValues : Obligations.VerbValues := by
  intro s p v h x hi hq hp hv hh hx hok hhead line
  have hx' : s.release.session h = some x := hx
  have haddr : s.release.expectedAddr v = some x.addr := by rw [State.expectedAddr_of_handle hh, hx', Option.map_some]
  obtain ⟨hr, he⟩ := State.verbResult_of_echo (s := s.release) (v := v) (line := line)
    (by rw [State.echoes_eq haddr, decide_eq_true hhead])
  obtain ⟨t, q, ht, hq', -, hnone, hvr, hsess⟩ := verb_ends hi hq hp hv
  rw [hok, hr] at hvr
  rw [hok, he] at hsess
  refine ⟨t, q, ht, hq', hnone, ?_, ?_, ?_, ?_, ?_, ?_, ?_, ?_⟩
  · rintro rfl; exact ⟨hvr, hsess⟩
  · rintro b rfl; exact ⟨hvr, hsess.trans (State.updateSession_of_session hx' _)⟩
  · rintro rfl hshort
    have hident : identOf line = none := if_pos hshort
    rw [State.verbValue, if_pos hshort] at hvr
    rw [State.verbCache, hident] at hsess
    exact ⟨hvr, hsess⟩
  · rintro rfl hlong
    have hident : identOf line = some _ := if_neg (Nat.not_lt.2 hlong)
    rw [State.verbValue, if_neg (Nat.not_lt.2 hlong)] at hvr
    rw [State.verbCache, hident] at hsess
    exact ⟨hvr, hsess.trans (State.updateSession_of_session hx' _)⟩
  · rintro n rfl hn
    rw [State.verbValue, countOf, hn] at hvr
    exact ⟨hvr, hsess⟩
  · rintro n a b c rest m rfl hn hfield hm
    have hready : readySecondsOf line = m := by
      cases hline : line with
      | nil => rw [hline] at hfield; cases hfield
      | cons z zs =>
        rw [hline, List.drop_succ_cons, List.drop_zero] at hfield
        rw [hfield, readySecondsOf, hm, Option.getD_some]
    rw [State.verbValue, countOf, hn, hready] at hvr
    exact ⟨hvr, hsess⟩
  · rintro rfl; exact ⟨hvr, hsess⟩
  · rintro rfl; exact ⟨hvr, hsess⟩

/-! ### Creation, address query and the destruction of a session -/

/-- Settles O60: the ends of the verbs without a session, and the session that goes. -/
theorem creationEnds : Obligations.CreationEnds := by
  refine ⟨fun s p v a b hi hq hp hv hok hhead => ?verbs, fun s h => ⟨fun hn => ?none, fun x q v hx hq hv hh => ?busy,
    fun x hx hfree => ?ends⟩⟩
  case verbs =>
    have hecho : s.release.expectedAddr v = none ∨ s.release.expectedAddr v = some b →
        s.release.echoes v (Memory.slice s.rsp 0 s.rspLen) = true := by
      rintro (h | h)
      · simp only [State.echoes, h]
      · rw [State.echoes_eq h, decide_eq_true hhead]
    have hhd : (Memory.slice s.rsp 0 s.rspLen).headD chNul = b := by
      rw [List.headD_eq_head?_getD, hhead, Option.getD_some]
    obtain ⟨t, q, ht, hq', -, -, hvr, hsess⟩ := verb_ends hi hq hp hv
    refine ⟨?query, fun hc => ?creation⟩
    case query =>
      rintro rfl
      obtain ⟨hr, he⟩ := State.verbResult_of_echo (hecho (.inl rfl))
      rw [hok, hr, State.verbValue, hhd] at hvr
      rw [hok, he] at hsess
      exact ⟨t, q, ht, hq', hvr, hsess⟩
    case creation =>
      obtain ⟨query, rfl, haddr, hexpect⟩ : ∃ query, v = .creation query a ∧ (if query then b else a) = b ∧
          (s.release.expectedAddr v = none ∨ s.release.expectedAddr v = some b) := by
        rcases hc with rfl | ⟨rfl, rfl⟩
        · exact ⟨true, rfl, rfl, .inl rfl⟩
        · exact ⟨false, rfl, rfl, .inr rfl⟩
      obtain ⟨hr, he⟩ := State.verbResult_of_echo (hecho hexpect)
      rw [hok, hr, State.verbValue] at hvr
      rw [hok, he, State.verbCache, hhd, haddr] at hsess
      refine ⟨t, q, s.release.allocAnswer, ht, hq', fun o os ho => headD_of_eq_cons (as := s.script.allocs) ho,
        fun hyes => ?_, fun hno => ?_⟩
      · rw [if_pos hyes] at hvr hsess
        exact ⟨hvr, hsess⟩
      · rw [if_neg (by simp [hno])] at hvr hsess
        exact ⟨hvr, hsess⟩
  case none => simp only [State.endSession, hn]
  case busy =>
    have hbusy : s.sessionBusy h = true := by
      rw [State.sessionBusy, List.any_eq_true]
      exact ⟨q, hq, by rw [hv, Option.bind_some, hh, decide_eq_true rfl]⟩
    simp only [State.endSession, hx, hbusy, if_true]
  case ends =>
    have hlt : h < s.sessions.length := (List.getElem?_eq_some_iff.1 (Option.join_eq_some_iff.1 hx)).1
    refine ⟨{ s with sessions := s.sessions.set h none, ret := .status .ok }, ?_, rfl, ?_, fun g hg => ?_⟩
    · simp only [State.endSession, hx, State.sessionBusy_eq_false hfree, Bool.false_eq_true, if_false]
    · rw [State.session]
      dsimp only
      rw [List.getElem?_set_self hlt]
      rfl
    · rw [State.session, State.session]
      dsimp only
      rw [List.getElem?_set_ne (Ne.symm hg)]

end Sys2Proof.Machine
end

section
/-! What the units' work (`State.Works`), a step of the transaction (`State.Runs`) and its end (`State.Ends`) leave of the state,
each said once (R8, R163, R166). -/

namespace Sys2Proof.Machine

set_option Elab.async false

/-! ### The frame of the units' work -/

/-- What a call and a transaction consist of, the working registers and buffers blanked out: the Bus, the lock, the request
registers, `CMD` and the ports. -/
def State.outline (s : State) : State :=
  { s with dirMode := .idle, dirFailed := none, txIdx := 0, txUnit := 0, txPar := false, decState := .waitStart,
           acc := 0#7, rxPar := false, rxPulseIdx := 0, rxUnitsLeft := 0, rxLevel := .marking, seqState := .idle,
           status := .ok, rspLen := 0, srqLen := 0, tRem := 0, seconds := 0, crc := 0#16, rsp := [], srq := [], txq := [],
           rxq := [], sessions := [], script := { setDirs := [], emits := [], captures := [], grants := [], allocs := [] },
           draws := 0, ret := .nothing, envLog := [] }

/-- The working registers and buffers alone may change, the buffers keeping their form. -/
structure State.Frame (s t : State) : Prop where
  outline : t.outline = s.outline
  rsp : Memory.wf s.rsp → Memory.wf t.rsp
  srq : Memory.wf s.srq → Memory.wf t.srq

theorem State.Frame.trans {s t u : State} (h : s.Frame t) (g : t.Frame u) : s.Frame u :=
  ⟨g.outline.trans h.outline, fun hw => g.rsp (h.rsp hw), fun hw => g.srq (h.srq hw)⟩

/-- A part of the outline reads as before. -/
theorem State.Frame.keeps {s t : State} (h : s.Frame t) {α : Type} (f : State → α) (hf : ∀ u, f u.outline = f u) :
    f t = f s := by rw [← hf t, h.outline, hf]

theorem State.ReadsInto.toFrame {d : Dst} {cap : Nat} {s t : State} (h : State.ReadsInto d cap s t) : s.Frame t where
  outline := (congrArg State.outline h.frame :)
  rsp hw := by
    cases d with
    | rsp => exact h.canonical hw
    | srq => exact (show t.rsp = s.rsp from h.buffers .rsp (nomatch ·)).symm ▸ hw
  srq hw := by
    cases d with
    | rsp => exact (show t.srq = s.srq from h.buffers .srq (nomatch ·)).symm ▸ hw
    | srq => exact h.canonical hw

/-- DECODE writes a working register and one buffer. -/
theorem State.decodeInto_frame (n : Nat) (d : Dst) (cap : Nat) (s : State) : s.Frame (s.decodeInto n d cap) where
  outline := by cases d <;> rfl
  rsp hw := by
    cases d with
    | rsp => exact decodeUnits_wf _ hw
    | srq => exact hw
  srq hw := by
    cases d with
    | rsp => exact hw
    | srq => exact decodeUnits_wf _ hw

theorem State.strip_frame (s : State) : s.Frame s.strip := ⟨rfl, fun hw => Memory.wf_write hw (s.rspLen - 3) chNul, id⟩

/-! ### An operation of the units, from outside -/

/-- What an operation of the units leaves, called from outside: the sequencer where it is, the direction as it is but for a
lock's holder, and the running transaction's status and length. -/
structure State.Works (s t : State) : Prop extends State.Frame s t where
  seqState : t.seqState = s.seqState
  direction : (t.dirMode = s.dirMode ∧ t.dirFailed = s.dirFailed) ∨ (s.seqState = .idle ∧ s.lockHeld = true)
  running : s.seqState ≠ .idle → t.status = s.status ∧ t.rspLen = s.rspLen

/-- An operation that answers and writes no register of the block. -/
theorem State.works_answer (s : State) (dr : Nat) (r : Ret) : s.Works { s with draws := dr, ret := r } :=
  ⟨⟨rfl, id, id⟩, rfl, .inl ⟨rfl, rfl⟩, fun _ => ⟨rfl, rfl⟩⟩

theorem State.works_onBus {s t : State} (h : s.Works t) : s.Works (s.onBus t) := by
  rcases State.onBus_cases s t with ⟨-, he⟩ | ⟨-, he⟩
  · rw [he]; exact h
  · rw [he]; exact s.works_answer _ _

theorem State.works_underLock {s t : State} (h : s.Works t) : s.Works (s.underLock t) := by
  rcases State.underLock_cases s t with ⟨-, -, he⟩ | ⟨-, he⟩
  · rw [he]; exact h
  · rw [he]; exact s.works_answer _ _

/-- An operation of the units while no transaction runs. -/
theorem State.works_of_idle {s t : State} (h : s.Frame t) (hq : s.seqState = .idle) (hq' : t.seqState = .idle)
    (hd : (t.dirMode = s.dirMode ∧ t.dirFailed = s.dirFailed) ∨ (s.seqState = .idle ∧ s.lockHeld = true)) : s.Works t :=
  ⟨h, hq'.trans hq.symm, hd, fun hne => absurd hq hne⟩

theorem execEncode_works {s t : State} (h : execEncode s = .next t) : s.Works t := by
  unfold execEncode at h
  split at h
  · cases h
  · cases h
    exact State.works_underLock ⟨⟨rfl, id, id⟩, rfl, .inl ⟨rfl, rfl⟩, fun _ => ⟨rfl, rfl⟩⟩

theorem execFrame_works {c : Byte} {s t : State} (h : execFrame c s = .next t) : s.Works t := by
  cases h
  exact State.works_onBus ⟨⟨rfl, id, id⟩, rfl, .inl ⟨rfl, rfl⟩, fun _ => ⟨rfl, rfl⟩⟩

theorem execDecode_works {n : Nat} {d : Dst} {cap : Nat} {s t : State} (h : execDecode n d cap s = .next t) : s.Works t := by
  unfold execDecode at h
  split at h
  · cases h
  · next hq =>
    cases h
    have hidle := not_not.1 hq
    have hframe := State.decodeInto_frame n d cap s
    refine State.works_underLock (State.works_of_idle ⟨hframe.outline, hframe.rsp, hframe.srq⟩ hidle ?_ (.inl ⟨?_, ?_⟩))
    · exact (State.decodeInto_seqState s n d cap).trans hidle
    · exact State.decodeInto_dirMode s n d cap
    · exact State.decodeInto_dirFailed s n d cap

theorem execCrc16_works {b : Buf} {m : Nat} {s t : State} (h : execCrc16 b m s = .next t) : s.Works t := by
  cases h
  exact State.works_onBus ⟨⟨rfl, id, id⟩, rfl, .inl ⟨rfl, rfl⟩, fun _ => ⟨rfl, rfl⟩⟩

theorem execVerify_works {s t : State} (h : execVerify s = .next t) : s.Works t := by
  cases h
  exact State.works_onBus ⟨⟨rfl, id, id⟩, rfl, .inl ⟨rfl, rfl⟩, fun _ => ⟨rfl, rfl⟩⟩

/-- READLINE, and what surrounds it where it is step 4 or 5 of a row, changes no direction and starts no transaction. -/
theorem State.readLine_works {s : State} (hq : s.seqState = .idle) (d : Dst) (cap budget : Nat) :
    s.Works (s.readLine d cap budget).2 := by
  have hread := State.readLine_readsInto d cap budget s
  have hframe := hread.toFrame
  refine State.works_of_idle ⟨hframe.outline, hframe.rsp, hframe.srq⟩ hq ?_ (.inl ⟨?_, ?_⟩)
  · exact (hread.keeps State.seqState fun _ => rfl).trans hq
  · exact hread.keeps State.dirMode fun _ => rfl
  · exact hread.keeps State.dirFailed fun _ => rfl

/-- An operation whose answer and status are written after it, while no transaction runs. -/
theorem State.Works.answered {s t : State} (h : s.Works t) (hq : s.seqState = .idle) (st : Status) (r : Ret) :
    s.Works { t with status := st, ret := r } :=
  State.works_of_idle ⟨h.outline, h.rsp, h.srq⟩ hq (h.seqState.trans hq) h.direction

theorem execReadline_works {d : Dst} {cap budget : Nat} {s t : State} (h : execReadline d cap budget s = .next t) :
    s.Works t := by
  unfold execReadline at h
  split_ifs at h with hb hq hl hd <;> cases h
  · exact s.works_answer _ _
  · exact (State.readLine_works (not_not.1 hq) d cap budget).answered (not_not.1 hq) _ _

/-- The requests to the environment and SETDIR are made under the lock and while no transaction runs. -/
theorem execSetdir_works {m : Dir} {s t : State} (h : execSetdir m s = .next t) : s.Works t := by
  unfold execSetdir at h
  split_ifs at h with hb hq hl <;> cases h
  · exact s.works_answer _ _
  · have hidle := not_not.1 hq
    exact State.works_of_idle ⟨rfl, id, id⟩ hidle hidle (.inr ⟨hidle, by simpa using hl⟩)

theorem execEnvEmit_works {s t : State} (h : execEnvEmit s = .next t) : s.Works t := by
  unfold execEnvEmit at h
  split_ifs at h with hb hq hl hd <;> cases h
  · exact s.works_answer _ _
  · exact State.works_of_idle ⟨rfl, id, id⟩ (not_not.1 hq) (not_not.1 hq) (.inl ⟨rfl, rfl⟩)

theorem execEnvCapture_works {budget : Nat} {s t : State} (h : execEnvCapture budget s = .next t) : s.Works t := by
  unfold execEnvCapture at h
  split_ifs at h with hb hq hl hd <;> cases h
  · exact s.works_answer _ _
  · exact State.works_of_idle ⟨rfl, id, id⟩ (not_not.1 hq) (not_not.1 hq) (.inl ⟨rfl, rfl⟩)

theorem execEnvSetdir_works {m : Dir} {s t : State} (h : execEnvSetdir m s = .next t) : s.Works t := by
  unfold execEnvSetdir at h
  split_ifs at h with hb hq hl <;> cases h
  · exact s.works_answer _ _
  · exact State.works_of_idle ⟨rfl, id, id⟩ (not_not.1 hq) (not_not.1 hq) (.inl ⟨rfl, rfl⟩)

/-- Steps 4 and 5 on their own (R156). -/
theorem State.classSteps_works {s : State} (hq : s.seqState = .idle) (c : CmdClass) : s.Works (s.classSteps c) := by
  have hstay : ∀ {t : State}, s.Frame t → t.seqState = s.seqState → t.dirMode = s.dirMode → t.dirFailed = s.dirFailed →
      s.Works t := fun hf hq' hd hd' => State.works_of_idle hf hq (hq'.trans hq) (.inl ⟨hd, hd'⟩)
  cases c with
  | other => exact hstay ⟨rfl, id, id⟩ rfl rfl rfl
  | data =>
    change s.Works s.checkData
    unfold State.checkData
    split_ifs
    · exact hstay ⟨rfl, s.strip_frame.rsp, id⟩ rfl rfl rfl
    · exact hstay ⟨rfl, id, id⟩ rfl rfl rfl
    · exact hstay ⟨rfl, id, id⟩ rfl rfl rfl
  | meas =>
    rw [State.classSteps]
    split
    · exact hstay ⟨rfl, id, id⟩ rfl rfl rfl
    · next n _ =>
      unfold State.awaitService
      split_ifs
      · exact hstay ⟨rfl, id, id⟩ rfl rfl rfl
      · have hread := State.readLine_works (s := { s with seconds := n }) hq .srq s.cfg.srqCap (n * 1000)
        exact State.works_of_idle ⟨hread.outline, hread.rsp, hread.srq⟩ hq (hread.seqState.trans hq) hread.direction

theorem verbRow_works {v : Byte} {s t : State} (h : s.verbRow v = .next t) : s.Works t := by
  unfold State.verbRow at h
  dsimp only at h
  split_ifs at h with hq hdone hl hd <;> cases h
  · exact s.works_answer _ _
  · exact (State.classSteps_works (not_not.1 hq) _).answered (not_not.1 hq) _ _

/-! ### A step of the transaction -/

/-- What a step of the sequencer leaves while the transaction goes on (R166): the mode that the phase needs is switched to, or
was there; the first error stays (R169), and no status is one a SEND does not end in; the length is within the capacity. -/
structure State.Runs (s t : State) : Prop extends State.Frame s t where
  began : s.seqState ≠ .idle
  goesOn : t.seqState ≠ .idle
  transmitting : t.seqState = .emit ∨ t.seqState = .dirRx →
    t.dirMode = .transmit ∨ (s.seqState = .emit ∧ t.dirMode = s.dirMode)
  receiving : t.seqState = .rx1 ∨ t.seqState = .rx2 →
    t.dirMode = .receive ∨ ((s.seqState = .rx1 ∨ s.seqState = .rx2) ∧ t.dirMode = s.dirMode)
  status : t.status = s.status ∨ (s.status = .ok ∧ t.status ≠ .notFound ∧ t.status ≠ .noMem)
  rspLen : t.rspLen ≤ s.rspLen ∨ t.rspLen ≤ s.rspCap

/-- A step to the restore step. -/
theorem State.runs_toRestore {s t : State} (hf : s.Frame t) (hq : s.seqState ≠ .idle) (hq' : t.seqState = .restore)
    (hst : t.status = s.status ∨ (s.status = .ok ∧ t.status ≠ .notFound ∧ t.status ≠ .noMem))
    (hlen : t.rspLen ≤ s.rspLen ∨ t.rspLen ≤ s.rspCap) : s.Runs t :=
  ⟨hf, hq, by rw [hq']; exact (nomatch ·), (by rw [hq']; rintro (h | h) <;> cases h),
    (by rw [hq']; rintro (h | h) <;> cases h), hst, hlen⟩

/-- The error exit's status (R169). -/
theorem firstError_cases (a b : Status) : firstError a b = a ∨ (a = .ok ∧ firstError a b = b) := by
  unfold firstError
  split_ifs with h
  · exact .inr ⟨h, rfl⟩
  · exact .inl rfl

/-- The error exit, with a status that a SEND may end in (R236). -/
theorem State.raise_runs {s : State} (hq : s.seqState ≠ .idle) {st : Status} (h1 : st ≠ .notFound) (h2 : st ≠ .noMem) :
    s.Runs (s.raise st) := by
  refine State.runs_toRestore ⟨rfl, id, id⟩ hq rfl ?_ (.inl le_rfl)
  rw [State.raise_eq]
  rcases firstError_cases s.status st with h | ⟨hok, h⟩
  · exact .inl h
  · exact .inr ⟨hok, by rw [h]; exact h1, by rw [h]; exact h2⟩

/-- Work of the units before a step of the transaction, in the same phase and the same mode. -/
theorem State.Runs.after {s u t : State} (h : u.Runs t) (hf : s.Frame u) (hq : u.seqState = s.seqState)
    (hd : u.dirMode = s.dirMode) (hst : u.status = s.status) (hlen : u.rspLen ≤ s.rspLen ∨ u.rspLen ≤ s.rspCap) :
    s.Runs t := by
  have hcap := hf.keeps State.rspCap fun _ => rfl
  refine ⟨hf.trans h.toFrame, hq ▸ h.began, h.goesOn, ?_, ?_, ?_, ?_⟩
  · rw [← hq, ← hd]; exact h.transmitting
  · rw [← hq, ← hd]; exact h.receiving
  · rw [← hst]; exact h.status
  · have := h.rspLen
    omega

theorem State.stepDirTx_runs {s : State} (hq : s.seqState = .dirTx) : s.Runs s.stepDirTx := by
  have hne : s.seqState ≠ .idle := by rw [hq]; exact (nomatch ·)
  rcases Bool.eq_false_or_eq_true s.setDirAnswer with ha | ha
  · rw [State.stepDirTx_of_ack ha]
    exact ⟨⟨rfl, id, id⟩, hne, (nomatch ·), fun _ => .inl (State.setDir_dirMode_of_ack ha _),
      (by rintro (h | h) <;> cases h), .inl rfl, .inl le_rfl⟩
  · rw [State.stepDirTx_of_fail ha]
    have hraise := State.raise_runs (s := s.setDir .transmit) (st := .fail) hne (nomatch ·) (nomatch ·)
    exact State.runs_toRestore ⟨rfl, id, id⟩ hne rfl hraise.status (.inl le_rfl)

theorem State.stepEmit_runs {s : State} (hq : s.seqState = .emit) : s.Runs s.stepEmit := by
  have hne : s.seqState ≠ .idle := by rw [hq]; exact (nomatch ·)
  rcases Bool.eq_false_or_eq_true s.emitAnswer with ha | ha
  · rw [State.stepEmit_of_ack ha]
    exact ⟨⟨rfl, id, id⟩, hne, (nomatch ·), fun _ => .inr ⟨hq, rfl⟩, (by rintro (h | h) <;> cases h), .inl rfl,
      .inl le_rfl⟩
  · rw [State.stepEmit_of_fail ha]
    exact (State.raise_runs (s := s.envEmit) (st := .fail) hne (nomatch ·) (nomatch ·)).after ⟨rfl, id, id⟩ rfl rfl rfl
      (.inl le_rfl)

theorem State.stepDirRx_runs {s : State} (hq : s.seqState = .dirRx) : s.Runs s.stepDirRx := by
  have hne : s.seqState ≠ .idle := by rw [hq]; exact (nomatch ·)
  rcases Bool.eq_false_or_eq_true s.setDirAnswer with ha | ha
  · rw [State.stepDirRx_of_ack ha]
    exact ⟨⟨rfl, id, id⟩, hne, (nomatch ·), (by rintro (h | h) <;> cases h),
      fun _ => .inl (State.setDir_dirMode_of_ack ha _), .inl rfl, .inl le_rfl⟩
  · rw [State.stepDirRx_of_fail ha]
    have hraise := State.raise_runs (s := s.setDir .receive) (st := .fail) hne (nomatch ·) (nomatch ·)
    exact State.runs_toRestore ⟨rfl, id, id⟩ hne rfl hraise.status (.inl le_rfl)

/-- The dispatch after a first line (R156 to R162). -/
theorem State.dispatchFirst_runs {s : State} (hq : s.seqState = .rx1) : s.Runs s.dispatchFirst := by
  have hne : s.seqState ≠ .idle := by rw [hq]; exact (nomatch ·)
  cases hc : s.cmdClass with
  | other =>
    rw [State.dispatchFirst_of_other hc]
    exact State.runs_toRestore ⟨rfl, id, id⟩ hne rfl (.inl rfl) (.inl le_rfl)
  | data =>
    cases hr : s.requireCrc with
    | false =>
      rw [State.dispatchFirst_of_data_unchecked hc hr]
      exact State.runs_toRestore ⟨rfl, id, id⟩ hne rfl (.inl rfl) (.inl le_rfl)
    | true =>
      cases hv : s.verifies with
      | true =>
        rw [State.dispatchFirst_of_data_verified hc hr hv]
        exact State.runs_toRestore ⟨rfl, s.strip_frame.rsp, id⟩ hne rfl (.inl rfl) (.inl (Nat.sub_le _ _))
      | false =>
        rw [State.dispatchFirst_of_data_corrupt hc hr hv]
        exact (State.raise_runs (s := s.afterVerify) (st := .invalidChecksum) hne (nomatch ·) (nomatch ·)).after
          ⟨rfl, id, id⟩ rfl rfl rfl (.inl le_rfl)
  | meas =>
    cases hf : s.secondsField with
    | none =>
      rw [State.dispatchFirst_of_meas_malformed hc hf]
      exact State.raise_runs hne (nomatch ·) (nomatch ·)
    | some n =>
      rcases Nat.eq_zero_or_pos n with rfl | hn
      · rw [State.dispatchFirst_of_meas_ready hc hf]
        exact State.runs_toRestore ⟨rfl, id, id⟩ hne rfl (.inl rfl) (.inl le_rfl)
      · rw [State.dispatchFirst_of_meas_waiting hc hf hn]
        exact ⟨⟨rfl, id, id⟩, hne, (nomatch ·), (by rintro (h | h) <;> cases h), fun _ => .inr ⟨.inl hq, rfl⟩,
          .inl rfl, .inl le_rfl⟩

/-- A turn of READLINE leaves a length within the capacity. -/
theorem State.readTurn_len_le (d : Dst) (cap : Nat) (s : State) : (s.readTurn d cap).2.len d ≤ cap := by
  rcases State.readTurn_cases d cap s with ⟨-, he⟩ | ⟨-, -, he⟩ | ⟨-, -, he⟩ | ⟨-, ps, e, -, he⟩
  · rw [he, State.setLen_len]; exact Nat.zero_le _
  · rw [he, State.setLen_len]; exact Nat.zero_le _
  · rw [he, State.setLen_len]; exact Nat.zero_le _
  · rw [he]; exact State.takeCapture_len_le d cap ps e s

/-- The statuses that a turn ends with are among those a SEND may end in. -/
theorem State.Outcome.ne {d : Dst} {cap : Nat} {st : Status} {t : State} (h : State.Outcome d cap st t) :
    st ≠ .notFound ∧ st ≠ .noMem := by
  rcases h.status with rfl | rfl | rfl | rfl <;> decide

theorem State.stepRx1_runs {s : State} (hq : s.seqState = .rx1) : s.Runs s.stepRx1 := by
  have hlen := State.readTurn_len_le .rsp s.rspCap s
  have hread := State.readTurn_readsInto .rsp s.rspCap s
  rcases hturn : s.readTurn .rsp s.rspCap with ⟨_ | st, t⟩
  all_goals
    rw [hturn] at hlen hread
    have hq' : t.seqState = .rx1 := (hread.keeps State.seqState fun _ => rfl).trans hq
    have hd := hread.keeps State.dirMode fun _ => rfl
    have hst := hread.keeps State.status fun _ => rfl
  · rw [State.stepRx1_of_retry hturn]
    exact ⟨hread.toFrame, by rw [hq]; exact (nomatch ·), by rw [hq']; exact (nomatch ·),
      (by rw [hq']; rintro (h | h) <;> cases h), fun _ => .inr ⟨.inl hq, hd⟩, .inl hst, .inr hlen⟩
  · have hgo : t.Runs s.stepRx1 := by
      by_cases hok : st = .ok
      · subst hok
        rw [State.stepRx1, hturn]
        exact State.dispatchFirst_runs hq'
      · rw [State.stepRx1_of_error hturn hok]
        obtain ⟨h1, h2⟩ := (State.readTurn_outcome hturn).ne
        exact State.raise_runs (by rw [hq']; exact (nomatch ·)) h1 h2
    exact hgo.after hread.toFrame (hq'.trans hq.symm) hd hst (.inr hlen)

/-- The statuses of the second phase are among those a SEND may end in (R160). -/
theorem State.srqStatus_ne {st : Status} (h1 : st ≠ .notFound) (h2 : st ≠ .noMem) (s : State) :
    s.srqStatus st ≠ .notFound ∧ s.srqStatus st ≠ .noMem := by
  rw [State.srqStatus_eq]
  split_ifs
  · decide
  · exact ⟨h1, h2⟩
  · decide
  · decide

theorem State.stepRx2_runs {s : State} (hq : s.seqState = .rx2) : s.Runs s.stepRx2 := by
  have hread := State.readTurn_readsInto .srq s.cfg.srqCap s
  have hne : s.seqState ≠ .idle := by rw [hq]; exact (nomatch ·)
  rcases hturn : s.readTurn .srq s.cfg.srqCap with ⟨_ | st, t⟩
  all_goals
    rw [hturn] at hread
    have hst := hread.keeps State.status fun _ => rfl
    have hlen : t.rspLen = s.rspLen := hread.lengths .rsp (nomatch ·)
  · have hq' : t.seqState = .rx2 := (hread.keeps State.seqState fun _ => rfl).trans hq
    rw [State.stepRx2_of_retry hturn]
    exact ⟨hread.toFrame, hne, by rw [hq']; exact (nomatch ·), (by rw [hq']; rintro (h | h) <;> cases h),
      fun _ => .inr ⟨.inr hq, hread.keeps State.dirMode fun _ => rfl⟩, .inl hst, .inl hlen.le⟩
  · rw [State.stepRx2_of_last hturn]
    obtain ⟨h1, h2⟩ := (State.readTurn_outcome hturn).ne
    obtain ⟨g1, g2⟩ := State.srqStatus_ne h1 h2 t
    have hframe := hread.toFrame
    refine State.runs_toRestore ⟨hframe.outline, hframe.rsp, hframe.srq⟩ hne rfl ?_ (.inl hlen.le)
    rw [hst]
    rcases firstError_cases s.status (t.srqStatus st) with h | ⟨hok, h⟩
    · exact .inl h
    · exact .inr ⟨hok, by rw [h]; exact g1, by rw [h]; exact g2⟩

/-! ### The end of the transaction -/

/-- What the restore step leaves (R163, R164): the line restored or its switch failed, `Q_IDLE`, the lock free, and the result and
the buffer in the requester's port, if the block has it. -/
structure State.Ends (s t : State) : Prop where
  outline : t.outline = { s.outline with lockHeld := false, ports := t.ports }
  seqState : t.seqState = .idle
  direction : t.dirMode = .idle ∨ t.dirFailed = some .idle
  status : t.status = s.endStatus
  rsp : t.rsp = s.rsp
  srq : t.srq = s.srq
  ports : (s.ports[s.reqId]? = none ∧ t.ports = s.ports) ∨ ∃ p q, s.ports[s.reqId]? = some p ∧
    t.ports = s.ports.set s.reqId q ∧ q.act = .free ∧ q.req = p.req ∧ q.rsp = s.rsp ∧
    q.result = some (s.endStatus, s.rspLen)

/-- A part of the outline other than the lock and the ports reads as before. -/
theorem State.Ends.keeps {s t : State} (h : s.Ends t) {α : Type} (f : State → α)
    (hf : ∀ u, f u.outline = f u) (hf' : ∀ u ps, f { u with lockHeld := false, ports := ps } = f u) : f t = f s := by
  rw [← hf t, h.outline, hf', hf]

theorem State.Ends.lockHeld {s t : State} (h : s.Ends t) : t.lockHeld = false := congrArg State.lockHeld h.outline

/-- The switch to `IDLE` restores the line or fails. -/
theorem State.setDir_idle (s : State) : (s.setDir .idle).dirMode = .idle ∨ (s.setDir .idle).dirFailed = some .idle := by
  rcases Bool.eq_false_or_eq_true s.setDirAnswer with ha | ha
  · exact .inl (if_pos ha)
  · exact .inr (if_neg (by simp [ha]))

theorem State.release_ends (s : State) : s.Ends s.release := by
  rcases hp : s.ports[s.reqId]? with _ | p
  · have hmodify : ∀ f : Port → Port, s.ports.modify s.reqId f = s.ports := fun f => by
      rw [List.modify_eq_set_getElem?, hp]
      rfl
    rw [State.release_eq, State.endStatus_eq, hmodify, hmodify]
    exact ⟨rfl, rfl, s.setDir_idle, rfl, rfl, rfl, .inl ⟨hp, rfl⟩⟩
  · rw [State.release_of_port hp]
    exact ⟨rfl, rfl, s.setDir_idle, rfl, rfl, rfl, .inr ⟨p, _, hp, rfl, rfl, rfl, rfl, rfl⟩⟩

/-- What the end of a call adds to the end of its transaction: the verb's effect, and its result in the port. -/
theorem State.finishCall_cases (r : Nat) (st : Status) (len : Nat) (s : State) : s.finishCall r st len = s ∨
    ∃ p v vr line, s.ports[r]? = some p ∧ s.finishCall r st len = { s.verbEffect v st line with
      ports := s.ports.set r { p with verb := none, verbResult := vr } } := by
  rcases hp : s.ports[r]? with _ | p
  · exact .inl (by rw [State.finishCall, hp])
  · rcases Option.eq_none_or_eq_some p.verb with hv | ⟨v, hv⟩
    · exact .inl (State.finishCall_of_no_verb hp hv st len)
    · exact .inr ⟨p, v, _, _, rfl, State.finishCall_of_verb hp hv st len⟩

theorem State.stepRestore_ends (s : State) : s.Ends s.stepRestore := by
  have hrelease := s.release_ends
  have hreq : s.release.reqId = s.reqId := rfl
  rcases State.finishCall_cases s.release.reqId s.release.status s.release.rspLen s.release with h | ⟨p, v, vr, line, hp, h⟩
  · rw [State.stepRestore, h]
    exact hrelease
  · rw [State.stepRestore, h, State.verbEffect_frame]
    refine ⟨?_, hrelease.seqState, hrelease.direction, hrelease.status, hrelease.rsp, hrelease.srq, ?_⟩
    · exact congrArg (fun u : State => { u with ports := (s.release.ports.set s.release.reqId
        { p with verb := none, verbResult := vr }) }) hrelease.outline
    · rcases hrelease.ports with ⟨hnone, hports⟩ | ⟨p', q, hp', hports, hact, hreq', hrsp, hresult⟩
      · rw [hports, hreq, hnone] at hp
        cases hp
      · have hlt : s.reqId < s.ports.length := (List.getElem?_eq_some_iff.1 hp').1
        rw [hports, hreq, List.getElem?_set_self hlt] at hp
        obtain rfl := Option.some.inj hp
        refine .inr ⟨p', { q with verb := none, verbResult := vr }, hp', ?_, hact, hreq', hrsp, hresult⟩
        dsimp only
        rw [hports, hreq, List.set_set]

end Sys2Proof.Machine
end

section
/-! Every next state is one of a few moves (R8, R10): `step_moves`.  An invariant is then proved move by move, each move by its
frame. -/

namespace Sys2Proof.Machine

set_option Elab.async false

/-! ### The moves -/

/-- A free requester's port after its call joined the waiters: a SEND's, with a record that VALID accepts, or a LOCK's. -/
def Port.Joins (cfg : Params) (p q : Port) : Prop :=
  q.rsp = p.rsp ∧
    ((q.act = .sending ∧ q.result = none ∧ 2 ≤ q.req.cmdLen ∧ q.req.cmdLen ≤ cfg.cmdMax) ∨
      (q.act = .locking ∧ q.req = p.req ∧ q.result = p.result))

/-- A free requester's port after a call that was answered at once. -/
def Port.Answered (p q : Port) : Prop :=
  q.rsp = p.rsp ∧ q.act = .free ∧ (q.result = none ∨ q.result = some (.invalidArg, 0))

/-- A requester among the waiters, its port as its call left it. -/
def State.join (r : Nat) (q : Port) (s : State) : State :=
  { s with lockWaiters := insertWaiter r s.lockWaiters, ports := s.ports.set r q }

/-- What a step can do to the state whose input it takes. -/
inductive State.Moves (s : State) : State → Prop
  | works {t : State} (h : s.Works t) : State.Moves s t
  | runs {t : State} (h : s.Runs t) : State.Moves s t
  | ends {t : State} (hq : s.seqState = .restore) (h : s.Ends t) : State.Moves s t
  | grants (hq : s.seqState = .idle) : State.Moves s s.tryGrant
  | waits {r : Nat} {p q : Port} (hb : s.busValid = true) (hp : s.ports[r]? = some p) (hact : p.act = .free)
      (hq : p.Joins s.cfg q) : State.Moves s (s.join r q).tryGrant
  | answered {r : Nat} {p q : Port} (hp : s.ports[r]? = some p) (hact : p.act = .free) (hq : p.Answered q) :
      State.Moves s { s with ports := s.ports.set r q }
  | unlocks {r : Nat} {p : Port} {v : Ret} (hp : s.ports[r]? = some p) (hown : s.owns r) (hq : s.seqState = .idle)
      (hrest : s.restored) :
      State.Moves s { s with lockHeld := false, ports := s.ports.set r { p with act := .free }, ret := v }
  | creates {line b m : Nat} {v : Ret} (hbus : s.busValid = false) (hb : 0 < b) (hm : 0 < s.cfg.markDefault → 0 < m) :
      State.Moves s { s with
        lineId := line, tp := { breakDur := b, markDur := m }, dirMode := .idle, dirFailed := none, lockHeld := false,
        lockWaiters := [], seqState := .idle, busValid := true, ret := v }
  | destroys {v : Ret} (hl : s.lockHeld = false) (hw : s.lockWaiters = []) : State.Moves s { s.forget with ret := v }

/-! ### The calls -/

/-- SEND's call (R146, R147): answered, or among the waiters. -/
theorem State.sendBy_moves {s : State} {r : Nat} {p : Port} (hp : s.ports[r]? = some p) (hact : p.act = .free)
    (req : Request) (v : Option Verb) : s.Moves (s.sendBy r req v) := by
  by_cases hacc : s.Accepts req
  · rw [State.sendBy_of_accepts hp hacc v]
    exact .waits hacc.bus hp hact ⟨rfl, .inl ⟨rfl, rfl, hacc.lower, hacc.upper⟩⟩
  · cases v with
    | none =>
      have hsend := (exec_send_of_free hp hact req).symm.trans (sendInvalid r req p s hp hact hacc)
      rw [Host.Outcome.next.inj hsend]
      exact .answered hp hact ⟨rfl, hact, .inr rfl⟩
    | some v =>
      rw [verbErrors.1 r req p v s hp hact hacc]
      exact .answered hp hact ⟨rfl, hact, .inr rfl⟩

theorem execSend_moves {r : Nat} {req : Request} {s t : State} (h : execSend r req s = .next t) : s.Moves t := by
  unfold execSend at h
  split at h
  · cases h
  · next p hp =>
    split_ifs at h with hact
    cases h
    exact State.sendBy_moves hp (not_not.1 hact) req none

theorem State.callPlain_moves {via : Via} {v : Verb} {cmd : List Byte} {s t : State}
    (h : s.callPlain via v cmd = .next t) : s.Moves t := by
  unfold State.callPlain at h
  split at h
  · cases h
  · next p hp =>
    split_ifs at h with hact
    cases h
    exact State.sendBy_moves hp (not_not.1 hact) _ _

/-- A verb on a session is SEND's call by a free requester. -/
theorem State.callOn_cases {via : Via} {k : Nat} {v : Verb} {cmd : Byte → List Byte} {check : Bool} {s t : State}
    (h : s.callOn via k v cmd check = .next t) :
    ∃ p req, s.ports[via.requester]? = some p ∧ p.act = .free ∧ t = s.sendBy via.requester req (some v) := by
  unfold State.callOn at h
  split at h
  · cases h
  · next p hp =>
    split at h
    · cases h
    · next hact =>
      split at h
      · cases h
      · split_ifs at h
        cases h
        exact ⟨p, _, hp, not_not.1 hact, rfl⟩

theorem State.callOn_moves {via : Via} {k : Nat} {v : Verb} {cmd : Byte → List Byte} {check : Bool} {s t : State}
    (h : s.callOn via k v cmd check = .next t) : s.Moves t := by
  obtain ⟨p, req, hp, hact, rfl⟩ := State.callOn_cases h
  exact State.sendBy_moves hp hact req _

/-- A verb with an index is SEND's call, or answered without one (R206). -/
theorem State.callIndexed_moves {via : Via} {k : Nat} {idx : Option Nat} {v : Verb} {cmd : Byte → List Byte} {check : Bool}
    {s t : State} (h : s.callIndexed via k idx v cmd check = .next t) : s.Moves t := by
  rcases hcall : s.callOn via k v cmd check with u | e | e
  · rw [State.callIndexed_eq hcall] at h
    obtain ⟨p, req, hp, hact, rfl⟩ := State.callOn_cases hcall
    split_ifs at h <;> cases h
    · rw [State.verbAnswer_eq hp]
      exact .answered hp hact ⟨rfl, hact, .inl rfl⟩
    · exact State.sendBy_moves hp hact req _
  · rw [State.callIndexed, hcall] at h
    cases h
  · rw [State.callIndexed, hcall] at h
    cases h

theorem State.endSession_moves {k : Nat} {s t : State} (h : s.endSession k = .next t) : s.Moves t := by
  unfold State.endSession at h
  split at h
  · cases h
  · split_ifs at h
    cases h
    exact .works ⟨⟨rfl, id, id⟩, rfl, .inl ⟨rfl, rfl⟩, fun _ => ⟨rfl, rfl⟩⟩

/-! ### The bus services -/

theorem State.answer_moves (s : State) (r : Ret) : s.Moves { s with ret := r } := .works (s.works_answer s.draws r)

theorem execCreate_moves {line brk mark : Nat} {s t : State} (h : execCreate line brk mark s = .next t) : s.Moves t := by
  unfold execCreate at h
  split_ifs at h with hb hbrk hmark hmark <;> cases h
  · exact s.answer_moves _
  · exact .creates (by simpa using hb) (by decide) id
  · exact .creates (by simpa using hb) (by decide) fun _ => Nat.pos_of_ne_zero hmark
  · exact .creates (by simpa using hb) (Nat.pos_of_ne_zero hbrk) id
  · exact .creates (by simpa using hb) (Nat.pos_of_ne_zero hbrk) fun _ => Nat.pos_of_ne_zero hmark

theorem execDestroy_moves {s t : State} (h : execDestroy s = .next t) : s.Moves t := by
  unfold execDestroy at h
  split_ifs at h with hb hbusy <;> cases h
  · exact s.answer_moves _
  · rw [not_or, not_not, Bool.not_eq_true] at hbusy
    exact .destroys hbusy.1 hbusy.2

theorem execLock_moves {r : Nat} {s t : State} (h : execLock r s = .next t) : s.Moves t := by
  unfold execLock at h
  split_ifs at h with hb
  · cases h
    exact s.answer_moves _
  · split at h
    · cases h
    · next p hp =>
      split_ifs at h with hact
      cases h
      rw [State.lockBy_eq hp]
      exact .waits (by simpa using hb) hp (not_not.1 hact) ⟨rfl, .inr ⟨rfl, rfl, rfl⟩⟩

theorem execUnlock_moves {r : Nat} {s t : State} (h : execUnlock r s = .next t) : s.Moves t := by
  unfold execUnlock at h
  split at h
  · cases h
    exact s.answer_moves _
  · split at h
    · cases h
    · next p hp =>
      split_ifs at h with hown hrest
      cases h
      obtain ⟨hheld, howner, hq⟩ := hown
      rw [modify_eq_set hp]
      exact .unlocks hp ⟨hheld, howner⟩ hq hrest

/-! ### A step -/

/-- Every operation's effect is one of the moves. -/
theorem exec_moves {i : Instr} {s t : State} (h : exec i s = .next t) : s.Moves t := by
  cases i with
  | send r req => exact execSend_moves h
  | valid req => exact Host.Outcome.next.inj h ▸ s.answer_moves _
  | readline d cap budget => exact .works (execReadline_works h)
  | classify => exact Host.Outcome.next.inj h ▸ .works (s.works_answer _ _)
  | encode => exact .works (execEncode_works h)
  | preamble => exact Host.Outcome.next.inj h ▸ s.answer_moves _
  | frame c => exact .works (execFrame_works h)
  | decode n d cap => exact .works (execDecode_works h)
  | units d => exact Host.Outcome.next.inj h ▸ s.answer_moves _
  | crc16 b m => exact .works (execCrc16_works h)
  | crcenc v => exact Host.Outcome.next.inj h ▸ s.answer_moves _
  | crc3k0 f => exact Host.Outcome.next.inj h ▸ s.answer_moves _
  | crc3k1 f => exact Host.Outcome.next.inj h ▸ s.answer_moves _
  | crc3k2 f => exact Host.Outcome.next.inj h ▸ s.answer_moves _
  | verify => exact .works (execVerify_works h)
  | create line brk mark => exact execCreate_moves h
  | destroy => exact execDestroy_moves h
  | lock r => exact execLock_moves h
  | unlock r => exact execUnlock_moves h
  | setdir m => exact .works (execSetdir_works h)
  | envEmit => exact .works (execEnvEmit_works h)
  | envCapture budget => exact .works (execEnvCapture_works h)
  | envSetdir m => exact .works (execEnvSetdir_works h)
  | cmdM => exact .works (verbRow_works h)
  | cmdV => exact .works (verbRow_works h)
  | cmdH => exact .works (verbRow_works h)
  | cmdC => exact .works (verbRow_works h)
  | cmdD => exact .works (verbRow_works h)
  | cmdR => exact .works (verbRow_works h)
  | cmdDefault v => exact .works (verbRow_works h)
  | newSession via addr => exact State.callPlain_moves h
  | ackActive via k => exact State.callOn_moves h
  | addressQuery via => exact State.callPlain_moves h
  | changeAddress via k b => exact State.callOn_moves h
  | readIdentification via k => exact State.callOn_moves h
  | startMeasurement via k crc idx => exact State.callIndexed_moves h
  | startConcurrent via k crc idx => exact State.callIndexed_moves h
  | readData via k idx check => exact State.callIndexed_moves h
  | readContinuous via k idx check => exact State.callIndexed_moves h
  | startVerification via k => exact State.callOn_moves h
  | identifyExtended via k cmd => exact State.callOn_moves h
  | rawExtended via k cmd check => exact State.callOn_moves h

/-- A step within a transaction, up to the restore step (R166). -/
theorem State.sequence_runs {s : State} (hq : s.seqState ≠ .idle) (hr : s.seqState ≠ .restore) : s.Runs s.sequence := by
  cases hs : s.seqState with
  | idle => exact absurd hs hq
  | dirTx => exact State.sequence_of_dirTx hs ▸ State.stepDirTx_runs hs
  | emit => exact State.sequence_of_emit hs ▸ State.stepEmit_runs hs
  | dirRx => exact State.sequence_of_dirRx hs ▸ State.stepDirRx_runs hs
  | rx1 => exact State.sequence_of_rx1 hs ▸ State.stepRx1_runs hs
  | rx2 => exact State.sequence_of_rx2 hs ▸ State.stepRx2_runs hs
  | restore => exact absurd hs hr

/-- A step of the sequencer is a grant, a step of the transaction or its end (R166). -/
theorem State.sequence_moves (s : State) : s.Moves s.sequence := by
  by_cases hq : s.seqState = .idle
  · have he : s.sequence = s.tryGrant := by rw [State.sequence, hq]
    exact he ▸ .grants hq
  · by_cases hr : s.seqState = .restore
    · exact State.sequence_of_restore hr ▸ .ends hr s.stepRestore_ends
    · exact .runs (State.sequence_runs hq hr)

theorem State.dropInput_of_no_inputs {s : State} (h : s.inputs = []) : s.dropInput = s := by
  rw [State.dropInput, h, List.tail_nil, ← h]

theorem State.runPacket_moves {p : Packet} {s t : State} (h : s.runPacket p = .next t) : s.Moves t := by
  unfold State.runPacket at h
  split at h
  · cases h
  · split at h
    · cases h
    · exact exec_moves h

/-- Everything a step can do. -/
theorem step_moves {s t : State} (h : step s = .next t) : s.dropInput.Moves t := by
  change s.move = _ at h
  unfold State.move at h
  split at h
  · next hi =>
    cases h
    rw [State.dropInput_of_no_inputs hi]
    exact s.sequence_moves
  · cases h
    exact s.dropInput.sequence_moves
  · exact State.endSession_moves h
  · exact State.runPacket_moves h

/-! ### The grant -/

/-- What the end of a LOCK's wait leaves (R184): nothing where the lock is held or nobody waits, else the lock with one of the
waiters, whose SEND begins or whose LOCK returns. -/
inductive State.Grants (s : State) : State → Prop
  | held (h : s.lockHeld = true ∨ s.lockWaiters = []) : State.Grants s s
  | begins {w : Nat} {p : Port} {sc : Script} {dr : Nat} (hl : s.lockHeld = false) (hw : w ∈ s.lockWaiters)
      (hp : s.ports[w]? = some p) (hact : p.act = .sending) : State.Grants s (State.loadRequest w p
        { s with lockWaiters := s.lockWaiters.filter (· ≠ w), lockHeld := true, lockOwner := w, script := sc, draws := dr })
  | holds {w : Nat} {p : Port} {sc : Script} {dr : Nat} (hl : s.lockHeld = false) (hw : w ∈ s.lockWaiters)
      (hp : s.ports[w]? = some p) (hact : p.act ≠ .sending) : State.Grants s
        { s with lockWaiters := s.lockWaiters.filter (· ≠ w), lockHeld := true, lockOwner := w,
                 ports := s.ports.set w { p with act := .holding }, script := sc, draws := dr }
  | absent {w : Nat} {sc : Script} {dr : Nat} (hl : s.lockHeld = false) (hw : w ∈ s.lockWaiters)
      (hp : s.ports[w]? = none) : State.Grants s
        { s with lockWaiters := s.lockWaiters.filter (· ≠ w), lockHeld := true, lockOwner := w, script := sc, draws := dr }

theorem State.grantTo_grants {s : State} {w : Nat} (hl : s.lockHeld = false) (hw : w ∈ s.lockWaiters) (sc : Script)
    (dr : Nat) : s.Grants (State.grantTo w { s with script := sc, draws := dr }) := by
  rcases State.grantTo_cases w { s with script := sc, draws := dr } with
    ⟨p, hp, hact, he⟩ | ⟨p, hp, hact, he⟩ | ⟨hp, he⟩
  · rw [he]
    exact .begins hl hw hp hact
  · rw [he, modify_eq_set hp]
    exact .holds hl hw hp hact
  · rw [he]
    exact .absent hl hw hp

theorem State.tryGrant_grants (s : State) : s.Grants s.tryGrant := by
  rcases State.tryGrant_cases s with ⟨he, h⟩ | ⟨hl, w, hw, he | he⟩
  · rw [he]
    exact .held h
  · rw [he]
    exact State.grantTo_grants hl hw s.script s.draws
  · rw [he]
    exact State.grantTo_grants hl hw _ _

end Sys2Proof.Machine
end

section
/-! The invariants and the frame of a step, move by move. -/

namespace Sys2Proof.Machine

set_option Elab.async false

/-! ### What a step does to a port -/

/-- A port's record, buffer and result are as they were, and it starts no SEND. -/
def Port.SameRecord (p q : Port) : Prop :=
  q.req = p.req ∧ q.rsp = p.rsp ∧ q.result = p.result ∧ (q.act = .sending → p.act = .sending)

theorem Port.SameRecord.refl (p : Port) : p.SameRecord p := ⟨rfl, rfl, rfl, id⟩

/-- What a step can do to port `r`. -/
inductive State.PortMoves (s t : State) (r : Nat) (p q : Port) : Prop
  | stays (h : p.SameRecord q) : State.PortMoves s t r p q
  | calls (hact : p.act = .free) (hrsp : q.rsp = p.rsp)
      (hresult : q.result = none ∨ q.result = some (.invalidArg, 0) ∨ (q.result = p.result ∧ q.req = p.req))
      (hsend : q.act = .sending → 2 ≤ q.req.cmdLen ∧ q.req.cmdLen ≤ s.cfg.cmdMax) : State.PortMoves s t r p q
  | ends (hq : s.seqState = .restore) (hq' : t.seqState = .idle) (hr : s.reqId = r) (hact : q.act = .free)
      (hreq : q.req = p.req) (hrsp : q.rsp = s.rsp) (hresult : q.result = some (s.endStatus, s.rspLen)) :
      State.PortMoves s t r p q

theorem getElem?_set_cases {ps : List Port} {r k : Nat} {q x : Port} (hx : (ps.set r q)[k]? = some x) :
    (k = r ∧ x = q ∧ ∃ p, ps[r]? = some p) ∨ (k ≠ r ∧ ps[k]? = some x) := by
  rcases eq_or_ne r k with rfl | hne
  · have hlt : r < ps.length := by
      rw [← List.length_set (i := r) (a := q)]
      exact (List.getElem?_eq_some_iff.1 hx).1
    rw [List.getElem?_set_self hlt] at hx
    exact .inl ⟨rfl, (Option.some.inj hx).symm, _, List.getElem?_eq_getElem hlt⟩
  · rw [List.getElem?_set_ne hne] at hx
    exact .inr ⟨hne.symm, hx⟩

/-- A grant changes no port but its activity. -/
theorem State.Grants.ports {s t : State} (h : s.Grants t) : t.ports.length = s.ports.length ∧
    ∀ (k : Nat) (q : Port), t.ports[k]? = some q → ∃ p, s.ports[k]? = some p ∧ Port.SameRecord p q := by
  have hsame : ∀ {ps : List Port}, ps = s.ports → ps.length = s.ports.length ∧
      ∀ (k : Nat) (q : Port), ps[k]? = some q → ∃ p, s.ports[k]? = some p ∧ Port.SameRecord p q := by
    rintro _ rfl
    exact ⟨rfl, fun k q hq => ⟨q, hq, .refl q⟩⟩
  cases h with
  | held h => exact hsame rfl
  | begins hl hw hp hact => exact hsame rfl
  | absent hl hw hp => exact hsame rfl
  | @holds w p sc dr hl hw hp hact =>
    refine ⟨List.length_set, fun k q hq => ?_⟩
    rcases getElem?_set_cases hq with ⟨rfl, rfl, -⟩ | ⟨-, hk⟩
    · exact ⟨p, hp, rfl, rfl, rfl, (nomatch ·)⟩
    · exact ⟨q, hk, .refl q⟩

/-- What a step does to the ports: each in one of these ways. -/
def State.PortsMove (s t : State) : Prop := t.ports.length = s.ports.length ∧
  ∀ (k : Nat) (q : Port), t.ports[k]? = some q → ∃ p, s.ports[k]? = some p ∧ s.PortMoves t k p q

theorem State.portsMove_of_eq {s t : State} (h : t.ports = s.ports) : s.PortsMove t := by
  rw [State.PortsMove, h]
  exact ⟨rfl, fun k q hq => ⟨q, hq, .stays (.refl q)⟩⟩

theorem State.portsMove_of_set {s t : State} {r : Nat} {p q : Port} (hp : s.ports[r]? = some p)
    (hmove : s.PortMoves t r p q) (h : t.ports = s.ports.set r q) : s.PortsMove t := by
  rw [State.PortsMove, h]
  refine ⟨List.length_set, fun k x hx => ?_⟩
  rcases getElem?_set_cases hx with ⟨rfl, rfl, -⟩ | ⟨-, hk⟩
  · exact ⟨p, hp, hmove⟩
  · exact ⟨x, hk, .stays (.refl x)⟩

theorem State.Moves.ports {s t : State} (h : s.Moves t) : s.PortsMove t := by
  cases h with
  | works h => exact State.portsMove_of_eq (h.keeps State.ports fun _ => rfl)
  | runs h => exact State.portsMove_of_eq (h.keeps State.ports fun _ => rfl)
  | ends hq h =>
    rcases h.ports with ⟨-, hports⟩ | ⟨p, q, hp, hports, hact, hreq, hrsp, hresult⟩
    · exact State.portsMove_of_eq hports
    · exact State.portsMove_of_set hp (.ends hq h.seqState rfl hact hreq hrsp hresult) hports
  | grants hq =>
    obtain ⟨hlen, hports⟩ := s.tryGrant_grants.ports
    refine ⟨hlen, fun k q hq => ?_⟩
    obtain ⟨p, hp, hsame⟩ := hports k q hq
    exact ⟨p, hp, .stays hsame⟩
  | @waits r p q hb hp hact hjoin =>
    obtain ⟨hlen, hports⟩ := (s.join r q).tryGrant_grants.ports
    refine ⟨hlen.trans List.length_set, fun k x hx => ?_⟩
    obtain ⟨y, hy, hyx⟩ := hports k x hx
    rcases getElem?_set_cases hy with ⟨rfl, rfl, -⟩ | ⟨-, hk⟩
    · obtain ⟨hreq, hrsp, hresult, hsend⟩ := hyx
      obtain ⟨jrsp, ⟨jact, jresult, jlow, jup⟩ | ⟨jact, jreq, jresult⟩⟩ := hjoin
      · exact ⟨p, hp, .calls hact (hrsp.trans jrsp) (.inl (hresult.trans jresult)) fun _ => by rw [hreq]; exact ⟨jlow, jup⟩⟩
      · refine ⟨p, hp, .calls hact (hrsp.trans jrsp) (.inr (.inr ⟨hresult.trans jresult, hreq.trans jreq⟩)) fun hs => ?_⟩
        exact nomatch jact.symm.trans (hsend hs)
    · exact ⟨y, hk, .stays hyx⟩
  | @answered r p q hp hact hq =>
    obtain ⟨hrsp, hqact, hresult⟩ := hq
    refine State.portsMove_of_set hp (.calls hact hrsp ?_ fun hs => (nomatch hqact.symm.trans hs)) rfl
    rcases hresult with h | h
    · exact .inl h
    · exact .inr (.inl h)
  | @unlocks r p v hp hown hq hrest =>
    have hstays : p.SameRecord { p with act := .free } := ⟨rfl, rfl, rfl, (nomatch ·)⟩
    exact State.portsMove_of_set hp (.stays hstays) rfl
  | creates hbus hb hm => exact State.portsMove_of_eq rfl
  | destroys hl hw => exact State.portsMove_of_eq rfl

/-- A property that every port keeps under a step holds of the ports after it. -/
theorem State.Moves.forall_ports {s t : State} (h : s.Moves t) {P Q : Port → Prop} (hs : ∀ p ∈ s.ports, P p)
    (hmove : ∀ k p q, s.ports[k]? = some p → s.PortMoves t k p q → P p → Q q) : ∀ q ∈ t.ports, Q q := by
  intro q hq
  obtain ⟨k, hk⟩ := List.getElem?_of_mem hq
  obtain ⟨p, hp, hpq⟩ := h.ports.2 k q hk
  exact hmove k p q hp hpq (hs p (List.mem_of_getElem? hp))

/-! ### The buffers -/

/-- A grant keeps the block's buffers in canonical form. -/
theorem State.Grants.canonical {s t : State} (h : s.Grants t) (hc : s.BuffersCanonical) :
    Memory.wf t.cmd ∧ Memory.wf t.rsp ∧ Memory.wf t.srq := by
  cases h with
  | held h => exact ⟨hc.cmd, hc.rsp, hc.srq⟩
  | begins hl hw hp hact =>
    exact ⟨Memory.wf_writeFrom _ hc.cmd 0, hc.ports _ (List.mem_of_getElem? hp), hc.srq⟩
  | holds hl hw hp hact => exact ⟨hc.cmd, hc.rsp, hc.srq⟩
  | absent hl hw hp => exact ⟨hc.cmd, hc.rsp, hc.srq⟩

/-- A requester's buffer stays its own, or is what its transaction received. -/
theorem State.PortMoves.canonical {s t : State} {k : Nat} {p q : Port} (h : s.PortMoves t k p q) (hr : Memory.wf s.rsp)
    (hp : Memory.wf p.rsp) : Memory.wf q.rsp := by
  cases h with
  | stays h => rw [h.2.1]; exact hp
  | calls hact hrsp hresult hsend => rw [hrsp]; exact hp
  | ends hq hq' hk hact hreq hrsp hresult => rw [hrsp]; exact hr

theorem State.Moves.canonical {s t : State} (h : s.Moves t) (hc : s.BuffersCanonical) : t.BuffersCanonical := by
  have hports := h.forall_ports (P := fun p => Memory.wf p.rsp) (Q := fun p => Memory.wf p.rsp) hc.ports
    fun k p q _ hpq hp => hpq.canonical hc.rsp hp
  have hall : Memory.wf t.cmd ∧ Memory.wf t.rsp ∧ Memory.wf t.srq → t.BuffersCanonical :=
    fun ⟨hcmd, hrsp, hsrq⟩ => ⟨hcmd, hrsp, hsrq, hports⟩
  cases h with
  | works h => exact hall ⟨h.keeps State.cmd (fun _ => rfl) ▸ hc.cmd, h.rsp hc.rsp, h.srq hc.srq⟩
  | runs h => exact hall ⟨h.keeps State.cmd (fun _ => rfl) ▸ hc.cmd, h.rsp hc.rsp, h.srq hc.srq⟩
  | ends hq h =>
    exact hall ⟨h.keeps State.cmd (fun _ => rfl) (fun _ _ => rfl) ▸ hc.cmd, h.rsp ▸ hc.rsp, h.srq ▸ hc.srq⟩
  | grants hq => exact hall (s.tryGrant_grants.canonical hc)
  | @waits r p q hb hp hact hjoin =>
    refine hall ((s.join r q).tryGrant_grants.canonical ⟨hc.cmd, hc.rsp, hc.srq, fun x hx => ?_⟩)
    rcases List.mem_or_eq_of_mem_set hx with hx | rfl
    · exact hc.ports x hx
    · rw [hjoin.1]
      exact hc.ports p (List.mem_of_getElem? hp)
  | answered hp hact hq => exact hall ⟨hc.cmd, hc.rsp, hc.srq⟩
  | unlocks hp hown hq hrest => exact hall ⟨hc.cmd, hc.rsp, hc.srq⟩
  | creates hbus hb hm => exact hall ⟨hc.cmd, hc.rsp, hc.srq⟩
  | destroys hl hw =>
    exact hall ⟨Memory.wf_writeFrom _ Memory.wf_nil 0, Memory.wf_writeFrom _ Memory.wf_nil 0,
      Memory.wf_writeFrom _ Memory.wf_nil 0⟩

/-- Settles O46: every move keeps the form. -/
theorem buffersStayCanonical : Obligations.BuffersStayCanonical := fun _ _ hc h =>
  (step_moves h).canonical ⟨hc.cmd, hc.rsp, hc.srq, hc.ports⟩

/-- Settles O53: of the ways a port can change, only the end of its transaction writes its buffer. -/
theorem rspIsolation : Obligations.RspIsolation := by
  intro s t r p q h hp hq hne
  obtain ⟨p', hp', hmove⟩ := (step_moves h).ports.2 r q hq
  obtain rfl : p = p' := Option.some.inj (hp.symm.trans hp')
  cases hmove with
  | stays h => exact absurd h.2.1 hne
  | calls hact hrsp hresult hsend => exact absurd hrsp hne
  | ends hq hq' hr hact hreq hrsp hresult => exact ⟨hq, hq', hr, hrsp⟩

/-! ### The configuration -/

/-- The parameters and the Bus as they were. -/
def State.SameBus (s t : State) : Prop := t.cfg = s.cfg ∧ t.busValid = s.busValid ∧ t.lineId = s.lineId ∧ t.tp = s.tp

theorem State.Grants.sameBus {s t : State} (h : s.Grants t) : s.SameBus t := by
  cases h with
  | held h => exact ⟨rfl, rfl, rfl, rfl⟩
  | begins hl hw hp hact => exact ⟨rfl, rfl, rfl, rfl⟩
  | holds hl hw hp hact => exact ⟨rfl, rfl, rfl, rfl⟩
  | absent hl hw hp => exact ⟨rfl, rfl, rfl, rfl⟩

theorem State.Frame.sameBus {s t : State} (h : s.Frame t) : s.SameBus t :=
  ⟨h.keeps State.cfg fun _ => rfl, h.keeps State.busValid fun _ => rfl, h.keeps State.lineId fun _ => rfl,
    h.keeps State.tp fun _ => rfl⟩

/-- The Bus is as it was, made, or gone (R180 to R182). -/
theorem State.Moves.bus {s t : State} (h : s.Moves t) : s.SameBus t ∨
    (t.cfg = s.cfg ∧ s.busValid = false ∧ 0 < t.tp.breakDur ∧ (0 < s.cfg.markDefault → 0 < t.tp.markDur)) ∨
    (t.cfg = s.cfg ∧ t.busValid = false) := by
  cases h with
  | works h => exact .inl h.sameBus
  | runs h => exact .inl h.sameBus
  | ends hq h =>
    exact .inl ⟨h.keeps State.cfg (fun _ => rfl) fun _ _ => rfl, h.keeps State.busValid (fun _ => rfl) fun _ _ => rfl,
      h.keeps State.lineId (fun _ => rfl) fun _ _ => rfl, h.keeps State.tp (fun _ => rfl) fun _ _ => rfl⟩
  | grants hq => exact .inl s.tryGrant_grants.sameBus
  | @waits r p q hb hp hact hjoin => exact .inl (s.join r q).tryGrant_grants.sameBus
  | answered hp hact hq => exact .inl ⟨rfl, rfl, rfl, rfl⟩
  | unlocks hp hown hq hrest => exact .inl ⟨rfl, rfl, rfl, rfl⟩
  | creates hbus hb hm => exact .inr (.inl ⟨rfl, hbus, hb, hm⟩)
  | destroys hl hw => exact .inr (.inr ⟨rfl, rfl⟩)

/-- Settles O51: by what becomes of the Bus. -/
theorem configurationStays : Obligations.ConfigurationStays := by
  intro s t h
  have hmove := step_moves h
  have hlen : t.ports.length = s.ports.length := hmove.ports.1
  rcases hmove.bus with ⟨hcfg, hbus, hline, htp⟩ | ⟨hcfg, hbus, hbreak, hmark⟩ | ⟨hcfg, hbus⟩
  · refine ⟨hcfg, hlen, fun _ _ => ⟨hline, htp⟩, fun hpos => ?_⟩
    rw [State.TimingPositive, hcfg, hbus, htp]
    exact hpos
  · refine ⟨hcfg, hlen, fun hb => (nomatch hbus.symm.trans hb), fun hpos => ⟨hcfg ▸ hpos.1, fun _ => ⟨hbreak, hmark hpos.1⟩⟩⟩
  · exact ⟨hcfg, hlen, fun _ hb => (nomatch hbus.symm.trans hb),
      fun hpos => ⟨hcfg ▸ hpos.1, fun hb => (nomatch hbus.symm.trans hb)⟩⟩

end Sys2Proof.Machine
end

section
/-! The lock's discipline (R13, R34, R36): each way a state is written keeps it, so every move does. -/

namespace Sys2Proof.Machine

set_option Elab.async false

/-! ### The lock's discipline, update by update -/

/-- What the activities depend on. -/
theorem State.activityFits_congr {s t : State} (hw : t.lockWaiters = s.lockWaiters) (hl : t.lockHeld = s.lockHeld)
    (ho : t.lockOwner = s.lockOwner) (hq : t.seqState = .idle ↔ s.seqState = .idle) (hr : t.reqId = s.reqId) (r : Nat)
    (act : Activity) : t.activityFits r act ↔ s.activityFits r act := by
  cases act <;> simp only [State.activityFits, State.owns, hw, hl, ho, hr, ne_eq, hq]

section
variable {s : State} (h : s.LockDiscipline)
include h

/-- The units' work, and a step within a transaction, keep the discipline. -/
theorem State.LockDiscipline.of_frame {t : State} (hf : s.Frame t) (hq : t.seqState = .idle ↔ s.seqState = .idle) :
    t.LockDiscipline := by
  have hbus := hf.keeps State.busValid fun _ => rfl
  have hheld := hf.keeps State.lockHeld fun _ => rfl
  have howner := hf.keeps State.lockOwner fun _ => rfl
  have hwaiters := hf.keeps State.lockWaiters fun _ => rfl
  have hreq := hf.keeps State.reqId fun _ => rfl
  have hports := hf.keeps State.ports fun _ => rfl
  refine ⟨?_, ?_, ?_, ?_, ?_, ?_, ?_⟩
  · rw [ne_eq, hq, hheld, howner, hreq]
    exact h.transactionHoldsLock
  · rw [hq, hheld]
    exact h.freeMeansIdle
  · rw [hbus, hheld, hwaiters]
    exact h.noBusNoLock
  · rw [hwaiters]
    exact h.waitersRising
  · rw [hwaiters, hports]
    exact h.waitersExist
  · rw [hheld, howner, hports]
    exact h.ownerExists
  · intro r p hp
    rw [hports] at hp
    exact (State.activityFits_congr hwaiters hheld howner hq hreq r p.act).2 (h.activities r p hp)

/-- The owner does not wait. -/
theorem State.LockDiscipline.owner_not_waiting {r : Nat} (hown : s.owns r) : r ∉ s.lockWaiters := by
  have hlt := h.ownerExists hown.1
  rw [hown.2] at hlt
  have hfits := h.activities r _ (List.getElem?_eq_getElem hlt)
  cases hact : (s.ports[r]).act with
  | free => rw [hact] at hfits; exact hfits.1
  | locking => rw [hact] at hfits; exact absurd hown hfits.2
  | holding => rw [hact] at hfits; exact hfits.1
  | sending =>
    rw [hact] at hfits
    rcases hfits with ⟨-, hnot⟩ | ⟨hnot, -⟩
    · exact absurd hown hnot
    · exact hnot

/-- An activity that fits one who does not own the lock is `free`, or he waits. -/
theorem State.LockDiscipline.activity_of_not_owner {r : Nat} {p : Port} (hp : s.ports[r]? = some p) (hown : ¬s.owns r) :
    (p.act = .free ∧ r ∉ s.lockWaiters) ∨ ((p.act = .sending ∨ p.act = .locking) ∧ r ∈ s.lockWaiters) := by
  have hfits := h.activities r p hp
  cases hact : p.act with
  | free => rw [hact] at hfits; exact .inl ⟨rfl, hfits.1⟩
  | locking => rw [hact] at hfits; exact .inr ⟨.inr rfl, hfits.1⟩
  | holding => rw [hact] at hfits; exact absurd hfits.2.1 hown
  | sending =>
    rw [hact] at hfits
    rcases hfits with ⟨hw, -⟩ | ⟨-, hyes, -⟩
    · exact .inr ⟨.inl rfl, hw⟩
    · exact absurd hyes hown

/-- The lock freed by its owner, whose call is over (R163, R185). -/
theorem State.LockDiscipline.of_release {t : State} {r : Nat} {q : Port} (hown : s.owns r) (hbus : t.busValid = s.busValid)
    (hl : t.lockHeld = false) (hw : t.lockWaiters = s.lockWaiters) (hq : t.seqState = .idle)
    (hports : t.ports = s.ports.set r q) (hact : q.act = .free) : t.LockDiscipline := by
  have hfree : ∀ k, ¬t.owns k := fun k hk => nomatch hl.symm.trans hk.1
  refine ⟨fun hne => absurd hq hne, fun _ => hq, fun hb => ?_, hw ▸ h.waitersRising, ?_, fun hh => (nomatch hl.symm.trans hh),
    fun k x hx => ?_⟩
  · rw [hw]
    exact ⟨hl, (h.noBusNoLock (hbus ▸ hb)).2⟩
  · rw [hw, hports, List.length_set]
    exact h.waitersExist
  · rw [hports] at hx
    rcases getElem?_set_cases hx with ⟨rfl, rfl, -⟩ | ⟨hne, hk⟩
    · rw [hact]
      exact ⟨hw ▸ h.owner_not_waiting hown, hfree _⟩
    · rcases h.activity_of_not_owner hk fun hkown => hne (hkown.2.symm.trans hown.2) with ⟨ha, hnot⟩ | ⟨ha | ha, hmem⟩
      · rw [ha]; exact ⟨hw ▸ hnot, hfree k⟩
      · rw [ha]; exact .inl ⟨hw ▸ hmem, hfree k⟩
      · rw [ha]; exact ⟨hw ▸ hmem, hfree k⟩

/-- With the lock free and nobody waiting no requester does anything, whatever the other registers hold. -/
theorem State.LockDiscipline.of_quiet {t : State} (hl : s.lockHeld = false) (hw : s.lockWaiters = [])
    (hl' : t.lockHeld = false) (hw' : t.lockWaiters = []) (hq : t.seqState = .idle) (hports : t.ports = s.ports) :
    t.LockDiscipline := by
  refine ⟨fun hne => absurd hq hne, fun _ => hq, fun _ => ⟨hl', hw'⟩, hw' ▸ .nil, fun r hr => ?_,
    fun hh => (nomatch hl'.symm.trans hh), fun r p hp => ?_⟩
  · rw [hw'] at hr
    cases hr
  · rw [hports] at hp
    rcases h.activity_of_not_owner hp fun hown => (nomatch hl.symm.trans hown.1) with ⟨ha, -⟩ | ⟨-, hmem⟩
    · rw [ha]
      exact ⟨hw' ▸ List.not_mem_nil, fun hown => (nomatch hl'.symm.trans hown.1)⟩
    · rw [hw] at hmem
      cases hmem

/-- A port written without a change of activity. -/
theorem State.LockDiscipline.of_set {r : Nat} {p q : Port} (hp : s.ports[r]? = some p) (hact : q.act = p.act) :
    State.LockDiscipline { s with ports := s.ports.set r q } := by
  refine ⟨h.transactionHoldsLock, h.freeMeansIdle, h.noBusNoLock, h.waitersRising, ?_, ?_, fun k x hx => ?_⟩
  · rw [List.length_set]; exact h.waitersExist
  · rw [List.length_set]; exact h.ownerExists
  · rcases getElem?_set_cases hx with ⟨rfl, rfl, -⟩ | ⟨-, hk⟩
    · rw [hact]; exact h.activities _ p hp
    · exact h.activities k x hk

/-- A free requester that joins the waiters with a SEND or a LOCK (R147, R184). -/
theorem State.LockDiscipline.join {r : Nat} {p q : Port} (hb : s.busValid = true) (hp : s.ports[r]? = some p)
    (hact : p.act = .free) (hq : q.act = .sending ∨ q.act = .locking) : (s.join r q).LockDiscipline := by
  have hown : ¬s.owns r := by
    have hfits := h.activities r p hp
    rw [hact] at hfits
    exact hfits.2
  refine ⟨h.transactionHoldsLock, h.freeMeansIdle, fun hn => (nomatch hb.symm.trans hn), insertWaiter_rising h.waitersRising,
    insertWaiter_exist hp h.waitersExist, ?_, fun k x hx => ?_⟩
  · rw [State.join, List.length_set]
    exact h.ownerExists
  · rcases getElem?_set_cases hx with ⟨rfl, rfl, -⟩ | ⟨hne, hk⟩
    · have hmem : k ∈ (s.join k x).lockWaiters := mem_insertWaiter.2 (.inl rfl)
      rcases hq with ha | ha
      · rw [ha]; exact .inl ⟨hmem, hown⟩
      · rw [ha]; exact ⟨hmem, hown⟩
    · have hiff : k ∈ (s.join r q).lockWaiters ↔ k ∈ s.lockWaiters := mem_insertWaiter.trans (or_iff_right hne)
      have hfits := h.activities k x hk
      cases ha : x.act <;> rw [ha] at hfits <;> simp only [State.activityFits, hiff] <;> exact hfits

/-- Those who do not get the lock wait on, or do nothing. -/
theorem State.LockDiscipline.others_fit {t : State} {w k : Nat} {x : Port} (hl : s.lockHeld = false) (ho : t.lockOwner = w)
    (hmem : k ∈ t.lockWaiters ↔ k ∈ s.lockWaiters ∧ k ≠ w) (hne : k ≠ w) (hk : s.ports[k]? = some x) :
    t.activityFits k x.act := by
  have hnot : ¬t.owns k := fun hown => hne (hown.2.symm.trans ho)
  rcases h.activity_of_not_owner hk fun hown => (nomatch hl.symm.trans hown.1) with ⟨ha, hout⟩ | ⟨ha | ha, hin⟩
  · rw [ha]; exact ⟨fun hk => hout (hmem.1 hk).1, hnot⟩
  · rw [ha]; exact .inl ⟨hmem.2 ⟨hin, hne⟩, hnot⟩
  · rw [ha]; exact ⟨hmem.2 ⟨hin, hne⟩, hnot⟩

/-- The end of a LOCK's wait (R184). -/
theorem State.LockDiscipline.grants {t : State} (hg : s.Grants t) : t.LockDiscipline := by
  have hrising : ∀ w, (s.lockWaiters.filter (· ≠ w)).Pairwise (· < ·) := fun w => h.waitersRising.filter _
  have hexist : ∀ w, ∀ r ∈ s.lockWaiters.filter (· ≠ w), r < s.ports.length :=
    fun w r hr => h.waitersExist r (List.mem_of_mem_filter hr)
  have hmem : ∀ w r, r ∈ s.lockWaiters.filter (· ≠ w) ↔ r ∈ s.lockWaiters ∧ r ≠ w := fun w r => by
    rw [List.mem_filter, decide_eq_true_eq]
  have hout : ∀ w, w ∉ s.lockWaiters.filter (· ≠ w) := fun w hw => ((hmem w w).1 hw).2 rfl
  have hbus : ∀ {w}, w ∈ s.lockWaiters → s.busValid ≠ false := fun hw hb => by
    rw [(h.noBusNoLock hb).2] at hw
    cases hw
  cases hg with
  | held _ => exact h
  | @begins w p sc dr hl hw hp hact =>
    refine ⟨fun _ => ⟨rfl, rfl⟩, (nomatch ·), fun hb => absurd hb (hbus hw), hrising w, hexist w, fun _ => h.waitersExist w hw,
      fun k x hk => ?_⟩
    rcases eq_or_ne k w with rfl | hne
    · obtain rfl : p = x := Option.some.inj (hp.symm.trans hk)
      rw [hact]
      exact .inr ⟨hout k, ⟨rfl, rfl⟩, (nomatch ·), rfl⟩
    · exact h.others_fit hl rfl (hmem w k) hne hk
  | @holds w p sc dr hl hw hp hact =>
    have hidle := h.freeMeansIdle hl
    refine ⟨fun hne => absurd hidle hne, fun _ => hidle, fun hb => absurd hb (hbus hw), hrising w, ?_, fun _ => ?_,
      fun k x hk => ?_⟩
    · rw [List.length_set]; exact hexist w
    · rw [List.length_set]; exact h.waitersExist w hw
    · rcases getElem?_set_cases hk with ⟨rfl, rfl, -⟩ | ⟨hne, hk⟩
      · exact ⟨hout k, ⟨rfl, rfl⟩, hidle⟩
      · exact h.others_fit hl rfl (hmem w k) hne hk
  | absent hl hw hp => exact absurd (h.waitersExist _ hw) (Nat.not_lt.2 (List.getElem?_eq_none_iff.1 hp))

/-- Every move keeps the discipline. -/
theorem State.Moves.lockDiscipline {t : State} (hm : s.Moves t) : t.LockDiscipline := by
  cases hm with
  | works hw => exact h.of_frame hw.toFrame (by rw [hw.seqState])
  | runs hr => exact h.of_frame hr.toFrame ⟨fun he => absurd he hr.goesOn, fun he => absurd he hr.began⟩
  | ends hq he =>
    obtain ⟨hheld, howner⟩ := h.transactionHoldsLock (by rw [hq]; exact (nomatch ·))
    have hlt := h.ownerExists hheld
    rw [howner] at hlt
    rcases he.ports with ⟨hnone, -⟩ | ⟨p, q, hp, hports, hact, -⟩
    · exact absurd hlt (Nat.not_lt.2 (List.getElem?_eq_none_iff.1 hnone))
    · exact h.of_release ⟨hheld, howner⟩ (he.keeps State.busValid (fun _ => rfl) fun _ _ => rfl) he.lockHeld
        (he.keeps State.lockWaiters (fun _ => rfl) fun _ _ => rfl) he.seqState hports hact
  | grants hq => exact h.grants s.tryGrant_grants
  | waits hb hp hact hjoin =>
    refine (h.join hb hp hact ?_).grants (State.tryGrant_grants _)
    rcases hjoin.2 with ⟨ha, -⟩ | ⟨ha, -⟩
    · exact .inl ha
    · exact .inr ha
  | answered hp hact hq => exact h.of_set hp (hq.2.1.trans hact.symm)
  | unlocks hp hown hq hrest => exact h.of_release hown rfl rfl rfl hq rfl rfl
  | creates hbus hb hm =>
    obtain ⟨hl, hw⟩ := h.noBusNoLock hbus
    exact h.of_quiet hl hw rfl rfl rfl rfl
  | destroys hl hw => exact h.of_quiet hl hw hl hw (h.freeMeansIdle hl) rfl

/-- The discipline does not read the interface. -/
theorem State.LockDiscipline.dropInput : s.dropInput.LockDiscipline :=
  ⟨h.transactionHoldsLock, h.freeMeansIdle, h.noBusNoLock, h.waitersRising, h.waitersExist, h.ownerExists, h.activities⟩

end

/-- Settles O47: every move keeps the discipline. -/
theorem lockDisciplineStays : Obligations.LockDisciplineStays := fun _ _ h hstep => (step_moves hstep).lockDiscipline h.dropInput

end Sys2Proof.Machine
end

section
/-! What the steps of all agents leave of a transaction that is running, and the disciplines of the direction, the request
registers and the status. -/

namespace Sys2Proof.Machine

set_option Elab.async false

/-! ### A running transaction -/

/-- While a transaction runs a step is work of the units, a step of the transaction, its end, or a call that changes the waiters
and its caller's port alone: the grant, the bus services and UNLOCK need the lock free or the sequencer idle. -/
theorem State.LockDiscipline.moves_of_running {s t : State} (h : s.LockDiscipline) (hq : s.seqState ≠ .idle)
    (hm : s.Moves t) : s.Works t ∨ s.Runs t ∨ s.Ends t ∨ ∃ ws ps, t = { s with lockWaiters := ws, ports := ps } := by
  obtain ⟨hheld, -⟩ := h.transactionHoldsLock hq
  cases hm with
  | works h => exact .inl h
  | runs h => exact .inr (.inl h)
  | ends _ h => exact .inr (.inr (.inl h))
  | grants hidle => exact absurd hidle hq
  | @waits r p q hb hp hact hjoin =>
    have hno : (s.join r q).tryGrant = s.join r q := State.tryGrant_of_held hheld
    exact .inr (.inr (.inr ⟨_, _, hno⟩))
  | answered hp hact hanswer => exact .inr (.inr (.inr ⟨_, _, rfl⟩))
  | unlocks hp hown hidle hrest => exact absurd hidle hq
  | creates hbus hb hm => exact nomatch (h.noBusNoLock hbus).1.symm.trans hheld
  | destroys hl hw => exact nomatch hl.symm.trans hheld

/-- A transaction's end leaves an error as it is (R169). -/
theorem State.endStatus_of_error {s : State} (h : s.status ≠ .ok) : s.endStatus = s.status := by
  unfold State.endStatus
  split_ifs
  · exact if_neg h
  · rfl

/-- Settles O45: of the four, a step of the transaction alone writes the status, and only an `OK`. -/
theorem firstErrorWins : Obligations.FirstErrorWins := by
  intro s t h hq hst hstep
  rcases h.dropInput.moves_of_running hq (step_moves hstep) with hw | hr | he | ⟨ws, ps, rfl⟩
  · exact (hw.running hq).1
  · rcases hr.status with heq | ⟨hok, -⟩
    · exact heq
    · exact absurd hok hst
  · exact he.status.trans (State.endStatus_of_error (s := s.dropInput) hst)
  · rfl

/-- The request registers and `CMD` (R20). -/
def State.RequestKept (s t : State) : Prop :=
  t.reqId = s.reqId ∧ t.cmdLen = s.cmdLen ∧ t.requireCrc = s.requireCrc ∧ t.timeout = s.timeout ∧ t.rspCap = s.rspCap ∧
    t.cmd = s.cmd

theorem State.Frame.requestKept {s t : State} (h : s.Frame t) : s.RequestKept t :=
  ⟨h.keeps State.reqId fun _ => rfl, h.keeps State.cmdLen fun _ => rfl, h.keeps State.requireCrc fun _ => rfl,
    h.keeps State.timeout fun _ => rfl, h.keeps State.rspCap fun _ => rfl, h.keeps State.cmd fun _ => rfl⟩

theorem State.Ends.requestKept {s t : State} (h : s.Ends t) : s.RequestKept t :=
  ⟨h.keeps State.reqId (fun _ => rfl) fun _ _ => rfl, h.keeps State.cmdLen (fun _ => rfl) fun _ _ => rfl,
    h.keeps State.requireCrc (fun _ => rfl) fun _ _ => rfl, h.keeps State.timeout (fun _ => rfl) fun _ _ => rfl,
    h.keeps State.rspCap (fun _ => rfl) fun _ _ => rfl, h.keeps State.cmd (fun _ => rfl) fun _ _ => rfl⟩

/-- Settles O54: a record by the ways a port can change, the registers by what a step does to a running transaction. -/
theorem requestLatched : Obligations.RequestLatched := by
  intro s t h hstep
  have hmove := step_moves hstep
  refine ⟨fun r p q hp hq hact => ?_, fun hq => ?_⟩
  · obtain ⟨p', hp', hpq⟩ := hmove.ports.2 r q hq
    obtain rfl : p = p' := Option.some.inj (hp.symm.trans hp')
    cases hpq with
    | stays hsame => exact hsame.1
    | calls hfree hrsp hresult hsend => exact nomatch hfree.symm.trans hact
    | ends hq hq' hr hfree hreq hrsp hresult => exact hreq
  · have hkept : s.dropInput.RequestKept t := by
      rcases h.dropInput.moves_of_running hq hmove with hw | hr | he | ⟨ws, ps, rfl⟩
      · exact hw.requestKept
      · exact hr.requestKept
      · exact he.requestKept
      · exact ⟨rfl, rfl, rfl, rfl, rfl, rfl⟩
    exact hkept

/-! ### The direction -/

/-- A grant leaves the direction, and every phase but the one it begins. -/
theorem State.Grants.direction {s t : State} (h : s.Grants t) : t.dirMode = s.dirMode ∧
    (t.seqState = s.seqState ∨ t.seqState = .dirTx) ∧ (t = s ∨ t.lockHeld = true) := by
  cases h with
  | held h => exact ⟨rfl, .inl rfl, .inl rfl⟩
  | begins hl hw hp hact => exact ⟨rfl, .inr rfl, .inr rfl⟩
  | holds hl hw hp hact => exact ⟨rfl, .inl rfl, .inr rfl⟩
  | absent hl hw hp => exact ⟨rfl, .inl rfl, .inr rfl⟩

/-- A state at rest, its line restored or without a Bus. -/
theorem State.directionDiscipline_of_idle {u : State} (hq : u.seqState = .idle)
    (hrest : u.busValid = true → u.dirMode = .idle ∨ u.dirFailed = some .idle) : u.DirectionDiscipline := by
  refine ⟨fun he => ?_, fun he => ?_, fun hb _ => hrest hb⟩ <;>
  · rw [hq] at he
    rcases he with he | he <;> cases he

section
variable {s t : State} (hl : s.LockDiscipline) (h : s.DirectionDiscipline)
include h

theorem State.DirectionDiscipline.grants (hg : s.Grants t) : t.DirectionDiscipline := by
  obtain ⟨hd, hq, hheld⟩ := hg.direction
  rcases hheld with rfl | hheld
  · exact h
  · refine ⟨fun he => ?_, fun he => ?_, fun _ hfree => (nomatch hheld.symm.trans hfree)⟩
    · rcases hq with hq | hq
      · rw [hd]; exact h.transmitting (hq ▸ he)
      · rw [hq] at he; rcases he with he | he <;> cases he
    · rcases hq with hq | hq
      · rw [hd]; exact h.receiving (hq ▸ he)
      · rw [hq] at he; rcases he with he | he <;> cases he

include hl in
/-- Every move keeps the direction's discipline. -/
theorem State.Moves.directionDiscipline (hm : s.Moves t) : t.DirectionDiscipline := by
  cases hm with
  | works hw =>
    have hbus := hw.keeps State.busValid fun _ => rfl
    have hheld := hw.keeps State.lockHeld fun _ => rfl
    rcases hw.direction with ⟨hd, hf⟩ | ⟨hq, hlock⟩
    · exact ⟨by rw [hw.seqState, hd]; exact h.transmitting, by rw [hw.seqState, hd]; exact h.receiving,
        by rw [hbus, hheld, hd, hf]; exact h.freeMeansRestored⟩
    · have hq' := hw.seqState.trans hq
      refine ⟨fun he => ?_, fun he => ?_, fun _ hfree => (nomatch hlock.symm.trans (hheld.symm.trans hfree))⟩ <;>
      · rw [hq'] at he
        rcases he with he | he <;> cases he
  | runs hr =>
    have hheld := (hr.keeps State.lockHeld fun _ => rfl).trans (hl.transactionHoldsLock hr.began).1
    refine ⟨fun he => ?_, fun he => ?_, fun _ hfree => (nomatch hheld.symm.trans hfree)⟩
    · rcases hr.transmitting he with hd | ⟨hq, hd⟩
      · exact hd
      · exact hd.trans (h.transmitting (.inl hq))
    · rcases hr.receiving he with hd | ⟨hq, hd⟩
      · exact hd
      · exact hd.trans (h.receiving hq)
  | ends hq he => exact State.directionDiscipline_of_idle he.seqState fun _ => he.direction
  | grants hq => exact h.grants s.tryGrant_grants
  | @waits r p q hb hp hact hjoin =>
    exact State.DirectionDiscipline.grants (s := s.join r q) ⟨h.transmitting, h.receiving, h.freeMeansRestored⟩
      (State.tryGrant_grants _)
  | answered hp hact hq => exact ⟨h.transmitting, h.receiving, h.freeMeansRestored⟩
  | unlocks hp hown hq hrest =>
    refine State.directionDiscipline_of_idle hq fun _ => ?_
    rcases hrest with hf | ⟨-, hd⟩
    · exact .inr hf
    · exact .inl hd
  | creates hbus hb hm => exact State.directionDiscipline_of_idle rfl fun _ => .inl rfl
  | destroys hfree hw => exact State.directionDiscipline_of_idle (hl.freeMeansIdle hfree) (nomatch ·)

end

/-- Settles O48: every move keeps the discipline. -/
theorem directionDisciplineStays : Obligations.DirectionDisciplineStays := fun _ _ hl h hstep =>
  (step_moves hstep).directionDiscipline hl.dropInput ⟨h.transmitting, h.receiving, h.freeMeansRestored⟩

/-- Settles O52: under a free lock no transaction runs, and only CREATE writes the mode. -/
theorem dirModeUnderLock : Obligations.DirModeUnderLock := by
  intro s t hl hstep hne
  have hmove := step_moves hstep
  have hl' := hl.dropInput
  cases hmove with
  | works hw =>
    rcases hw.direction with ⟨hd, -⟩ | ⟨-, hlock⟩
    · exact absurd hd hne
    · exact .inl hlock
  | runs hr => exact .inl (hl'.transactionHoldsLock hr.began).1
  | ends hq he => exact .inl (hl'.transactionHoldsLock (by rw [hq]; exact (nomatch ·))).1
  | grants hq => exact absurd (State.tryGrant_grants _).direction.1 hne
  | waits hb hp hact hjoin => exact absurd (State.tryGrant_grants _).direction.1 hne
  | answered hp hact hq => exact absurd rfl hne
  | unlocks hp hown hq hrest => exact absurd rfl hne
  | creates hbus hb hm => exact .inr ⟨hbus, rfl, rfl⟩
  | destroys hfree hw => exact absurd rfl hne

/-! ### The status -/

/-- The end of a transaction makes no status that a SEND does not end in. -/
theorem State.endStatus_ne {s : State} {st : Status} (h : s.status ≠ st) (hst : st ≠ .fail) : s.endStatus ≠ st := by
  unfold State.endStatus
  split_ifs
  · rcases firstError_cases s.status .fail with he | ⟨-, he⟩
    · rw [he]; exact h
    · rw [he]; exact hst.symm
  · exact h

section
variable {s t : State} (hl : s.LockDiscipline) (h : s.StatusDiscipline)
include hl h

/-- The status of the transaction that runs after a step. -/
theorem State.Moves.status_ne (hm : s.Moves t) (hq : t.seqState ≠ .idle) : t.status ≠ .notFound ∧ t.status ≠ .noMem := by
  have hgrant : ∀ {u : State}, u.seqState = s.seqState → u.status = s.status → u.Grants t →
      t.status ≠ .notFound ∧ t.status ≠ .noMem := by
    intro u hu hst hg
    cases hg with
    | held _ => rw [hst]; exact h.running (hu ▸ hq)
    | begins _ _ _ _ => exact ⟨(nomatch ·), (nomatch ·)⟩
    | holds _ _ _ _ => rw [hst]; exact h.running (hu ▸ hq)
    | absent _ _ _ => rw [hst]; exact h.running (hu ▸ hq)
  cases hm with
  | works hw =>
    have hq' : s.seqState ≠ .idle := hw.seqState ▸ hq
    rw [(hw.running hq').1]
    exact h.running hq'
  | runs hr =>
    rcases hr.status with heq | ⟨-, hne⟩
    · rw [heq]; exact h.running hr.began
    · exact hne
  | ends _ he => exact absurd he.seqState hq
  | grants _ => exact hgrant rfl rfl s.tryGrant_grants
  | @waits r p q _ _ _ _ => exact hgrant (u := s.join r q) rfl rfl (State.tryGrant_grants _)
  | answered _ _ _ => exact h.running hq
  | unlocks _ _ hidle _ => exact absurd hidle hq
  | creates _ _ _ => exact absurd rfl hq
  | destroys hfree _ => exact absurd (hl.freeMeansIdle hfree) hq

/-- Every move keeps the status's discipline. -/
theorem State.Moves.statusDiscipline (hm : s.Moves t) : t.StatusDiscipline := by
  refine ⟨fun hq => hm.status_ne hl h hq, hm.forall_ports h.results fun k p q _ hpq hp st len hq => ?_⟩
  cases hpq with
  | stays hsame => exact hp st len (hsame.2.2.1 ▸ hq)
  | calls _ _ hresult _ =>
    rcases hresult with hr | hr | ⟨hr, -⟩
    · exact nomatch hr.symm.trans hq
    · obtain ⟨rfl, -⟩ := Prod.mk.inj (Option.some.inj (hr.symm.trans hq))
      exact ⟨(nomatch ·), (nomatch ·)⟩
    · exact hp st len (hr.symm.trans hq)
  | ends hrun _ _ _ _ _ hr =>
    obtain ⟨rfl, -⟩ := Prod.mk.inj (Option.some.inj (hr.symm.trans hq))
    obtain ⟨h1, h2⟩ := h.running (by rw [hrun]; exact (nomatch ·))
    exact ⟨State.endStatus_ne h1 (nomatch ·), State.endStatus_ne h2 (nomatch ·)⟩

end

/-- Settles O50: every move keeps the discipline. -/
theorem statusDisciplineStays : Obligations.StatusDisciplineStays := fun _ _ hl h hstep =>
  (step_moves hstep).statusDiscipline hl.dropInput ⟨h.running, h.results⟩

/-! ### The request registers -/

/-- The request registers are the latched record of a requester whose SEND is outstanding (R20). -/
def State.RegistersLatched (s : State) : Prop :=
  ∃ p, s.ports[s.reqId]? = some p ∧ p.act = .sending ∧ s.cmdLen = p.req.cmdLen ∧ s.requireCrc = p.req.requireCrc ∧
    s.timeout = p.req.timeout ∧ s.rspCap = p.req.rspCap ∧ s.rspLen ≤ s.rspCap

theorem State.Frame.registersLatched {s t : State} (hf : s.Frame t) (h : s.RegistersLatched)
    (hlen : t.rspLen ≤ s.rspLen ∨ t.rspLen ≤ s.rspCap) : t.RegistersLatched := by
  obtain ⟨p, hp, hact, hcmd, hcrc, htime, hcap, hle⟩ := h
  obtain ⟨greq, gcmd, gcrc, gtime, gcap, -⟩ := hf.requestKept
  refine ⟨p, ?_, hact, gcmd.trans hcmd, gcrc.trans hcrc, gtime.trans htime, gcap.trans hcap, ?_⟩
  · rw [hf.keeps State.ports fun _ => rfl, greq]
    exact hp
  · rw [gcap]
    omega

/-- The grant of a SEND loads its record. -/
theorem State.Grants.registersLatched {s t : State} (hg : s.Grants t) (hidle : s.lockHeld = false → s.seqState = .idle)
    (h : s.seqState ≠ .idle → s.RegistersLatched) (hq : t.seqState ≠ .idle) : t.RegistersLatched := by
  cases hg with
  | held _ => exact h hq
  | begins hl hw hp hact => exact ⟨_, hp, hact, rfl, rfl, rfl, rfl, Nat.zero_le _⟩
  | holds hl hw hp hact => exact absurd (hidle hl) hq
  | absent hl hw hp => exact absurd (hidle hl) hq

/-- A port written that is not the running transaction's. -/
theorem State.RegistersLatched.set {s : State} (h : s.RegistersLatched) {r : Nat} {p q : Port} (hp : s.ports[r]? = some p)
    (hact : p.act = .free) : State.RegistersLatched { s with ports := s.ports.set r q } := by
  obtain ⟨x, hx, hsend, hregs⟩ := h
  refine ⟨x, ?_, hsend, hregs⟩
  have hne : r ≠ s.reqId := by
    rintro rfl
    obtain rfl : p = x := Option.some.inj (hp.symm.trans hx)
    exact nomatch hact.symm.trans hsend
  rw [List.getElem?_set_ne hne]
  exact hx

section
variable {s t : State} (hl : s.LockDiscipline) (h : s.RequestDiscipline)
include hl h

theorem State.Moves.registersLatched (hm : s.Moves t) (hq : t.seqState ≠ .idle) : t.RegistersLatched := by
  cases hm with
  | works hw =>
    have hq' : s.seqState ≠ .idle := hw.seqState ▸ hq
    exact hw.registersLatched (h.registers hq') (.inl (hw.running hq').2.le)
  | runs hr => exact hr.registersLatched (h.registers hr.began) hr.rspLen
  | ends _ he => exact absurd he.seqState hq
  | grants _ => exact s.tryGrant_grants.registersLatched hl.freeMeansIdle h.registers hq
  | @waits r p q _ hp hact _ =>
    exact (s.join r q).tryGrant_grants.registersLatched hl.freeMeansIdle
      (fun hrun => State.RegistersLatched.set (h.registers hrun) hp hact) hq
  | answered hp hact _ => exact State.RegistersLatched.set (h.registers hq) hp hact
  | unlocks _ _ hidle _ => exact absurd hidle hq
  | creates _ _ _ => exact absurd rfl hq
  | destroys hfree _ => exact absurd (hl.freeMeansIdle hfree) hq

/-- Every move keeps the requests' discipline. -/
theorem State.Moves.requestDiscipline (hm : s.Moves t) : t.RequestDiscipline := by
  refine ⟨fun hq => hm.registersLatched hl h hq, hm.forall_ports h.results fun k p q hk hpq hp st len hq => ?results,
    hm.forall_ports h.commands fun k p q hk hpq hp hact => ?commands⟩
  case results =>
    cases hpq with
    | stays hsame =>
      obtain ⟨hreq, -, hresult, -⟩ := hsame
      rw [hreq]
      exact hp st len (hresult ▸ hq)
    | calls _ _ hresult _ =>
      rcases hresult with hr | hr | ⟨hr, hreq⟩
      · exact nomatch hr.symm.trans hq
      · obtain ⟨-, rfl⟩ := Prod.mk.inj (Option.some.inj (hr.symm.trans hq))
        exact Nat.zero_le _
      · rw [hreq]
        exact hp st len (hr.symm.trans hq)
    | ends hrun _ hr _ hreq _ hresult =>
      obtain ⟨-, rfl⟩ := Prod.mk.inj (Option.some.inj (hresult.symm.trans hq))
      obtain ⟨x, hx, -, -, -, -, hcap, hle⟩ := h.registers (by rw [hrun]; exact (nomatch ·))
      rw [hr] at hx
      obtain rfl : p = x := Option.some.inj (hk.symm.trans hx)
      rw [hreq, ← hcap]
      exact hle
  case commands =>
    have hcfg : t.cfg = s.cfg := by rcases hm.bus with ⟨hcfg, -⟩ | ⟨hcfg, -⟩ | ⟨hcfg, -⟩ <;> exact hcfg
    rw [hcfg]
    cases hpq with
    | stays hsame =>
      obtain ⟨hreq, -, -, hsend⟩ := hsame
      rw [hreq]
      exact hp (hsend hact)
    | calls _ _ _ hsend => exact hsend hact
    | ends _ _ _ hfree _ _ _ => exact nomatch hfree.symm.trans hact

end

/-- Settles O49: every move keeps the discipline. -/
theorem requestDisciplineStays : Obligations.RequestDisciplineStays := fun _ _ hl h hstep =>
  (step_moves hstep).requestDiscipline hl.dropInput ⟨h.registers, h.results, h.commands⟩

end Sys2Proof.Machine
end

section
/-! A transaction runs to its end (R168, R240): each of its steps takes one from a bound (`State.sequence_countdown`), and the
steps together compute SEND's pseudocode. -/

namespace Sys2Proof.Machine

set_option Elab.async false

/-! ### Runs -/

/-- A run begins with its first step. -/
theorem run_of_step {M : Host.Core} {s u : M.State} (h : M.step s = .next u) (n : Nat) : M.run (n + 1) s = M.run n u := by
  rw [Host.Core.run, h]

/-- A run of one step more has a first step. -/
theorem step_of_run {M : Host.Core} {s t : M.State} {n : Nat} (h : M.run (n + 1) s = .next t) :
    ∃ u, M.step s = .next u ∧ M.run n u = .next t := by
  rw [Host.Core.run] at h
  split at h
  · next u hu => exact ⟨u, hu, h⟩
  · cases h
  · cases h

theorem State.reaches_refl (s : State) : s.reaches 0 s := rfl

theorem State.reaches_head {s u t : State} {n : Nat} (h : step s = .next u) (g : u.reaches n t) : s.reaches (n + 1) t :=
  (run_of_step (M := core) h n).trans g

theorem State.reaches_trans {n m : Nat} : ∀ {s u t : State}, s.reaches n u → u.reaches m t → s.reaches (n + m) t := by
  induction n with
  | zero =>
    intro s u t h g
    obtain rfl : s = u := Host.Outcome.next.inj h
    rwa [Nat.zero_add]
  | succ n ih =>
    intro s u t h g
    obtain ⟨v, hv, hn⟩ := step_of_run (M := core) h
    rw [Nat.succ_add]
    exact State.reaches_head hv (ih hn g)

/-- Within a transaction the input and the script of answers to come are the sequencer's alone. -/
theorem State.Runs.inputs {s t : State} (h : s.Runs t) : t.inputs = s.inputs := h.keeps State.inputs fun _ => rfl

/-! ### The bound -/

/-- A bound on the steps that a transaction still takes: the phases, the budgets and the scripted captures. -/
def State.countdown (s : State) : Nat :=
  match s.seqState with
  | .idle => 0
  | .restore => 1
  | .rx2 => s.tRem + s.script.captures.length + 2
  | .rx1 => s.tRem + s.script.captures.length + 999003
  | .dirRx => s.timeout + s.script.captures.length + 999004
  | .emit => s.timeout + s.script.captures.length + 999005
  | .dirTx => s.timeout + s.script.captures.length + 999006

theorem State.countdown_of_restore {s : State} (h : s.seqState = .restore) : s.countdown = 1 := by
  rw [State.countdown, h]

theorem State.countdown_pos {s : State} (h : s.seqState ≠ .idle) : 0 < s.countdown := by
  unfold State.countdown
  split
  · next hq => exact absurd hq h
  all_goals exact Nat.succ_pos _

theorem State.countdown_le (s : State) : s.countdown ≤ s.timeout + s.tRem + s.script.captures.length + 999006 := by
  unfold State.countdown
  split <;> omega

/-- A turn of READLINE takes no more than one of the scripted captures. -/
theorem State.readTurn_script_le (d : Dst) (cap : Nat) (s : State) :
    (s.readTurn d cap).2.script.captures.length ≤ s.script.captures.length := by
  have htail : s.script.captures.tail.length ≤ s.script.captures.length := by
    rw [List.length_tail]
    exact Nat.sub_le _ _
  rcases State.readTurn_cases d cap s with ⟨-, he⟩ | ⟨-, -, he⟩ | ⟨-, -, he⟩ | ⟨-, ps, e, -, he⟩
  · rw [he, State.setLen_script]
  · rw [he, State.setLen_script, State.envCapture_script]
    exact htail
  · rw [he, State.setLen_script, State.envCapture_script]
    exact htail
  · rw [he, State.takeCapture, State.decodeInto_script, State.envCapture_script]
    exact htail

/-- The second phase's budget is within 999 seconds (R157). -/
theorem State.dispatchFirst_countdown (s : State) : s.dispatchFirst.countdown ≤ s.script.captures.length + 999002 := by
  cases hc : s.cmdClass with
  | other =>
    rw [State.dispatchFirst_of_other hc, State.countdown_of_restore rfl]
    omega
  | data =>
    cases hr : s.requireCrc with
    | false =>
      rw [State.dispatchFirst_of_data_unchecked hc hr, State.countdown_of_restore rfl]
      omega
    | true =>
      cases hv : s.verifies with
      | true =>
        rw [State.dispatchFirst_of_data_verified hc hr hv, State.countdown_of_restore rfl]
        omega
      | false =>
        rw [State.dispatchFirst_of_data_corrupt hc hr hv, State.countdown_of_restore rfl]
        omega
  | meas =>
    cases hf : s.secondsField with
    | none =>
      rw [State.dispatchFirst_of_meas_malformed hc hf, State.countdown_of_restore rfl]
      omega
    | some n =>
      rcases Nat.eq_zero_or_pos n with rfl | hn
      · rw [State.dispatchFirst_of_meas_ready hc hf, State.countdown_of_restore rfl]
        omega
      · have hle := State.secondsField_le hf
        rw [State.dispatchFirst_of_meas_waiting hc hf hn]
        change n * 1000 + s.script.captures.length + 2 ≤ _
        omega

theorem State.stepRx1_countdown {s : State} (hq : s.seqState = .rx1) : s.stepRx1.countdown < s.countdown := by
  have hs : s.countdown = s.tRem + s.script.captures.length + 999003 := by rw [State.countdown, hq]
  have hread := State.readTurn_readsInto .rsp s.rspCap s
  have hle := State.readTurn_script_le .rsp s.rspCap s
  rcases hturn : s.readTurn .rsp s.rspCap with ⟨_ | st, t⟩ <;> rw [hturn] at hread hle
  · have hq' : t.seqState = .rx1 := (hread.keeps State.seqState fun _ => rfl).trans hq
    have ht : t.countdown = t.tRem + t.script.captures.length + 999003 := by rw [State.countdown, hq']
    have hless := State.readTurn_measure hturn
    rw [State.stepRx1_of_retry hturn]
    omega
  · by_cases hok : st = .ok
    · subst hok
      have hd := t.dispatchFirst_countdown
      rw [State.stepRx1, hturn]
      dsimp only at hle ⊢
      omega
    · rw [State.stepRx1_of_error hturn hok, State.countdown_of_restore rfl]
      omega

theorem State.stepRx2_countdown {s : State} (hq : s.seqState = .rx2) : s.stepRx2.countdown < s.countdown := by
  have hs : s.countdown = s.tRem + s.script.captures.length + 2 := by rw [State.countdown, hq]
  have hread := State.readTurn_readsInto .srq s.cfg.srqCap s
  rcases hturn : s.readTurn .srq s.cfg.srqCap with ⟨_ | st, t⟩ <;> rw [hturn] at hread
  · have hq' : t.seqState = .rx2 := (hread.keeps State.seqState fun _ => rfl).trans hq
    have ht : t.countdown = t.tRem + t.script.captures.length + 2 := by rw [State.countdown, hq']
    have hless := State.readTurn_measure hturn
    rw [State.stepRx2_of_retry hturn]
    omega
  · rw [State.stepRx2_of_last hturn, State.countdown_of_restore rfl]
    omega

/-- A step before the restore step counts. -/
theorem State.sequence_countdown {s : State} (hq : s.seqState ≠ .idle) (hr : s.seqState ≠ .restore) :
    s.sequence.countdown < s.countdown := by
  cases hs : s.seqState with
  | idle => exact absurd hs hq
  | restore => exact absurd hs hr
  | dirTx =>
    have hc : s.countdown = s.timeout + s.script.captures.length + 999006 := by rw [State.countdown, hs]
    rw [State.sequence_of_dirTx hs]
    rcases Bool.eq_false_or_eq_true s.setDirAnswer with ha | ha
    · rw [State.stepDirTx_of_ack ha, hc]
      exact Nat.lt_succ_self (s.timeout + s.script.captures.length + 999005)
    · rw [State.stepDirTx_of_fail ha, State.countdown_of_restore rfl]
      omega
  | emit =>
    have hc : s.countdown = s.timeout + s.script.captures.length + 999005 := by rw [State.countdown, hs]
    rw [State.sequence_of_emit hs]
    rcases Bool.eq_false_or_eq_true s.emitAnswer with ha | ha
    · rw [State.stepEmit_of_ack ha, hc]
      exact Nat.lt_succ_self (s.timeout + s.script.captures.length + 999004)
    · rw [State.stepEmit_of_fail ha, State.countdown_of_restore rfl]
      omega
  | dirRx =>
    have hc : s.countdown = s.timeout + s.script.captures.length + 999004 := by rw [State.countdown, hs]
    rw [State.sequence_of_dirRx hs]
    rcases Bool.eq_false_or_eq_true s.setDirAnswer with ha | ha
    · rw [State.stepDirRx_of_ack ha, hc]
      exact Nat.lt_succ_self (s.timeout + s.script.captures.length + 999003)
    · rw [State.stepDirRx_of_fail ha, State.countdown_of_restore rfl]
      omega
  | rx1 => rw [State.sequence_of_rx1 hs]; exact State.stepRx1_countdown hs
  | rx2 => rw [State.sequence_of_rx2 hs]; exact State.stepRx2_countdown hs

/-- A transaction ends within its bound. -/
theorem State.ends_within (k : Nat) : ∀ s : State, s.countdown ≤ k → s.inputs = [] → s.seqState ≠ .idle →
    ∃ n t, n ≤ k ∧ s.reaches n t ∧ t.seqState = .idle ∧ t.lockHeld = false := by
  induction k with
  | zero => exact fun s hk _ hq => absurd hk (Nat.not_le.2 (State.countdown_pos hq))
  | succ k ih =>
    intro s hk hi hq
    have hstep := step_of_no_inputs hi
    by_cases hr : s.seqState = .restore
    · rw [State.sequence_of_restore hr] at hstep
      have hends := s.stepRestore_ends
      exact ⟨1, _, Nat.succ_le_succ (Nat.zero_le k), State.reaches_head hstep (State.reaches_refl _), hends.seqState,
        hends.lockHeld⟩
    · have hruns := State.sequence_runs hq hr
      have hless := State.sequence_countdown hq hr
      obtain ⟨n, t, hn, hreach, hidle, hfree⟩ := ih s.sequence (by omega) (hruns.inputs.trans hi) hruns.goesOn
      exact ⟨n + 1, t, Nat.succ_le_succ hn, State.reaches_head hstep hreach, hidle, hfree⟩

/-- Settles O44: the bound is the countdown. -/
theorem transactionEnds : Obligations.TransactionEnds := by
  intro s hi hq
  have hle := s.countdown_le
  obtain ⟨n, t, hn, hreach, hidle, hfree⟩ := State.ends_within s.countdown s le_rfl hi hq
  exact ⟨n, t, by omega, hreach, hidle, hfree⟩

/-! ### The pseudocode -/

/-- A run with no call pending leads there. -/
def State.Leads (s t : State) : Prop := t.inputs = [] ∧ ∃ n, s.reaches n t

theorem State.Leads.trans {s u t : State} (h : s.Leads u) (g : u.Leads t) : s.Leads t := by
  obtain ⟨-, n, hn⟩ := h
  obtain ⟨hi, m, hm⟩ := g
  exact ⟨hi, n + m, State.reaches_trans hn hm⟩

theorem State.leads_refl {s : State} (hi : s.inputs = []) : s.Leads s := ⟨hi, 0, rfl⟩

/-- A transaction in a phase, with no call pending and no error so far. -/
structure State.Running (s : State) (q : SeqState) : Prop where
  inputs : s.inputs = []
  phase : s.seqState = q
  status : s.status = .ok

/-- A turn of READLINE stays in its phase. -/
theorem State.Running.readTurn {s : State} {q : SeqState} (h : s.Running q) (d : Dst) (cap : Nat) :
    (s.readTurn d cap).2.Running q := by
  have hread := State.readTurn_readsInto d cap s
  exact ⟨(hread.keeps State.inputs fun _ => rfl).trans h.inputs, (hread.keeps State.seqState fun _ => rfl).trans h.phase,
    (hread.keeps State.status fun _ => rfl).trans h.status⟩

/-- The first error is the status. -/
theorem State.Running.raise {s : State} {q : SeqState} (h : s.Running q) (st : Status) :
    s.raise st = { s with status := st, seqState := .restore } := by
  rw [State.raise_eq, firstError, if_pos h.status]

section
variable {s : State}

/-- A turn of a phase before the restore step. -/
theorem State.Running.leads_sequence {q : SeqState} (h : s.Running q) (hq : q ≠ .idle) (hr : q ≠ .restore) :
    s.Leads s.sequence := by
  refine ⟨?_, 1, State.reaches_head (step_of_no_inputs h.inputs) (State.reaches_refl _)⟩
  exact (State.sequence_runs (h.phase.trans_ne hq) (h.phase.trans_ne hr)).inputs.trans h.inputs

/-- The second phase is READLINE into `SRQ` and the status of R160. -/
theorem State.Running.leads_rx2 (h : s.Running .rx2) : s.Leads (State.toRestore
    { (s.readLoop .srq s.cfg.srqCap s.readFuel).2 with
      status := (s.readLoop .srq s.cfg.srqCap s.readFuel).2.srqStatus (s.readLoop .srq s.cfg.srqCap s.readFuel).1 }) := by
  refine State.readLoop_induct (I := fun u => u.Running .rx2 ∧ u.cfg = s.cfg ∧ s.Leads u)
    (Q := fun st t => s.Leads (State.toRestore { t with status := t.srqStatus st })) ?retry ?last _ s le_rfl
    ⟨h, rfl, State.leads_refl h.inputs⟩
  case retry =>
    rintro u t ⟨hu, hcfg, hlead⟩ hturn
    rw [← hcfg] at hturn
    have hstep := hu.leads_sequence (nomatch ·) (nomatch ·)
    rw [State.sequence_of_rx2 hu.phase, State.stepRx2_of_retry hturn] at hstep
    have ht := hu.readTurn .srq u.cfg.srqCap
    have hcfg' := (State.readTurn_readsInto .srq u.cfg.srqCap u).keeps State.cfg fun _ => rfl
    rw [hturn] at ht hcfg'
    exact ⟨ht, hcfg'.trans hcfg, hlead.trans hstep⟩
  case last =>
    rintro u st t ⟨hu, hcfg, hlead⟩ hturn
    rw [← hcfg] at hturn
    have ht := hu.readTurn .srq u.cfg.srqCap
    rw [hturn] at ht
    have hstep := hu.leads_sequence (nomatch ·) (nomatch ·)
    rw [State.sequence_of_rx2 hu.phase, State.stepRx2_of_last hturn, firstError, if_pos ht.status] at hstep
    exact hlead.trans hstep

/-! ### Steps 4 and 5 -/

theorem State.sendAfterLine_of_other (hc : s.cmdClass = .other) : s.sendAfterLine = s := by
  rw [State.sendAfterLine, hc]
  rfl

theorem State.sendAfterLine_of_data (hc : s.cmdClass = .data) : s.sendAfterLine = s.checkData := by
  rw [State.sendAfterLine, hc]
  rfl

theorem State.sendAfterLine_of_malformed (hc : s.cmdClass = .meas) (hf : s.secondsField = none) :
    s.sendAfterLine = { s with status := .invalidResponse } := by
  rw [State.sendAfterLine, hc, hf]
  simp only [State.classSteps, hf]

theorem State.sendAfterLine_of_ready (hc : s.cmdClass = .meas) (hf : s.secondsField = some 0) :
    s.sendAfterLine = { s with seconds := 0 } := by
  rw [State.sendAfterLine, hc, hf]
  simp only [State.classSteps, hf]
  exact if_pos rfl

/-- The state in which the second phase begins (R158). -/
def State.enterRx2 (n : Nat) (s : State) : State := { s with seconds := n, tRem := n * 1000, seqState := .rx2 }

theorem State.sendAfterLine_of_waiting {n : Nat} (hc : s.cmdClass = .meas) (hf : s.secondsField = some n) (hn : 0 < n) :
    s.sendAfterLine =
      { ((s.enterRx2 n).readLoop .srq s.cfg.srqCap (s.enterRx2 n).readFuel).2 with
        status := ((s.enterRx2 n).readLoop .srq s.cfg.srqCap (s.enterRx2 n).readFuel).2.srqStatus
          ((s.enterRx2 n).readLoop .srq s.cfg.srqCap (s.enterRx2 n).readFuel).1 } := by
  obtain ⟨k, rfl⟩ : ∃ k, n = k + 1 := ⟨n - 1, by omega⟩
  have hf' : State.secondsField { s with seqState := .rx2 } = some (k + 1) := hf
  rw [State.sendAfterLine, hc, hf]
  simp only [State.classSteps, hf']
  exact if_neg (Nat.succ_ne_zero k)

/-- Steps 4 and 5 after a first line. -/
theorem State.Running.leads_afterLine (h : s.Running .rx1) : s.dispatchFirst.Leads s.sendAfterLine.toRestore := by
  cases hc : s.cmdClass with
  | other =>
    rw [State.dispatchFirst_of_other hc, State.sendAfterLine_of_other hc]
    exact State.leads_refl h.inputs
  | data =>
    rw [State.sendAfterLine_of_data hc, State.checkData]
    cases hr : s.requireCrc with
    | false =>
      rw [State.dispatchFirst_of_data_unchecked hc hr]
      exact State.leads_refl h.inputs
    | true =>
      cases hv : s.verifies with
      | true =>
        rw [State.dispatchFirst_of_data_verified hc hr hv]
        exact State.leads_refl h.inputs
      | false =>
        have hverify : s.afterVerify.Running .rx1 := ⟨h.inputs, h.phase, h.status⟩
        rw [State.dispatchFirst_of_data_corrupt hc hr hv, hverify.raise]
        exact State.leads_refl h.inputs
  | meas =>
    cases hf : s.secondsField with
    | none =>
      rw [State.dispatchFirst_of_meas_malformed hc hf, State.sendAfterLine_of_malformed hc hf, h.raise]
      exact State.leads_refl h.inputs
    | some n =>
      rcases Nat.eq_zero_or_pos n with rfl | hn
      · rw [State.dispatchFirst_of_meas_ready hc hf, State.sendAfterLine_of_ready hc hf]
        exact State.leads_refl h.inputs
      · rw [State.dispatchFirst_of_meas_waiting hc hf hn, State.sendAfterLine_of_waiting hc hf hn]
        exact State.Running.leads_rx2 (s := s.enterRx2 n) ⟨h.inputs, rfl, h.status⟩

/-! ### Step by step -/

/-- The first phase is READLINE into the caller's buffer, and steps 4 and 5 after a line. -/
theorem State.Running.leads_rx1 (h : s.Running .rx1) : s.Leads (State.toRestore
    (if (s.readLoop .rsp s.rspCap s.readFuel).1 = .ok then (s.readLoop .rsp s.rspCap s.readFuel).2.sendAfterLine
    else { (s.readLoop .rsp s.rspCap s.readFuel).2 with status := (s.readLoop .rsp s.rspCap s.readFuel).1 })) := by
  refine State.readLoop_induct (I := fun u => u.Running .rx1 ∧ u.rspCap = s.rspCap ∧ s.Leads u)
    (Q := fun st t => s.Leads (State.toRestore (if st = .ok then t.sendAfterLine else { t with status := st })))
    ?retry ?last _ s le_rfl ⟨h, rfl, State.leads_refl h.inputs⟩
  case retry =>
    rintro u t ⟨hu, hcap, hlead⟩ hturn
    rw [← hcap] at hturn
    have hstep := hu.leads_sequence (nomatch ·) (nomatch ·)
    rw [State.sequence_of_rx1 hu.phase, State.stepRx1_of_retry hturn] at hstep
    have ht := hu.readTurn .rsp u.rspCap
    have hcap' := (State.readTurn_readsInto .rsp u.rspCap u).keeps State.rspCap fun _ => rfl
    rw [hturn] at ht hcap'
    exact ⟨ht, hcap'.trans hcap, hlead.trans hstep⟩
  case last =>
    rintro u st t ⟨hu, hcap, hlead⟩ hturn
    rw [← hcap] at hturn
    have ht := hu.readTurn .rsp u.rspCap
    rw [hturn] at ht
    have hstep := hu.leads_sequence (nomatch ·) (nomatch ·)
    rw [State.sequence_of_rx1 hu.phase] at hstep
    by_cases hok : st = .ok
    · subst hok
      rw [State.stepRx1, hturn] at hstep
      rw [if_pos rfl]
      exact (hlead.trans hstep).trans ht.leads_afterLine
    · rw [State.stepRx1_of_error hturn hok, ht.raise] at hstep
      rw [if_neg hok]
      exact hlead.trans hstep

/-- Step 3 after the emission. -/
def State.sendListen (s : State) : State :=
  if s.setDirAnswer = false then { s.setDir .receive with status := .fail }
  else State.sendReceive { s.setDir .receive with seqState := .rx1 }

/-- The emission and step 3. -/
def State.sendEmit (s : State) : State :=
  if s.emitAnswer = false then { s.envEmit with status := .fail } else State.sendListen { s.envEmit with seqState := .dirRx }

/-- Steps 2 to 5, the emission and what follows it named. -/
theorem State.sendExchange_eq (s : State) : s.sendExchange =
    if s.setDirAnswer = false then { s.setDir .transmit with status := .fail }
    else State.sendEmit { (s.setDir .transmit).encodeCommand with seqState := .emit } := rfl

theorem State.Running.leads_dirRx (h : s.Running .dirRx) : s.Leads s.sendListen.toRestore := by
  have hstep := h.leads_sequence (nomatch ·) (nomatch ·)
  have hdir : (s.setDir .receive).Running .dirRx := ⟨h.inputs, h.phase, h.status⟩
  rw [State.sequence_of_dirRx h.phase] at hstep
  rcases Bool.eq_false_or_eq_true s.setDirAnswer with ha | ha
  · rw [State.stepDirRx_of_ack ha] at hstep
    rw [State.sendListen, if_neg (by simp [ha])]
    exact hstep.trans (State.Running.leads_rx1 ⟨h.inputs, rfl, h.status⟩)
  · rw [State.stepDirRx_of_fail ha, hdir.raise] at hstep
    rw [State.sendListen, if_pos ha]
    exact hstep

theorem State.Running.leads_emit (h : s.Running .emit) : s.Leads s.sendEmit.toRestore := by
  have hstep := h.leads_sequence (nomatch ·) (nomatch ·)
  have hemit : s.envEmit.Running .emit := ⟨h.inputs, h.phase, h.status⟩
  rw [State.sequence_of_emit h.phase] at hstep
  rcases Bool.eq_false_or_eq_true s.emitAnswer with ha | ha
  · rw [State.stepEmit_of_ack ha] at hstep
    rw [State.sendEmit, if_neg (by simp [ha])]
    exact hstep.trans (State.Running.leads_dirRx ⟨h.inputs, rfl, h.status⟩)
  · rw [State.stepEmit_of_fail ha, hemit.raise] at hstep
    rw [State.sendEmit, if_pos ha]
    exact hstep

theorem State.Running.leads_dirTx (h : s.Running .dirTx) : s.Leads s.sendExchange.toRestore := by
  have hstep := h.leads_sequence (nomatch ·) (nomatch ·)
  have hdir : (s.setDir .transmit).Running .dirTx := ⟨h.inputs, h.phase, h.status⟩
  rw [State.sequence_of_dirTx h.phase] at hstep
  rw [State.sendExchange_eq]
  rcases Bool.eq_false_or_eq_true s.setDirAnswer with ha | ha
  · rw [State.stepDirTx_of_ack ha] at hstep
    rw [if_neg (by simp [ha])]
    exact hstep.trans (State.Running.leads_emit ⟨h.inputs, rfl, h.status⟩)
  · rw [State.stepDirTx_of_fail ha, hdir.raise] at hstep
    rw [if_pos ha]
    exact hstep

end

/-- Settles O43: the phases one after the other, and the restore step. -/
theorem sequencerIsSend : Obligations.SequencerIsSend := by
  intro s hi hq hst
  obtain ⟨hi', n, hn⟩ := State.Running.leads_dirTx ⟨hi, hq, hst⟩
  have hrestore := (step_of_no_inputs hi').trans (congrArg _ (State.sequence_of_restore rfl))
  exact ⟨n + 1, State.reaches_trans hn (State.reaches_head hrestore (State.reaches_refl _))⟩

end Sys2Proof.Machine
end
